-- ==== Sys2Proof/Word.lean ====
section
/-! DEFINITION. The bit-vector types of HTE-1, by the spec's own widths (spec/00_scope.md R8, R9, R10). -/

namespace Sys2Proof

/-- A register or command word, `REG_W` = 32 bits (R8). -/
abbrev Word := BitVec 32

/-- A literal symbol or stream byte, `BYTE_W` = 8 bits (R8). -/
abbrev Byte := BitVec 8

/-- A serialized symbol, `SYM_W` = 9 bits (R8). -/
abbrev Symbol := BitVec 9

/-- An arena index, `IDX_W` = 10 bits (R8). -/
abbrev Idx := BitVec 10

/-- A node weight, `WEIGHT_W` = 40 bits (R8). -/
abbrev Weight := BitVec 40

/-- A byte offset in the register window, `REG_ADDR_W` = 12 bits (R8). -/
abbrev Offset := BitVec 12

/-- A bit sequence in transfer order, the first bit transferred leftmost (R10). -/
abbrev BitSeq := List Bool

end Sys2Proof
end

