-- ==== Sys2Proof/Syntax.lean ====
section
/-! DEFINITION. The commands of HTE-1, one constructor per row of spec/opcode_table.json (spec/30_encoding.md R93).
A command word holds no operand fields (R91), so no constructor has an argument. -/

namespace Sys2Proof

inductive Instr where
  /-- NOP (spec/43_container_control.md R190) -/
  | nop
  /-- CLR_FREQ (spec/40_tree_build.md R120) -/
  | clrFreq
  /-- BUILD (spec/40_tree_build.md R126) -/
  | build
  /-- SER (spec/41_tree_serdes.md R150) -/
  | ser
  /-- DESER (spec/41_tree_serdes.md R143) -/
  | deser
  /-- CODES (spec/42_symbol_codec.md R162) -/
  | codes
  /-- ENC (spec/42_symbol_codec.md R166) -/
  | enc
  /-- DEC (spec/42_symbol_codec.md R175) -/
  | dec
  /-- MAGIC_WR (spec/43_container_control.md R192) -/
  | magicWr
  /-- MAGIC_CHK (spec/43_container_control.md R194) -/
  | magicChk
deriving DecidableEq, Repr

end Sys2Proof
end

