-- ==== Sys2Proof/WellFormed.lean ====
section
/-! DEFINITION. What is well formed. A command has no operands (spec/30_encoding.md R91), so every `Instr` is well formed;
a command WORD is well formed when its reserved field is zero and its opcode is assigned (R91, R93, R95). -/

namespace Sys2Proof

/-- Every command is well formed: the word holds no operand fields (R91). -/
def Instr.wellFormed : Instr → Bool
  | .nop => true
  | .clrFreq => true
  | .build => true
  | .ser => true
  | .deser => true
  | .codes => true
  | .enc => true
  | .dec => true
  | .magicWr => true
  | .magicChk => true

/-- RSV, bits [31:4], "must be 0" (R91). -/
def reservedBitsZero (v : Word) : Bool := v.extractLsb' 4 28 == 0

/-- OP, bits [3:0], is one of 0x0 to 0x9 (R93). -/
def opcodeAssigned (v : Word) : Bool := decide ((v.extractLsb' 0 4).toNat ≤ 9)

/-- A legal command word (R92, R95). -/
def commandWordWellFormed (v : Word) : Bool := reservedBitsZero v && opcodeAssigned v

end Sys2Proof
end

