-- ==== Sys2Proof/Decode.lean ====
section
/-! DEFINITION. Decoding and encoding of command words (spec/30_encoding.md R91 to R95): total, rejecting by name. -/

namespace Sys2Proof

/-- What decoding answers: a command, or why the word is no command (R92, R95). -/
inductive Decoded where
  | command (i : Instr)
  /-- v[31:4] is not zero (R92) -/
  | reservedBits
  /-- v[3:0] is 0xA to 0xF (R92) -/
  | reservedOpcode
  /-- not four bytes: a command word is exactly 32 bits (R94) -/
  | wrongLength
deriving DecidableEq, Repr

/-- OP, bits [3:0] (R91). -/
def opField (v : Word) : BitVec 4 := v.extractLsb' 0 4

/-- RSV, bits [31:4] (R91). -/
def rsvField (v : Word) : BitVec 28 := v.extractLsb' 4 28

/-- The opcode map, numbers to commands (R92, R93). -/
def ofOpcode : Nat → Decoded
  | 0x0 => .command .nop
  | 0x1 => .command .clrFreq
  | 0x2 => .command .build
  | 0x3 => .command .ser
  | 0x4 => .command .deser
  | 0x5 => .command .codes
  | 0x6 => .command .enc
  | 0x7 => .command .dec
  | 0x8 => .command .magicWr
  | 0x9 => .command .magicChk
  | _ => .reservedOpcode

/-- `Decode(v)` of R92. -/
def decode (v : Word) : Decoded :=
  if rsvField v = 0 then ofOpcode (opField v).toNat else .reservedBits

/-- A word from its four bytes, byte lane k holding bits [8k+7:8k] (spec/20_memory.md R72). -/
def wordOfLanes (b0 b1 b2 b3 : Byte) : Word := b3 ++ b2 ++ b1 ++ b0

/-- Byte lane k of a word (spec/20_memory.md R72). -/
def byteLane (v : Word) (k : Nat) : Byte := v.extractLsb' (8 * k) 8

/-- Decoding from bytes, lowest address first; anything but four bytes is no command word (R94). -/
def decodeBytes : List Byte → Decoded
  | [b0, b1, b2, b3] => decode (wordOfLanes b0 b1 b2 b3)
  | _ => .wrongLength

/-- The opcode map, commands to numbers (R93). -/
def opcode : Instr → BitVec 4
  | .nop => 0x0#4
  | .clrFreq => 0x1#4
  | .build => 0x2#4
  | .ser => 0x3#4
  | .deser => 0x4#4
  | .codes => 0x5#4
  | .enc => 0x6#4
  | .dec => 0x7#4
  | .magicWr => 0x8#4
  | .magicChk => 0x9#4

/-- "The command word of each command is zext_32(OP)" (R93). -/
def encode (i : Instr) : Word := (opcode i).setWidth 32

/-- The four bytes of a command word, lowest lane first (spec/20_memory.md R72). -/
def encodeBytes (i : Instr) : List Byte := (List.range 4).map (byteLane (encode i))

/-- The 32-bit command word in the low `nbits` bits of `w`, the bits above them zero. -/
def tableWord (nbits w : Nat) : Word := BitVec.ofNat 32 (w % 2 ^ nbits)

/-- The command an answer names, if it names one. -/
def Decoded.command? : Decoded → Option Instr
  | .command i => some i
  | .reservedBits => none
  | .reservedOpcode => none
  | .wrongLength => none

/-- What the decoder reads from an instruction whose bits are `w`, numbered as the opcode table numbers them. -/
def decodeTableWord (nbits w : Nat) : Option Instr :=
  (decodeBytes ((List.range 4).map (byteLane (tableWord nbits w)))).command?

end Sys2Proof
end

