-- ==== Sys2Proof/Config.lean ====
section
/-! DEFINITION. The parameters of HTE-1 (spec/00_scope.md R8): the fixed ones with their values, the OPEN ones and the
free values as constants without a body, of which nothing can be proved but their type. -/

namespace Sys2Proof.Config

/-- `NODE_CAP` = 513 arena entries (R8). -/
abbrev nodeCap : Nat := 513

/-- `NSYM` = 257 symbols (R8). -/
abbrev nsym : Nat := 257

/-- `END` = 256 (R8). -/
abbrev endSymbol : Symbol := 256#9

/-- `ID_VALUE` (R8; spec/10_state.md R22). -/
def idValue : Word := 0x48554601#32

/-- `MAGIC_RESET` (R8; spec/10_state.md R36). -/
def magicReset : Word := 0x00000736#32

/-- `BI_DEPTH` less one: OPEN, "each at least 1" (R8). Log 4. -/
opaque biDepthLessOne : Nat

/-- `YI_DEPTH` less one: OPEN, "each at least 1" (R8). Log 4. -/
opaque yiDepthLessOne : Nat

/-- `BO_DEPTH` less one: OPEN, "each at least 1" (R8). Log 4. -/
opaque boDepthLessOne : Nat

/-- `YO_DEPTH` less one: OPEN, "each at least 1" (R8). Log 4. -/
opaque yoDepthLessOne : Nat

/-- The free values of spec/10_state.md R43: the value the n-th read of an unspecified register returns. Log 7. -/
opaque unspecifiedRead : Nat → Word

/-- `HTE_BASE`, the base address of the register window: OPEN, a parameter of the platform (spec/20_memory.md R88).
No rule of HTE-1 uses it; only `Machine.windowOffset` does. Log 14. -/
opaque hteBase : Nat

end Sys2Proof.Config
end

