-- ==== Sys2Proof/Machine/State.lean ====
section
/-! DEFINITION. The state of HTE-1 as plain data, a transcription of spec/10_state.md R68 (every piece of state of R20 to
R67), with the model's own fields after it, and the state after reset (R67). -/

namespace Sys2Proof.Machine

/-- An arena entry (R50; spec/00_scope.md R15). -/
inductive Node where
  | leaf (sym : Symbol) (weight : Weight)
  | internal (left right : Idx) (weight : Weight)
deriving DecidableEq, Repr

/-- The content the model gives an arena entry nothing has written (R67: "unspecified and unobservable").
DESIGN CHOICE, log 5. -/
def Node.blank : Node := .leaf 0 0

/-- The node arena `node[0..512]` (R50). -/
abbrev Arena := Vector Node Config.nodeCap

/-- A code-table entry (R55): `none` is `valid = 0`, whose `len` and `bits` R67 leaves unspecified and unobservable, and
`some p` is `valid = 1`, `bits = p`, `len = |p|`. Log 6. -/
abbrev CodeEntry := Option BitSeq

/-- The code table `code[0..256]` (R55). -/
abbrev CodeTable := Vector CodeEntry Config.nsym

/-- The frequency registers `FREQ[0..255]` (R40). -/
abbrev FreqTable := Vector Word 256

/-- DESER's pending internal nodes (R65): one entry per internal node whose subtrees are not both read. -/
inductive DeserFrame where
  /-- node `i`: its left subtree is being read -/
  | inLeft (i : Idx)
  /-- node `i`, left child `l`: its right subtree is being read -/
  | inRight (i l : Idx)
deriving DecidableEq, Repr

/-- The position inside DESER's `ReadNode` (spec/41_tree_serdes.md R143). -/
inductive DeserPos where
  /-- about to enter ReadNode: the capacity check, then the flag bit -/
  | flag
  /-- inside `ReadBits(9)` of leaf `i`: `v` so far, `left` bits still to read -/
  | field (i : Idx) (v : Symbol) (left : Nat)
  /-- ReadNode is about to return index `i` -/
  | ret (i : Idx)
deriving DecidableEq, Repr

/-- The continuation (R63): the position reached in the running command's pseudocode, with its locals. Commands that touch
no port run in one engine step and need only `start` (spec/20_memory.md R82). Log 3. -/
inductive Cont where
  /-- accepted, nothing done yet (spec/30_encoding.md R90) -/
  | start
  /-- SER: bits of the token being written, and the traversal stack (R65) -/
  | ser (pending : BitSeq) (stack : List Idx)
  /-- DESER: `n` entries allocated, `lv` leaves, the position, the stack of pending internal nodes (R65) -/
  | deser (n lv : Idx) (pos : DeserPos) (stack : List DeserFrame)
  /-- ENC phase 2: bits of the codeword being written; `last` when it is END's -/
  | enc (pending : BitSeq) (last : Bool)
  /-- ENC phase 2: byte `x` has been read, its codeword is not looked up yet -/
  | encByte (x : Byte)
  /-- DEC: the walk pointer (R65) -/
  | dec (i : Idx)
  /-- MAGIC_WR: bits still to write -/
  | magicWr (pending : BitSeq)
  /-- MAGIC_CHK: the value read so far, and how many bits are still to read -/
  | magicChk (v : Word) (left : Nat)
deriving DecidableEq, Repr

/-- The engine's phase (R63). -/
inductive Phase where
  | idle
  | busy (cmdword : Word) (cont : Cont)
deriving DecidableEq, Repr

/-- The port capacities BI_DEPTH, YI_DEPTH, BO_DEPTH, YO_DEPTH (spec/00_scope.md R8). Log 4. -/
structure Depths where
  bi : Nat
  yi : Nat
  bo : Nat
  yo : Nat
deriving DecidableEq, Repr

/-- The host's steps (spec/00_scope.md R17; spec/20_memory.md R70, R74, R75; spec/70_reset_and_hazards.md R230).
A register access carries its width in bytes, so that an undefined one (R71) can be written down and refused. -/
inductive HostAction where
  | regRead (off : Offset) (bytes : Nat)
  | regWrite (off : Offset) (bytes : Nat) (v : Word)
  | pushBit (b : Bool)
  | pushBiEod
  | pushByte (b : Byte)
  | pushYiEod
  | popBit
  | popByte
  /-- the platform's reset input -/
  | hardReset
deriving DecidableEq, Repr

/-- One entry of the order of steps (spec/20_memory.md R82): a host step, or `k` engine steps one after another. Log 1. -/
inductive Turn where
  | host (a : HostAction)
  | engine (k : Nat)
deriving DecidableEq, Repr

/-- What a host step returned to the host. Log 2. -/
inductive Seen where
  /-- RegRead of the register at `off` returned `v` -/
  | value (off : Offset) (v : Word)
  /-- PopBit returned `b` -/
  | bit (b : Bool)
  /-- PopByte returned `b` -/
  | byte (b : Byte)
  /-- a push was accepted (spec/20_memory.md R74) -/
  | accepted
  /-- a push was not accepted, and had no effect (spec/20_memory.md R74) -/
  | notAccepted
  /-- a pop was not possible: the queue is empty (spec/20_memory.md R75) -/
  | nothing
deriving DecidableEq, Repr

/-- The registers of the window (R20), the reserved offsets left out. -/
inductive Reg where
  | id
  | ctrl
  | cmd
  | status
  | errcode
  | errinfo
  | magic
  | root
  | nodes
  | leaves
  | nodeSel
  | nodeInfo
  | nodeWlo
  | nodeWhi
  | codeSel
  | codeLen
  | codeBits (j : Fin 8)
  | biCount
  | boCount
  | yiCount
  | yoCount
  | freq (s : Byte)
deriving DecidableEq, Repr

/-- The error causes (spec/60_exceptions.md R201), code 0 (NONE) left out. -/
inductive ErrCode where
  | illegalCmd
  | noTree
  | format
  | truncated
  | badSymbol
  | treeOverflow
  | noCode
  | noEndCode
  | badRoot
deriving DecidableEq, Repr

/-- The state of the machine (R68). -/
structure State where
  phase : Phase
  irqEn : Bool
  cmdLast : Word
  done : Bool
  err : Bool
  treeValid : Bool
  codesValid : Bool
  endSeen : Bool
  ovr : Bool
  errcode : BitVec 4
  errinfo : BitVec 9
  magic : Word
  root : Idx
  nodes : Idx
  leaves : Idx
  nodeSel : Idx
  codeSel : Symbol
  arena : Arena
  code : CodeTable
  freq : FreqTable
  biCount : Word
  boCount : Word
  yiCount : Word
  yoCount : Word
  biBits : BitSeq
  biEod : Bool
  yiBytes : List Byte
  yiEod : Bool
  boBits : BitSeq
  yoBytes : List Byte
  /-- the model's own: the port capacities, which no step changes (log 4) -/
  depths : Depths
  /-- the model's own: the next steps of the order of steps (log 1) -/
  turns : List Turn
  /-- the model's own: how the order of steps goes on, again and again, once `turns` is used up (log 1) -/
  cycle : List Turn
  /-- the model's own: what the host has been told so far, oldest first (log 2) -/
  seen : List Seen
  /-- the model's own: the index of the next free value of R43 (log 7) -/
  draws : Nat
deriving DecidableEq, Repr

/-- Reasons the machine stops with a fault. HTE-1's own errors are no faults of the model: they end a command and leave the
engine idle (spec/60_exceptions.md R200, R205), a next state. -/
inductive Fault where
  /-- Raised by every meaning (through `engineRun`) when it is asked to run a command that the engine is not running: the
  engine is idle, or its continuation is another command's. Safe: HTE-1 has no such step, and no `step` raises it from a
  state that meets `ControlInv`. Log 11. -/
  | notRunning
deriving DecidableEq, Repr

/-- Reasons a step is refused. -/
inductive Refusal where
  /-- Raised by an arm of `exec` whose command has no meaning yet; no arm does. Safe. -/
  | notModelled (mnemonic : String)
  /-- Raised by a host step that reads or writes a register with a width other than 32 bits or at an offset that is not a
  multiple of 4: "a model refuses it: it has no meaning and no step" (spec/20_memory.md R71). Safe. Log 8. -/
  | undefinedAccess
deriving DecidableEq, Repr

/-- The port capacities of an unknown HTE-1 (spec/00_scope.md R8: OPEN, each at least 1). Log 4. -/
def Depths.unknown : Depths :=
  { bi := Config.biDepthLessOne + 1, yi := Config.yiDepthLessOne + 1,
    bo := Config.boDepthLessOne + 1, yo := Config.yoDepthLessOne + 1 }

/-- The state after power-on reset (R67) of an HTE-1 with port capacities `d`. -/
def State.powerOn (d : Depths) : State :=
  { phase := .idle, irqEn := false, cmdLast := 0, done := false, err := false, treeValid := false, codesValid := false,
    endSeen := false, ovr := false, errcode := 0, errinfo := 0, magic := Config.magicReset, root := 0, nodes := 0,
    leaves := 0, nodeSel := 0, codeSel := 0, arena := Vector.replicate Config.nodeCap Node.blank,
    code := Vector.replicate Config.nsym none, freq := Vector.replicate 256 0, biCount := 0, boCount := 0, yiCount := 0,
    yoCount := 0, biBits := [], biEod := false, yiBytes := [], yiEod := false, boBits := [], yoBytes := [],
    depths := d, turns := [], cycle := [], seen := [], draws := 0 }

/-- The machine right after reset (R67). -/
def State.reset : State := State.powerOn Depths.unknown

end Sys2Proof.Machine
end

