-- ==== Sys2Proof/Machine/Operands.lean ====
section
/-! DEFINITION. The operands a command can have (spec/30_encoding.md R91): the frequency registers, the arena, the code
table; and bit sequences (spec/00_scope.md R10). The ports are in Machine/Ops.lean. -/

namespace Sys2Proof.Machine

/-! ### Bit sequences -/

/-- `bits_N(v)`: the bits of `v`, most significant first (spec/00_scope.md R10; spec/20_memory.md R80). -/
def bitsMsb {n : Nat} (v : BitVec n) : BitSeq := (List.range n).map fun k => v.getMsbD k

/-- `v <- (v << 1) | b`, ReadBits's accumulation (spec/20_memory.md R77). -/
def shiftIn {n : Nat} (v : BitVec n) (b : Bool) : BitVec n := (v <<< 1) ||| (BitVec.ofBool b).setWidth n

/-- The number whose bit `k` is `p(k)` for `k < n`, absent bits 0. -/
def packLsb : Nat → BitSeq → Nat
  | 0, _ => 0
  | _ + 1, [] => 0
  | n + 1, b :: p => b.toNat + 2 * packLsb n p

/-- A register word from its bits, bit 0 first, absent bits 0. -/
def wordOfBits (p : BitSeq) : Word := BitVec.ofNat 32 (packLsb 32 p)

/-! ### The frequency registers -/

/-- `FREQ[s]` (R40). -/
def freqAt (f : FreqTable) (s : Byte) : Word := f[s.toNat]'(s.isLt)

/-- `FREQ[s] <- v` (R40). -/
def freqSet (f : FreqTable) (s : Byte) (v : Word) : FreqTable := f.set s.toNat v s.isLt

/-- The cleared frequency registers (spec/40_tree_build.md R120). -/
def freqZero : FreqTable := Vector.replicate 256 0

/-! ### The arena -/

/-- `node[i]` (R50). The ten bits of an index reach past the 513 entries; a tree of R51 holds no such index. -/
def arenaAt (a : Arena) (i : Idx) : Node := (a[i.toNat]?).getD Node.blank

/-- `node[i] <- n`. -/
def arenaSet (a : Arena) (i : Idx) (n : Node) : Arena := a.setIfInBounds i.toNat n

/-- `weight(i)` of an entry (spec/00_scope.md R15). -/
def Node.weight : Node → Weight
  | .leaf _ w => w
  | .internal _ _ w => w

/-- Writes a list of nodes into consecutive entries from `i` on. -/
def arenaStore (a : Arena) : Nat → List Node → Arena
  | _, [] => a
  | i, n :: ns => arenaStore (a.setIfInBounds i n) (i + 1) ns

/-! ### The code table -/

/-- `code[s]`; the nine bits of a symbol reach past 256, where there is no entry (R39). -/
def codeAt (t : CodeTable) (s : Symbol) : CodeEntry := (t[s.toNat]?).getD none

/-- `code[s] <- e`. -/
def codeSet (c : CodeTable) (s : Symbol) (e : CodeEntry) : CodeTable := c.setIfInBounds s.toNat e

/-- The code table with every entry invalid (R55). -/
def codeNone : CodeTable := Vector.replicate Config.nsym none

/-- A byte as a symbol, `zext_9(b)` (spec/30_encoding.md R101). -/
def symbolOfByte (b : Byte) : Symbol := b.setWidth 9

/-- The byte of a literal leaf, `sym[7:0]` (spec/30_encoding.md R101). -/
def byteOfSymbol (s : Symbol) : Byte := s.extractLsb' 0 8

/-- The code table of the tree below entry `i`, whose path is `p`, over the table `c`: `Visit(i, p)`
(spec/42_symbol_codec.md R160). The first argument bounds the path length. No path of a tree of R51 has 513 choices, so
`none` says that the arena below `i` is no tree and the spec's recursion never ends. Log 12. -/
def visit : Nat → Arena → Idx → BitSeq → CodeTable → Option CodeTable
  | 0, _, _, _, _ => none
  | k + 1, a, i, p, c =>
    match arenaAt a i with
    | .leaf s _ => some (codeSet c s (some p))
    | .internal l r _ =>
      match visit k a l (p ++ [false]) c with
      | some c' => visit k a r (p ++ [true]) c'
      | none => none

/-- The table `BuildCodes()` makes (spec/42_symbol_codec.md R160). -/
def codeTableOf (a : Arena) (root : Idx) : Option CodeTable := visit Config.nodeCap a root [] codeNone

end Sys2Proof.Machine
end

