-- ==== Sys2Proof/Machine/Flags.lean ====
section
/-! DEFINITION. The STATUS flags (spec/10_state.md R25 to R33, R66): how they are read, and every way they change. -/

namespace Sys2Proof.Machine

/-- STATUS.BUSY is `phase != IDLE` (R26, R68). -/
def State.busy (s : State) : Bool :=
  match s.phase with
  | .idle => false
  | .busy _ _ => true

/-- The interrupt output, `CTRL.IRQ_EN and STATUS.DONE` (R44). -/
def State.irq (s : State) : Bool := s.irqEn && s.done

/-- The STATUS word (R25). -/
def statusWord (s : State) : Word :=
  wordOfBits [s.busy, s.done, s.err, s.treeValid, s.codesValid, s.endSeen, s.ovr, s.biEod, s.yiEod]

/-- A write of 1 to STATUS.DONE (R27). -/
def clearDone (s : State) : State := { s with done := false }

/-- A write of 1 to STATUS.ERR: also ERRCODE and ERRINFO go to 0 (R28). -/
def clearErr (s : State) : State := { s with err := false, errcode := 0, errinfo := 0 }

/-- A write of 1 to STATUS.OVR (R32). -/
def clearOvr (s : State) : State := { s with ovr := false }

/-- A busy-protected write made while busy is dropped and sets OVR (R32, R42). -/
def dropWrite (s : State) : State := { s with ovr := true }

/-- A write to STATUS: bits 1, 2 and 6 are write-1-to-clear, every other bit is ignored (R25). -/
def writeStatus (v : Word) (s : State) : State :=
  let s1 := if v.getLsbD 1 then clearDone s else s
  let s2 := if v.getLsbD 2 then clearErr s1 else s1
  if v.getLsbD 6 then clearOvr s2 else s2

/-- The flags, error registers and counters at acceptance (spec/30_encoding.md R90). OVR, TREE_VALID and CODES_VALID keep
their values. -/
def acceptFlags (s : State) : State :=
  { s with done := false, err := false, endSeen := false, errcode := 0, errinfo := 0,
           biCount := 0, boCount := 0, yiCount := 0, yoCount := 0 }

/-- What the acceptance of a BUILD or a DESER discards (spec/40_tree_build.md R126; spec/41_tree_serdes.md R143). -/
def discardTree (s : State) : State :=
  { s with treeValid := false, codesValid := false, root := 0, nodes := 0, leaves := 0, code := codeNone }

end Sys2Proof.Machine
end

