-- ==== Sys2Proof/Machine/Ops.lean ====
section
/-! DEFINITION. The operations the commands and the host share: the stream ports (spec/20_memory.md R74 to R79), acceptance
(spec/30_encoding.md R90), completion and the error end (spec/60_exceptions.md R204, R205), reset
(spec/70_reset_and_hazards.md R230), and the run of engine steps (spec/20_memory.md R82). -/

namespace Sys2Proof.Machine

/-! ### The engine's side of the ports -/

/-- What an engine's read of an input port finds (spec/20_memory.md R76, R77). -/
inductive PortRead (α : Type) where
  /-- the queue is empty and has no end mark: the engine holds -/
  | hold
  /-- the end mark, which stays in place -/
  | eod
  /-- an item, and the state with it taken -/
  | item (x : α) (s : State)

/-- `ReadBit()` (spec/20_memory.md R77). -/
def readBit (s : State) : PortRead Bool :=
  match s.biBits with
  | b :: rest => .item b { s with biBits := rest, biCount := s.biCount + 1 }
  | [] => if s.biEod then .eod else .hold

/-- `ReadByte()` (spec/20_memory.md R79). -/
def readByte (s : State) : PortRead Byte :=
  match s.yiBytes with
  | b :: rest => .item b { s with yiBytes := rest, yiCount := s.yiCount + 1 }
  | [] => if s.yiEod then .eod else .hold

/-- `WriteBit(b)`; `none` when BO is full and the engine holds (spec/20_memory.md R76, R78). -/
def writeBit (b : Bool) (s : State) : Option State :=
  if s.boBits.length < s.depths.bo then some { s with boBits := s.boBits ++ [b], boCount := s.boCount + 1 } else none

/-- `WriteByte(v)`; `none` when YO is full and the engine holds (spec/20_memory.md R76, R79). -/
def writeByte (v : Byte) (s : State) : Option State :=
  if s.yoBytes.length < s.depths.yo then some { s with yoBytes := s.yoBytes ++ [v], yoCount := s.yoCount + 1 } else none

/-! ### Ending a command -/

/-- The number of an error cause in ERRCODE (spec/60_exceptions.md R201). -/
def ErrCode.number : ErrCode → BitVec 4
  | .illegalCmd => 1
  | .noTree => 2
  | .format => 3
  | .truncated => 4
  | .badSymbol => 5
  | .treeOverflow => 6
  | .noCode => 7
  | .noEndCode => 8
  | .badRoot => 9

/-- `complete()` (spec/60_exceptions.md R204). -/
def complete (s : State) : State := { s with phase := .idle, done := true }

/-- `raise Error(code, info)`: HTE-1's taking of an exception (spec/60_exceptions.md R205). There is no return from it: the
engine is idle and the next acceptance, or a write of 1 to STATUS.ERR (`clearErr`), clears what it wrote (R207). -/
def raiseError (e : ErrCode) (info : BitVec 9) (s : State) : State :=
  { s with phase := .idle, done := true, err := true, errcode := e.number, errinfo := info }

/-! ### Starting a command -/

/-- The acceptance effects of one command alone (spec/30_encoding.md R90): BUILD and DESER discard the tree. -/
def acceptEffect (i : Instr) (s : State) : State :=
  match i with
  | .build => discardTree s
  | .deser => discardTree s
  | .nop => s
  | .clrFreq => s
  | .ser => s
  | .codes => s
  | .enc => s
  | .dec => s
  | .magicWr => s
  | .magicChk => s

/-- `Accept(v)` (spec/30_encoding.md R90). An illegal word has no acceptance effects of its own (R92). Log 15. -/
def accept (v : Word) (s : State) : State :=
  let s1 := { acceptFlags s with cmdLast := v, phase := .busy v .start }
  match decode v with
  | .command i => acceptEffect i s1
  | .reservedBits => s1
  | .reservedOpcode => s1
  | .wrongLength => s1

/-! ### Reset -/

/-- Either reset (spec/70_reset_and_hazards.md R230): every piece of the spec's state to its value in spec/10_state.md R67.
The model's own fields stay: the port capacities, the order of steps, what the host was told, the free values used up. -/
def resetAll (s : State) : State :=
  { State.powerOn s.depths with turns := s.turns, cycle := s.cycle, seen := s.seen, draws := s.draws }

/-! ### Engine steps -/

/-- The engine's position moves to `c`. -/
def Phase.moveTo (c : Cont) : Phase → Phase
  | .idle => .idle
  | .busy w _ => .busy w c

/-- The engine goes on to `c` in its next step. -/
def goTo (c : Cont) (s : State) : State := { s with phase := s.phase.moveTo c }

/-- The continuations a command can have (R63). -/
def Cont.belongsTo : Cont → Instr → Bool
  | .start, _ => true
  | .ser _ _, .ser => true
  | .deser _ _ _ _, .deser => true
  | .enc _ _, .enc => true
  | .encByte _, .enc => true
  | .dec _, .dec => true
  | .magicWr _, .magicWr => true
  | .magicChk _ _, .magicChk => true
  | _, _ => false

/-- The engine is busy with a continuation of command `i`. -/
def Phase.runs (i : Instr) : Phase → Bool
  | .idle => false
  | .busy _ c => c.belongsTo i

/-- The order of the steps to come (spec/20_memory.md R82): `turns`, and when it is used up `cycle` and an engine step, anew
each time, so that a run may hold host steps without end, as in the hang of spec/60_exceptions.md R211, and the engine's turn
always comes again: the weak fairness of spec/70_reset_and_hazards.md R247 (log 1). -/
def State.order (s : State) : List Turn :=
  match s.turns with
  | [] => s.cycle ++ [.engine 1]
  | t :: ts => t :: ts

/-- How many engine steps the engine's turn holds (log 1); `exec` asked at the host's turn takes one. -/
def State.grant (s : State) : Nat :=
  match s.order with
  | .engine k :: _ => k
  | _ => 1

/-- `k` steps one after another. -/
def repeatStep : Nat → (State → State) → State → State
  | 0, _, s => s
  | k + 1, f, s => repeatStep k f (f s)

/-- The engine's turn with command `i`, whose engine step is `f`: as many engine steps as the order of steps grants. A step
that holds, and a step after the command has ended, changes nothing (spec/20_memory.md R76). -/
def engineRun (i : Instr) (f : State → State) (s : State) : Host.Outcome State Fault Refusal :=
  if s.phase.runs i then .next (repeatStep s.grant f s) else .fault .notRunning

/-- The part of an engine step of a command that touches no port: `f` in the step after acceptance, nothing otherwise. -/
def atStart (f : State → State) (s : State) : State :=
  match s.phase with
  | .busy _ .start => f s
  | _ => s

/-- Decoding's error: the word `w` is no command (spec/30_encoding.md R92). -/
def raiseIllegal (w : Word) (s : State) : State := raiseError .illegalCmd ((opField w).setWidth 9) s

/-- A command that needs a tree ends in NO_TREE without one, before anything else (spec/60_exceptions.md R201, R203). -/
def needTree (f : State → State) (s : State) : State := if s.treeValid then f s else raiseError .noTree 0 s

/-- `BuildCodes()` (spec/42_symbol_codec.md R160), then `f`. On an arena that is no tree it never ends: the engine stays
where it is (log 12). DESIGN CHOICE, unsafe: CODES_VALID, and with it STATUS, is set here, in the step that finishes
`BuildCodes()`, so that a read of STATUS in ENC's phase 2 shows it (spec/10_state.md R30, R43), where
spec/20_memory.md R83 and spec/60_exceptions.md R204 have a command's flags become visible at its end (log 16). -/
def withCodes (f : State → State) (s : State) : State :=
  match codeTableOf s.arena s.root with
  | some c => f { s with code := c, codesValid := true }
  | none => s

end Sys2Proof.Machine
end

