-- ==== Sys2Proof/Machine/Bus.lean ====
section
/-! DEFINITION. The host's steps: the register window (spec/10_state.md R20 to R44; spec/20_memory.md R70 to R73) and the
host's side of the stream ports (spec/20_memory.md R74, R75). -/

namespace Sys2Proof.Machine

/-! ### The register map (R20) -/

/-- The byte offset of a register (R20). -/
def Reg.offset : Reg → Offset
  | .id => 0x000
  | .ctrl => 0x004
  | .cmd => 0x008
  | .status => 0x00C
  | .errcode => 0x010
  | .errinfo => 0x014
  | .magic => 0x018
  | .root => 0x01C
  | .nodes => 0x020
  | .leaves => 0x024
  | .nodeSel => 0x028
  | .nodeInfo => 0x02C
  | .nodeWlo => 0x030
  | .nodeWhi => 0x034
  | .codeSel => 0x038
  | .codeLen => 0x03C
  | .codeBits j => BitVec.ofNat 12 (0x040 + 4 * j.val)
  | .biCount => 0x060
  | .boCount => 0x064
  | .yiCount => 0x068
  | .yoCount => 0x06C
  | .freq b => BitVec.ofNat 12 (0x400 + 4 * b.toNat)

/-- The registers below 0x070, by word number. -/
def lowReg : Nat → Option Reg
  | 0 => some .id
  | 1 => some .ctrl
  | 2 => some .cmd
  | 3 => some .status
  | 4 => some .errcode
  | 5 => some .errinfo
  | 6 => some .magic
  | 7 => some .root
  | 8 => some .nodes
  | 9 => some .leaves
  | 10 => some .nodeSel
  | 11 => some .nodeInfo
  | 12 => some .nodeWlo
  | 13 => some .nodeWhi
  | 14 => some .codeSel
  | 15 => some .codeLen
  | 16 => some (.codeBits 0)
  | 17 => some (.codeBits 1)
  | 18 => some (.codeBits 2)
  | 19 => some (.codeBits 3)
  | 20 => some (.codeBits 4)
  | 21 => some (.codeBits 5)
  | 22 => some (.codeBits 6)
  | 23 => some (.codeBits 7)
  | 24 => some .biCount
  | 25 => some .boCount
  | 26 => some .yiCount
  | 27 => some .yoCount
  | _ => none

/-- The register at a word-aligned offset; `none` at a reserved one (R20, R21). -/
def regAt (off : Offset) : Option Reg :=
  if off.toNat < 0x400 then lowReg (off.toNat / 4)
  else if off.toNat < 0x800 then some (.freq (BitVec.ofNat 8 ((off.toNat - 0x400) / 4)))
  else none

/-- A register access is defined when it is 32 bits wide and its offset is a multiple of 4 (spec/20_memory.md R71). -/
def accessDefined (off : Offset) (bytes : Nat) : Bool := bytes == 4 && off.toNat % 4 == 0

/-- The offset in the window of an address of the platform, whose window stands at `HTE_BASE`
(spec/20_memory.md R88). Log 14. -/
def windowOffset (addr : Nat) : Option Offset :=
  if Config.hteBase ≤ addr ∧ addr < Config.hteBase + 4096 then some (BitVec.ofNat 12 (addr - Config.hteBase)) else none

/-! ### Reads -/

/-- The arena entry that the node view shows (R38). -/
def nodeView (s : State) : Option Node :=
  if s.nodeSel.toNat < s.nodes.toNat then some (arenaAt s.arena s.nodeSel) else none

/-- NODE_INFO (R38). -/
def nodeInfo (s : State) : Word :=
  match nodeView s with
  | some (.leaf sym _) => sym.setWidth 32
  | some (.internal l r _) => (1#32 <<< 31) ||| (r.setWidth 32 <<< 16) ||| l.setWidth 32
  | none => 0

/-- The weight the node view shows (R38). -/
def nodeViewWeight (s : State) : Weight :=
  match nodeView s with
  | some n => n.weight
  | none => 0

/-- CODE_LEN (R39). -/
def codeLen (s : State) : Word :=
  match codeAt s.code s.codeSel with
  | some p => (1#32 <<< 31) ||| ((BitVec.ofNat 9 p.length).setWidth 32)
  | none => 0

/-- CODE_BITSj (R39): bit `i` is bit `32 j + i` of the codeword. -/
def codeBits (j : Nat) (s : State) : Word :=
  match codeAt s.code s.codeSel with
  | some p => wordOfBits (p.drop (32 * j))
  | none => 0

/-- The exact value of a register (R22 to R41). -/
def readReg (r : Reg) (s : State) : Word :=
  match r with
  | .id => Config.idValue
  | .ctrl => wordOfBits [false, false, false, false, false, false, false, false, s.irqEn]
  | .cmd => s.cmdLast
  | .status => statusWord s
  | .errcode => s.errcode.setWidth 32
  | .errinfo => s.errinfo.setWidth 32
  | .magic => s.magic
  | .root => s.root.setWidth 32
  | .nodes => s.nodes.setWidth 32
  | .leaves => s.leaves.setWidth 32
  | .nodeSel => s.nodeSel.setWidth 32
  | .nodeInfo => nodeInfo s
  | .nodeWlo => (nodeViewWeight s).extractLsb' 0 32
  | .nodeWhi => ((nodeViewWeight s).extractLsb' 32 8).setWidth 32
  | .codeSel => s.codeSel.setWidth 32
  | .codeLen => codeLen s
  | .codeBits j => codeBits j.val s
  | .biCount => s.biCount
  | .boCount => s.boCount
  | .yiCount => s.yiCount
  | .yoCount => s.yoCount
  | .freq b => freqAt s.freq b

/-- The registers whose reads are unspecified while the engine is busy (R43). -/
def Reg.unspecifiedWhileBusy : Reg → Bool
  | .root => true
  | .nodes => true
  | .leaves => true
  | .nodeInfo => true
  | .nodeWlo => true
  | .nodeWhi => true
  | .codeLen => true
  | .codeBits _ => true
  | .biCount => true
  | .boCount => true
  | .yiCount => true
  | .yoCount => true
  | .id => false
  | .ctrl => false
  | .cmd => false
  | .status => false
  | .errcode => false
  | .errinfo => false
  | .magic => false
  | .nodeSel => false
  | .codeSel => false
  | .freq _ => false

/-- The host is told something (log 2). -/
def inform (x : Seen) (s : State) : State := { s with seen := s.seen ++ [x] }

/-- RegRead of a defined access (R43, R73): the exact value, or while busy a fresh free value for the registers of R43; a
reserved offset reads 0 (R21). No read changes anything else. -/
def regRead (off : Offset) (s : State) : State :=
  match regAt off with
  | none => inform (.value off 0) s
  | some r =>
    if s.busy && r.unspecifiedWhileBusy then
      { inform (.value off (Config.unspecifiedRead s.draws)) s with draws := s.draws + 1 }
    else inform (.value off (readReg r s)) s

/-! ### Writes -/

/-- CTRL.BI_CLR (R23, R60). -/
def clearBi (s : State) : State := { s with biBits := [], biEod := false }

/-- CTRL.YI_CLR (R23, R61). -/
def clearYi (s : State) : State := { s with yiBytes := [], yiEod := false }

/-- A busy-protected write (R42). -/
def protectedWrite (f : State → State) (s : State) : State := if s.busy then dropWrite s else f s

/-- A write to CTRL (R23, R42). -/
def writeCtrl (v : Word) (s : State) : State :=
  if v.getLsbD 0 then resetAll s
  else
    let s1 := { s with irqEn := v.getLsbD 8 }
    let s2 := if v.getLsbD 1 then protectedWrite clearBi s1 else s1
    if v.getLsbD 2 then protectedWrite clearYi s2 else s2

/-- A write to a register (R20 to R42); a write to a read-only one has no effect (R21). -/
def writeReg (r : Reg) (v : Word) (s : State) : State :=
  match r with
  | .ctrl => writeCtrl v s
  | .cmd => protectedWrite (accept v) s
  | .status => writeStatus v s
  | .magic => protectedWrite (fun s => { s with magic := v }) s
  | .nodeSel => { s with nodeSel := v.extractLsb' 0 10 }
  | .codeSel => { s with codeSel := v.extractLsb' 0 9 }
  | .freq b => protectedWrite (fun s => { s with freq := freqSet s.freq b v }) s
  | .id => s
  | .errcode => s
  | .errinfo => s
  | .root => s
  | .nodes => s
  | .leaves => s
  | .nodeInfo => s
  | .nodeWlo => s
  | .nodeWhi => s
  | .codeLen => s
  | .codeBits _ => s
  | .biCount => s
  | .boCount => s
  | .yiCount => s
  | .yoCount => s

/-- RegWrite of a defined access; a write to a reserved offset has no effect (R21). -/
def regWrite (off : Offset) (v : Word) (s : State) : State :=
  match regAt off with
  | none => s
  | some r => writeReg r v s

/-! ### The host's side of the ports -/

/-- PushBit (spec/20_memory.md R74). -/
def pushBit (b : Bool) (s : State) : State :=
  if s.biEod = false ∧ s.biBits.length < s.depths.bi then inform .accepted { s with biBits := s.biBits ++ [b] }
  else inform .notAccepted s

/-- PushEOD on BI (spec/20_memory.md R74). -/
def pushBiEod (s : State) : State :=
  if s.biEod = false then inform .accepted { s with biEod := true } else inform .notAccepted s

/-- PushByte (spec/20_memory.md R74). -/
def pushByte (b : Byte) (s : State) : State :=
  if s.yiEod = false ∧ s.yiBytes.length < s.depths.yi then inform .accepted { s with yiBytes := s.yiBytes ++ [b] }
  else inform .notAccepted s

/-- PushEOD on YI (spec/20_memory.md R74). -/
def pushYiEod (s : State) : State :=
  if s.yiEod = false then inform .accepted { s with yiEod := true } else inform .notAccepted s

/-- PopBit (spec/20_memory.md R75). -/
def popBit (s : State) : State :=
  match s.boBits with
  | b :: rest => inform (.bit b) { s with boBits := rest }
  | [] => inform .nothing s

/-- PopByte (spec/20_memory.md R75). -/
def popByte (s : State) : State :=
  match s.yoBytes with
  | b :: rest => inform (.byte b) { s with yoBytes := rest }
  | [] => inform .nothing s

/-! ### One host step -/

/-- A host step: one indivisible step (spec/20_memory.md R73, R82). An undefined access is refused (R71). -/
def hostStep (a : HostAction) (s : State) : Host.Outcome State Fault Refusal :=
  match a with
  | .regRead off bytes => if accessDefined off bytes then .next (regRead off s) else .refused .undefinedAccess
  | .regWrite off bytes v => if accessDefined off bytes then .next (regWrite off v s) else .refused .undefinedAccess
  | .pushBit b => .next (pushBit b s)
  | .pushBiEod => .next (pushBiEod s)
  | .pushByte b => .next (pushByte b s)
  | .pushYiEod => .next (pushYiEod s)
  | .popBit => .next (popBit s)
  | .popByte => .next (popByte s)
  | .hardReset => .next (resetAll s)

end Sys2Proof.Machine
end

