-- ==== Sys2Proof/Machine/Build.lean ====
section
/-! DEFINITION. CLR_FREQ and BUILD (spec/40_tree_build.md). -/

namespace Sys2Proof.Machine

/-- CLR_FREQ's engine step (R120). -/
def clrFreqStep (s : State) : State := atStart (fun s => complete { s with freq := freqZero }) s

/-- CLR_FREQ (R120). -/
def execClrFreq (s : State) : Host.Outcome State Fault Refusal := engineRun .clrFreq clrFreqStep s

/-- An entry of BUILD's working priority queue (spec/10_state.md R64). -/
structure QEntry where
  weight : Weight
  idx : Idx
deriving DecidableEq, Repr

/-- The priority order: `(weight(x), x) < (weight(y), y)`, unsigned (R124). -/
def QEntry.precedes (x y : QEntry) : Bool := decide (x.weight < y.weight) || (x.weight == y.weight && decide (x.idx < y.idx))

/-- Insertion into the queue, kept in the order of R124. -/
def queueInsert (e : QEntry) : List QEntry → List QEntry
  | [] => [e]
  | x :: q => if e.precedes x then e :: x :: q else x :: queueInsert e q

/-- The leaf set in ascending symbol order, END last (R121, R122), from the counts of the symbols `sym`, `sym + 1`, … -/
def leavesFrom : Nat → List Word → List Node
  | _, [] => [.leaf Config.endSymbol 1]
  | sym, c :: cs =>
    if c = 0 then leavesFrom (sym + 1) cs
    else .leaf (BitVec.ofNat 9 sym) (c.setWidth 40) :: leavesFrom (sym + 1) cs

/-- The queue of a list of nodes that stand in the arena from entry `i` on. -/
def queueFrom : Nat → List Node → List QEntry
  | _, [] => []
  | i, n :: ns => queueInsert { weight := n.weight, idx := BitVec.ofNat 10 i } (queueFrom (i + 1) ns)

/-- The merge loop (R123 to R125): `nodes` are the entries made so far. The first argument bounds the merges; each removes one
node from the queue, so its initial length is enough. -/
def mergeLoop : Nat → List Node → List QEntry → List Node × List QEntry
  | k + 1, nodes, a :: b :: q =>
    mergeLoop k (nodes ++ [.internal a.idx b.idx (a.weight + b.weight)])
      (queueInsert { weight := a.weight + b.weight, idx := BitVec.ofNat 10 nodes.length } q)
  | _, nodes, q => (nodes, q)

/-- The leaves BUILD makes from the frequency registers (R121, R122). -/
def buildLeaves (f : FreqTable) : List Node := leavesFrom 0 f.toList

/-- All of BUILD's merges (R123): the entries of the tree in creation order, and what is left in the queue. -/
def buildTree (f : FreqTable) : List Node × List QEntry :=
  mergeLoop (buildLeaves f).length (buildLeaves f) (queueFrom 0 (buildLeaves f))

/-- "the only element of Q" (R126). -/
def rootOf (q : List QEntry) : Idx :=
  match q with
  | [] => 0
  | e :: _ => e.idx

/-- What BUILD writes (R126): the arena, ROOT, NODES, LEAVES and TREE_VALID. -/
def storeTree (s : State) : State :=
  { s with arena := arenaStore s.arena 0 (buildTree s.freq).1,
           root := rootOf (buildTree s.freq).2,
           nodes := BitVec.ofNat 10 (buildTree s.freq).1.length,
           leaves := BitVec.ofNat 10 (buildLeaves s.freq).length,
           treeValid := true }

/-- BUILD's engine step (R126): "BUILD reads FREQ in the step it runs" (spec/70_reset_and_hazards.md R244). -/
def buildStep (s : State) : State := atStart (fun s => complete (storeTree s)) s

/-- BUILD (R126). Its acceptance effects are `acceptEffect`'s. -/
def execBuild (s : State) : Host.Outcome State Fault Refusal := engineRun .build buildStep s

end Sys2Proof.Machine
end

