-- ==== Sys2Proof/Machine/Codec.lean ====
section
/-! DEFINITION. CODES, ENC and DEC (spec/42_symbol_codec.md). -/

namespace Sys2Proof.Machine

/-! ### CODES -/

/-- CODES's engine step (R162). -/
def codesStep (s : State) : State := atStart (needTree (withCodes complete)) s

/-- CODES (R162). -/
def execCodes (s : State) : Host.Outcome State Fault Refusal := engineRun .codes codesStep s

/-! ### ENC -/

/-- ENC after BuildCodes (R166): without an END codeword it ends in NO_END_CODE, before any transfer (R169). -/
def encBegin (s : State) : State :=
  match codeAt s.code Config.endSymbol with
  | some _ => goTo (.enc [] false) s
  | none => raiseError .noEndCode 0 s

/-- ENC between two codewords (R166): reads the next byte, or goes on to END's codeword once YI is at its end mark. The byte's
transfer is a step of its own (spec/20_memory.md R82). -/
def encNext (s : State) : State :=
  match readByte s with
  | .item x s' => goTo (.encByte x) s'
  | .eod => goTo (.enc ((codeAt s.code Config.endSymbol).getD []) true) s
  | .hold => s

/-- ENC with the byte `x` read (R166): its codeword, or the end in NO_CODE (R168). -/
def encLookup (x : Byte) (s : State) : State :=
  match codeAt s.code (symbolOfByte x) with
  | some p => goTo (.enc p false) s
  | none => raiseError .noCode (symbolOfByte x) s

/-- ENC's engine step (R166). -/
def encStep (s : State) : State :=
  match s.phase with
  | .busy _ .start => needTree (withCodes encBegin) s
  | .busy _ (.enc (b :: pending) last) =>
    match writeBit b s with
    | some s' => goTo (.enc pending last) s'
    | none => s
  | .busy _ (.enc [] false) => encNext s
  | .busy _ (.enc [] true) => complete s
  | .busy _ (.encByte x) => encLookup x s
  | _ => s

/-- ENC (R166). -/
def execEnc (s : State) : Host.Outcome State Fault Refusal := engineRun .enc encStep s

/-! ### DEC -/

/-- DEC's stop at the END leaf (R177). -/
def decEnd (s : State) : State := complete { s with endSeen := true }

/-- DEC's first step (R175, R176): a leaf root is dealt with before any bit is read. -/
def decBegin (s : State) : State :=
  match arenaAt s.arena s.root with
  | .leaf sym _ => if sym = Config.endSymbol then decEnd s else raiseError .badRoot sym s
  | .internal _ _ _ => goTo (.dec s.root) s

/-- DEC at entry `i` of its walk (R175): one bit at an internal node, one byte at a literal leaf, the end at END. An end mark
is no error (R178). -/
def decWalk (i : Idx) (s : State) : State :=
  match arenaAt s.arena i with
  | .internal l r _ =>
    match readBit s with
    | .item false s' => goTo (.dec l) s'
    | .item true s' => goTo (.dec r) s'
    | .eod => complete s
    | .hold => s
  | .leaf sym _ =>
    if sym = Config.endSymbol then decEnd s
    else match writeByte (byteOfSymbol sym) s with
      | some s' => goTo (.dec s.root) s'
      | none => s

/-- DEC's engine step (R175). -/
def decStep (s : State) : State :=
  match s.phase with
  | .busy _ .start => needTree decBegin s
  | .busy _ (.dec i) => decWalk i s
  | _ => s

/-- DEC (R175). -/
def execDec (s : State) : Host.Outcome State Fault Refusal := engineRun .dec decStep s

end Sys2Proof.Machine
end

