-- ==== Sys2Proof/Machine/Control.lean ====
section
/-! DEFINITION. NOP, MAGIC_WR and MAGIC_CHK (spec/43_container_control.md). -/

namespace Sys2Proof.Machine

/-- NOP's engine step (R190). -/
def nopStep (s : State) : State := atStart complete s

/-- NOP (R190). -/
def execNop (s : State) : Host.Outcome State Fault Refusal := engineRun .nop nopStep s

/-- MAGIC_WR's engine step (R192): `WriteBits(MAGIC, 32)`, most significant bit first, then the end. -/
def magicWrStep (s : State) : State :=
  match s.phase with
  | .busy _ .start => goTo (.magicWr (bitsMsb s.magic)) s
  | .busy _ (.magicWr []) => complete s
  | .busy _ (.magicWr (b :: rest)) =>
    match writeBit b s with
    | some s' => goTo (.magicWr rest) s'
    | none => s
  | _ => s

/-- MAGIC_WR (R192). -/
def execMagicWr (s : State) : Host.Outcome State Fault Refusal := engineRun .magicWr magicWrStep s

/-- MAGIC_CHK's engine step (R194): `ReadBits(32)`, most significant bit first, then the comparison of all 32 bits; an end
mark before 32 bits is a FORMAT error too (R195). -/
def magicChkStep (s : State) : State :=
  match s.phase with
  | .busy _ .start => goTo (.magicChk 0 32) s
  | .busy _ (.magicChk v 0) => if v = s.magic then complete s else raiseError .format 0 s
  | .busy _ (.magicChk v (k + 1)) =>
    match readBit s with
    | .item b s' => goTo (.magicChk (shiftIn v b) k) s'
    | .eod => raiseError .format 0 s
    | .hold => s
  | _ => s

/-- MAGIC_CHK (R194). -/
def execMagicChk (s : State) : Host.Outcome State Fault Refusal := engineRun .magicChk magicChkStep s

end Sys2Proof.Machine
end

