-- ==== Sys2Proof/Machine/TreeSerdes.lean ====
section
/-! DEFINITION. SER and DESER (spec/41_tree_serdes.md), over the stream format of spec/30_encoding.md R96. -/

namespace Sys2Proof.Machine

/-! ### SER -/

/-- What SER writes for one entry before its subtrees (R150): the flag 0 and the 9-bit symbol, or the flag 1. -/
def nodeToken : Node → BitSeq
  | .leaf sym _ => false :: bitsMsb sym
  | .internal _ _ _ => [true]

/-- The subtrees SER visits after an entry, left first (R150). -/
def nodeChildren : Node → List Idx
  | .leaf _ _ => []
  | .internal l r _ => [l, r]

/-- SER's engine step (R150). -/
def serStep (s : State) : State :=
  match s.phase with
  | .busy _ .start => needTree (fun s => goTo (.ser [] [s.root]) s) s
  | .busy _ (.ser (b :: pending) stack) =>
    match writeBit b s with
    | some s' => goTo (.ser pending stack) s'
    | none => s
  | .busy _ (.ser [] (i :: stack)) =>
    goTo (.ser (nodeToken (arenaAt s.arena i)) (nodeChildren (arenaAt s.arena i) ++ stack)) s
  | .busy _ (.ser [] []) => complete s
  | _ => s

/-- SER (R150). -/
def execSer (s : State) : Host.Outcome State Fault Refusal := engineRun .ser serStep s

/-! ### DESER -/

/-- `Fail(code, info)` (R143, R147). -/
def deserFail (e : ErrCode) (info : BitVec 9) (s : State) : State :=
  raiseError e info { s with root := 0, nodes := 0, leaves := 0 }

/-- The end of a successful DESER (R143). -/
def deserEnd (r n lv : Idx) (s : State) : State :=
  complete { s with root := r, nodes := n, leaves := lv, treeValid := true }

/-- DESER at the entry of ReadNode: the capacity check, then the flag bit (R141, R142, R146). -/
def deserFlag (n lv : Idx) (stack : List DeserFrame) (s : State) : State :=
  if n = 513 then deserFail .treeOverflow 0 s
  else match readBit s with
    | .item false s' => goTo (.deser (n + 1) lv (.field n 0 9) stack) s'
    | .item true s' => goTo (.deser (n + 1) lv .flag (.inLeft n :: stack)) s'
    | .eod => deserFail .truncated 0 s
    | .hold => s

/-- DESER inside a leaf's 9-bit field, `k + 1` bits still to read (R142). -/
def deserField (n lv i : Idx) (v : Symbol) (k : Nat) (stack : List DeserFrame) (s : State) : State :=
  match readBit s with
  | .item b s' => goTo (.deser n lv (.field i (shiftIn v b) k) stack) s'
  | .eod => deserFail .truncated 0 s
  | .hold => s

/-- DESER after all 9 bits of a leaf (R145): the symbol range, then `Leaf(v, 0)`. -/
def deserLeaf (n lv i : Idx) (v : Symbol) (stack : List DeserFrame) (s : State) : State :=
  if Config.endSymbol < v then deserFail .badSymbol v s
  else goTo (.deser n (lv + 1) (.ret i) stack) { s with arena := arenaSet s.arena i (.leaf v 0) }

/-- DESER when ReadNode returns `i`: to the right subtree, or the parent is complete, or the whole tree is (R143). -/
def deserReturn (n lv i : Idx) (stack : List DeserFrame) (s : State) : State :=
  match stack with
  | [] => deserEnd i n lv s
  | .inLeft p :: rest => goTo (.deser n lv .flag (.inRight p i :: rest)) s
  | .inRight p l :: rest => goTo (.deser n lv (.ret p) rest) { s with arena := arenaSet s.arena p (.internal l i 0) }

/-- DESER's engine step (R143). -/
def deserStep (s : State) : State :=
  match s.phase with
  | .busy _ .start => goTo (.deser 0 0 .flag []) s
  | .busy _ (.deser n lv .flag stack) => deserFlag n lv stack s
  | .busy _ (.deser n lv (.field i v 0) stack) => deserLeaf n lv i v stack s
  | .busy _ (.deser n lv (.field i v (k + 1)) stack) => deserField n lv i v k stack s
  | .busy _ (.deser n lv (.ret i) stack) => deserReturn n lv i stack s
  | _ => s

/-- DESER (R143). Its acceptance effects are `acceptEffect`'s. -/
def execDeser (s : State) : Host.Outcome State Fault Refusal := engineRun .deser deserStep s

end Sys2Proof.Machine
end

