-- ==== Sys2Proof/Machine/Dispatch.lean ====
section
/-! DEFINITION. The engine's turn with a command: one arm per constructor of Instr. -/

namespace Sys2Proof.Machine

def exec (i : Instr) (s : State) : Host.Outcome State Fault Refusal :=
  match i with
  | .nop => Sys2Proof.Machine.execNop s
  | .clrFreq => Sys2Proof.Machine.execClrFreq s
  | .build => Sys2Proof.Machine.execBuild s
  | .ser => Sys2Proof.Machine.execSer s
  | .deser => Sys2Proof.Machine.execDeser s
  | .codes => Sys2Proof.Machine.execCodes s
  | .enc => Sys2Proof.Machine.execEnc s
  | .dec => Sys2Proof.Machine.execDec s
  | .magicWr => Sys2Proof.Machine.execMagicWr s
  | .magicChk => Sys2Proof.Machine.execMagicChk s

end Sys2Proof.Machine
end

