-- ==== Sys2Proof/Machine/Engine.lean ====
section
/-! DEFINITION. The engine's turn (spec/20_memory.md R82): decode the accepted word and run it (spec/30_encoding.md R92). -/

namespace Sys2Proof.Machine

/-- The head of the order of steps has been taken. -/
def dropTurn (s : State) : State := { s with turns := s.order.tail }

/-- `f` on the next state of an outcome. -/
def mapNext (f : State → State) : Host.Outcome State Fault Refusal → Host.Outcome State Fault Refusal
  | .next s => .next (f s)
  | .fault r => .fault r
  | .refused r => .refused r

/-- The engine step of a word that is no command (spec/30_encoding.md R92). -/
def illegalStep (w : Word) (s : State) : State := atStart (raiseIllegal w) s

/-- The engine's turn with the accepted word `w`. -/
def runWord (w : Word) (s : State) : Host.Outcome State Fault Refusal :=
  match decode w with
  | .command i => exec i s
  | .reservedBits => .next (repeatStep s.grant (illegalStep w) s)
  | .reservedOpcode => .next (repeatStep s.grant (illegalStep w) s)
  | .wrongLength => .next (repeatStep s.grant (illegalStep w) s)

/-- The engine's turn: an idle engine does nothing. -/
def engineTurn (s : State) : Host.Outcome State Fault Refusal :=
  match s.phase with
  | .idle => .next (dropTurn s)
  | .busy w _ => mapNext dropTurn (runWord w s)

/-- The state in which the engine has just accepted the word `w` and takes the next step: how a command comes to run
(spec/30_encoding.md R90), whatever the phase was. Log 10. -/
def loadCommand (w : Word) (s : State) : State := { accept w s with turns := .engine 1 :: s.turns }

end Sys2Proof.Machine
end

