-- ==== Sys2Proof/Machine/Step.lean ====
section
/-! DEFINITION. One step of the machine: the next step of the one total order of host and engine steps
(spec/20_memory.md R82), which the fields `turns` and `cycle` hold (log 1). -/

namespace Sys2Proof.Machine

/-- One step: the host's when the order of steps says so, else the engine's. -/
def step (s : State) : Host.Outcome State Fault Refusal :=
  match s.order with
  | .host a :: rest => hostStep a { s with turns := rest }
  | _ => engineTurn s

/-- `s` with the command word `w` accepted and the engine next to step (log 10). -/
def State.withFetchWord (s : State) (nbits w : Nat) : State := loadCommand (tableWord nbits w) s

end Sys2Proof.Machine
end

