-- ==== Sys2Proof/Machine/HostProgram.lean ====
section
/-! DEFINITION. The host's program statements and pseudo-instructions (spec/30_encoding.md R102, R103), as the host steps they
stand for. -/

namespace Sys2Proof.Machine

/-- A statement of R102; labels and comments have no meaning of their own. -/
inductive HostStmt where
  | wr (r : Reg) (v : Word)
  | wrOff (off : Offset) (v : Word)
  | rd (r : Reg)
  | rdOff (off : Offset)
  | pushB (p : BitSeq)
  | pushBEod
  | pushY (p : List Byte)
  | pushYEod
  | popB (n : Nat)
  | popY (n : Nat)
deriving DecidableEq, Repr

/-- The host steps of a statement, in order (R102). -/
def HostStmt.actions : HostStmt → List HostAction
  | .wr r v => [.regWrite r.offset 4 v]
  | .wrOff off v => [.regWrite off 4 v]
  | .rd r => [.regRead r.offset 4]
  | .rdOff off => [.regRead off 4]
  | .pushB p => p.map .pushBit
  | .pushBEod => [.pushBiEod]
  | .pushY p => p.map .pushByte
  | .pushYEod => [.pushYiEod]
  | .popB n => List.replicate n .popBit
  | .popY n => List.replicate n .popByte

/-- A statement as turns in the order of steps. -/
def HostStmt.turns (t : HostStmt) : List Turn := t.actions.map .host

/-- The command pseudo-instructions: `WR CMD, <word of R93>` (R103). -/
def issue (i : Instr) : HostStmt := .wr .cmd (encode i)

/-- `SETF s, n` (R103). -/
def setF (s : Byte) (n : Word) : HostStmt := .wr (.freq s) n

/-- `RESET` (R103). -/
def resetStmt : HostStmt := .wr .ctrl 0x1

/-- `CLRBI` (R103). -/
def clrBi : HostStmt := .wr .ctrl 0x2

/-- `CLRYI` (R103). -/
def clrYi : HostStmt := .wr .ctrl 0x4

/-- `ACK` (R103). -/
def ack : HostStmt := .wr .status 0x46

/-- `WAIT` (R103): `n` polls of STATUS, `k` engine steps before each. The loop's number of rounds is the run's, so it is an
argument: the order of steps is data (log 1). -/
def waitTurns (k n : Nat) : List Turn := (List.replicate n [.engine k, .host (.regRead Reg.status.offset 4)]).flatten

/-- `RUN <cmd>` (R103), with one round of `WAIT` after `k` engine steps. -/
def runTurns (i : Instr) (k : Nat) : List Turn := (issue i).turns ++ waitTurns k 1

end Sys2Proof.Machine
end

