-- ==== Sys2Proof/Machine/Tree.lean ====
section
/-! DEFINITION. Trees as the spec's prose speaks of them, apart from any arena: the grammar of the tree stream
(spec/30_encoding.md R96), paths and codewords (spec/42_symbol_codec.md R160), the payload (spec/30_encoding.md R99), the
decoder's walk (spec/42_symbol_codec.md R175), and what it means that an arena holds a tree (spec/10_state.md R51).
The statements speak of these; no step of the machine uses them. -/

namespace Sys2Proof.Machine

/-- A tree of the grammar of R96. -/
inductive Shape where
  | leaf (sym : Symbol)
  | node (l r : Shape)
deriving DecidableEq, Repr

/-- The serialized tree (R96). -/
def Shape.bits : Shape → BitSeq
  | .leaf sym => false :: bitsMsb sym
  | .node l r => true :: (l.bits ++ r.bits)

/-- The number of nodes. -/
def Shape.count : Shape → Nat
  | .leaf _ => 1
  | .node l r => 1 + l.count + r.count

/-- The leaves' symbols in preorder. -/
def Shape.symbols : Shape → List Symbol
  | .leaf sym => [sym]
  | .node l r => l.symbols ++ r.symbols

/-- The number of leaves. -/
def Shape.leafCount (t : Shape) : Nat := t.symbols.length

/-- The longest path. -/
def Shape.depth : Shape → Nat
  | .leaf _ => 0
  | .node l r => 1 + max l.depth r.depth

/-- The leaves in preorder, each with its path; `p` is the path to the tree's own root (spec/00_scope.md R15). -/
def Shape.paths (p : BitSeq) : Shape → List (Symbol × BitSeq)
  | .leaf sym => [(sym, p)]
  | .node l r => l.paths (p ++ [false]) ++ r.paths (p ++ [true])

/-- The codeword of a symbol: the path to the LAST leaf in preorder that holds it, if one does
(spec/10_state.md R56; spec/42_symbol_codec.md R160). -/
def Shape.codeOf (t : Shape) (sym : Symbol) : CodeEntry :=
  (((t.paths []).filter fun e => e.1 == sym).getLast?).map Prod.snd

/-- The code table of a tree. -/
def Shape.codeTable (t : Shape) : CodeTable := Vector.ofFn fun k => t.codeOf (BitVec.ofNat 9 k.val)

/-- The codewords of a byte sequence, in order; `none` when a byte has none (spec/42_symbol_codec.md R167). -/
def Shape.encode (t : Shape) : List Byte → Option BitSeq
  | [] => some []
  | b :: bs =>
    match t.codeOf (symbolOfByte b), t.encode bs with
    | some p, some q => some (p ++ q)
    | _, _ => none

/-- What a decoder gets from a bit sequence: the bytes, whether it stopped at END, and the bits it did not read. -/
structure Decoding where
  bytes : List Byte
  atEnd : Bool
  rest : BitSeq
deriving DecidableEq, Repr

/-- One more byte in front. -/
def Decoding.cons (b : Byte) (d : Decoding) : Decoding := { d with bytes := b :: d.bytes }

/-- The decoder's walk (spec/42_symbol_codec.md R175, R177, R178) of the tree `t`, standing at its subtree `cur`. -/
def Shape.decodeFrom (t : Shape) : Shape → BitSeq → Decoding
  | _, [] => { bytes := [], atEnd := false, rest := [] }
  | .leaf _, b :: bits => { bytes := [], atEnd := false, rest := b :: bits }
  | .node l r, b :: bits =>
    match (if b then r else l) with
    | .leaf sym =>
      if sym = Config.endSymbol then { bytes := [], atEnd := true, rest := bits }
      else (t.decodeFrom t bits).cons (byteOfSymbol sym)
    | .node l' r' => t.decodeFrom (.node l' r') bits

/-- The decoder's walks from the root. -/
def Shape.decode (t : Shape) (bits : BitSeq) : Decoding := t.decodeFrom t bits

/-! ### The stream reader -/

/-- What `ReadNode()` answers (spec/41_tree_serdes.md R143): a subtree, the entries allocated so far and the bits not read, or
the error and the bits not read. -/
inductive ReadResult where
  | ok (t : Shape) (n : Nat) (rest : BitSeq)
  | failed (e : ErrCode) (info : BitVec 9) (rest : BitSeq)
deriving DecidableEq, Repr

/-- The bits not read. -/
def ReadResult.rest : ReadResult → BitSeq
  | .ok _ _ rest => rest
  | .failed _ _ rest => rest

/-- The number of a bit sequence, most significant bit first (spec/20_memory.md R80; spec/30_encoding.md R101). -/
def valueMsb (p : BitSeq) : Nat := p.foldl (fun v b => 2 * v + b.toNat) 0

/-- `ReadNode()` of R143 as the recursion it is written as, on a stream that ends after `bits`, `n` entries being allocated.
The first argument bounds the recursion: each call deeper has allocated one entry more, so 514 is enough (R141). -/
def readNode : Nat → Nat → BitSeq → ReadResult
  | 0, _, bits => .failed .treeOverflow 0 bits
  | k + 1, n, bits =>
    if n = Config.nodeCap then .failed .treeOverflow 0 bits
    else match bits with
      | [] => .failed .truncated 0 []
      | false :: rest =>
        if rest.length < 9 then .failed .truncated 0 []
        else if 256 < valueMsb (rest.take 9) then
          .failed .badSymbol (BitVec.ofNat 9 (valueMsb (rest.take 9))) (rest.drop 9)
        else .ok (.leaf (BitVec.ofNat 9 (valueMsb (rest.take 9)))) (n + 1) (rest.drop 9)
      | true :: rest =>
        match readNode k (n + 1) rest with
        | .failed e info rest' => .failed e info rest'
        | .ok l n' rest' =>
          match readNode k n' rest' with
          | .failed e info rest'' => .failed e info rest''
          | .ok r n'' rest'' => .ok (.node l r) n'' rest''

/-! ### Trees in an arena -/

/-- The arena holds the tree at entry `i`. -/
def Shape.heldAt (a : Arena) : Idx → Shape → Prop
  | i, .leaf sym => ∃ w, arenaAt a i = .leaf sym w
  | i, .node l r => ∃ x y w, arenaAt a i = .internal x y w ∧ l.heldAt a x ∧ r.heldAt a y

/-- The entries of the tree at entry `i`, in preorder, one for each path. -/
def Shape.entries (a : Arena) : Idx → Shape → List Nat
  | i, .leaf _ => [i.toNat]
  | i, .node l r =>
    match arenaAt a i with
    | .internal x y _ => i.toNat :: (l.entries a x ++ r.entries a y)
    | .leaf _ _ => [i.toNat]

/-- The entries of a tree numbered in preorder from `i` on, weights 0: what DESER makes (spec/41_tree_serdes.md R140, R149). -/
def Shape.preorder : Nat → Shape → List Node
  | _, .leaf sym => [.leaf sym 0]
  | i, .node l r =>
    .internal (BitVec.ofNat 10 (i + 1)) (BitVec.ofNat 10 (i + 1 + l.count)) 0 ::
      (l.preorder (i + 1) ++ r.preorder (i + 1 + l.count))

/-- The arena's entries from `i` on are the list. -/
def arenaBlock (a : Arena) (i : Nat) (ns : List Node) : Prop := ∀ k, (h : k < ns.length) → a[i + k]? = some ns[k]

/-- `t` is the tree of R51: ROOT holds it, (a) at most 513 entries, (b) (c) the entries 0 to NODES-1 are each on exactly one
path, (d) LEAVES counts its leaves, (e) no symbol is above 256. -/
def State.treeIs (s : State) (t : Shape) : Prop :=
  t.heldAt s.arena s.root ∧ (t.entries s.arena s.root).Perm (List.range s.nodes.toNat) ∧ s.nodes.toNat ≤ Config.nodeCap ∧
    s.leaves.toNat = t.leafCount ∧ ∀ sym ∈ t.symbols, sym ≤ Config.endSymbol

end Sys2Proof.Machine
end

