-- ==== Sys2Proof/Safety.lean ====
section
/-! DEFINITION. What holds of every state of a run of HTE-1, in the terms the statements use: the invariants of the flags, the
queues, the tree (spec/10_state.md R51), the code table (R56) and a DESER in progress; and what a safe step is. -/

namespace Sys2Proof.Machine

/-- A step that answers a next state: no fault, no refusal. -/
def SafeStep (s : State) : Prop := ∃ t, step s = .next t

/-- It is the engine's turn, with at least one engine step. -/
def EngineTurn (s : State) : Prop := ∃ k rest, s.order = .engine (k + 1) :: rest

/-- Weak fairness (spec/70_reset_and_hazards.md R247): however many steps a run from `s` has taken, the engine's turn comes
again, unless the run stops before. `State.order` makes it hold of every state (`weaklyFair`, Laws/Fairness.lean). -/
def WeaklyFair (s : State) : Prop :=
  ∀ n t, core.run n s = .next t → ∃ m, (∃ u, core.run m t = .next u ∧ EngineTurn u) ∨ ∀ u, core.run m t ≠ .next u

/-- The bits that the host's pops of BO have given it. -/
def toldBits (told : List Seen) : BitSeq :=
  told.filterMap fun x => match x with
    | .bit b => some b
    | _ => none

/-- The bytes that the host's pops of YO have given it. -/
def toldBytes (told : List Seen) : List Byte :=
  told.filterMap fun x => match x with
    | .byte b => some b
    | _ => none

/-- A host that drains BO and YO while a command runs (spec/70_reset_and_hazards.md R241): one pop of each in every round of the
order of steps. -/
def drainCycle : List Turn := [.host .popBit, .host .popByte]

/-- The continuation fits the accepted word: one of its command's, or none has run yet. -/
def contFits (w : Word) (c : Cont) : Bool :=
  match decode w with
  | .command i => c.belongsTo i
  | .reservedBits => c == .start
  | .reservedOpcode => c == .start
  | .wrongLength => c == .start

/-- The word is BUILD's or DESER's, whose acceptance discards the tree. -/
def replacesTree (w : Word) : Bool := decode w == .command .build || decode w == .command .deser

/-- What holds while the engine is busy: DONE, ERR and END_SEEN are cleared (R26 to R31), CMD reads the running word (R24),
the continuation is the command's, a command that replaces the tree has discarded it (R29), and ENC's second phase has the
code table (R30). -/
def busyInv (s : State) : Prop :=
  match s.phase with
  | .idle => True
  | .busy w c =>
    s.done = false ∧ s.err = false ∧ s.endSeen = false ∧ s.cmdLast = w ∧ contFits w c = true ∧
      (replacesTree w = true → s.treeValid = false) ∧
      (∀ p last, c = .enc p last → s.codesValid = true) ∧ (∀ x, c = .encByte x → s.codesValid = true) ∧
      (∀ i, c = .dec i → s.treeValid = true) ∧
      (∀ p st, c = .ser p st → s.treeValid = true)

/-- The flags and the registers that go with them (R28 to R37): ERRCODE and ERRINFO are 0 without ERR, ERRCODE is a code of
spec/60_exceptions.md R201, CODES_VALID implies TREE_VALID, and nothing is left of a tree or a code table that is not valid. -/
def ControlInv (s : State) : Prop :=
  busyInv s ∧ (s.err = false → s.errcode = 0 ∧ s.errinfo = 0) ∧ (s.err = true → 1 ≤ s.errcode ∧ s.errcode ≤ 9) ∧
    (s.codesValid = true → s.treeValid = true) ∧ (s.codesValid = false → s.code = codeNone) ∧
    (s.treeValid = false → s.root = 0 ∧ s.nodes = 0 ∧ s.leaves = 0)

/-- No queue is longer than its capacity (R60 to R62), and the capacities are at least 1 (spec/00_scope.md R8). -/
def QueueInv (s : State) : Prop :=
  s.biBits.length ≤ s.depths.bi ∧ s.yiBytes.length ≤ s.depths.yi ∧ s.boBits.length ≤ s.depths.bo ∧
    s.yoBytes.length ≤ s.depths.yo ∧ 1 ≤ s.depths.bi ∧ 1 ≤ s.depths.yi ∧ 1 ≤ s.depths.bo ∧ 1 ≤ s.depths.yo

/-- The tree invariant (R51). -/
def TreeInv (s : State) : Prop := s.treeValid = true → ∃ t : Shape, s.treeIs t

/-- The code-table invariant (R56). -/
def CodesInv (s : State) : Prop :=
  s.codesValid = true → ∀ t : Shape, s.treeIs t → ∀ sym, codeAt s.code sym = t.codeOf sym

/-- A subtree that DESER has read: its entries stand in preorder from `i` on, and its symbols are at most 256. -/
def deserDone (a : Arena) (i : Nat) (t : Shape) : Prop :=
  arenaBlock a i (t.preorder i) ∧ ∀ sym ∈ t.symbols, sym ≤ Config.endSymbol

/-- The pending internal nodes of a DESER whose current subtree starts at entry `start`, `lv` leaves being read before it. -/
def deserPending (a : Arena) : Nat → Nat → List DeserFrame → Prop
  | start, lv, [] => start = 0 ∧ lv = 0
  | start, lv, .inLeft p :: rest => start = p.toNat + 1 ∧ deserPending a p.toNat lv rest
  | start, lv, .inRight p l :: rest =>
    l.toNat = p.toNat + 1 ∧ ∃ (t : Shape) (lv' : Nat), deserDone a (p.toNat + 1) t ∧ start = p.toNat + 1 + t.count ∧
      lv = lv' + t.leafCount ∧ deserPending a p.toNat lv' rest

/-- A DESER in progress has read a prefix of one tree in preorder (spec/41_tree_serdes.md R140). -/
def DeserInv (s : State) : Prop :=
  ∀ w n lv pos stack, s.phase = .busy w (.deser n lv pos stack) →
    n.toNat ≤ Config.nodeCap ∧
    match pos with
    | .flag => deserPending s.arena n.toNat lv.toNat stack
    | .field i _ left => n.toNat = i.toNat + 1 ∧ left ≤ 9 ∧ deserPending s.arena i.toNat lv.toNat stack
    | .ret i => ∃ (t : Shape) (lv' : Nat), deserDone s.arena i.toNat t ∧ n.toNat = i.toNat + t.count ∧
        lv.toNat = lv' + t.leafCount ∧ deserPending s.arena i.toNat lv' stack

/-- The table of spec/10_state.md R67, row by row; its two rows "unspecified and unobservable" say nothing. -/
def ResetTable (s : State) : Prop :=
  s.phase = .idle ∧ s.irqEn = false ∧ s.cmdLast = 0x00000000#32 ∧
    (s.done = false ∧ s.err = false ∧ s.treeValid = false ∧ s.codesValid = false ∧ s.endSeen = false ∧ s.ovr = false) ∧
    readReg .status s = 0x00000000#32 ∧ (s.errcode = 0 ∧ s.errinfo = 0) ∧ s.magic = 0x00000736#32 ∧
    (s.root = 0 ∧ s.nodes = 0 ∧ s.leaves = 0) ∧ (s.nodeSel = 0 ∧ s.codeSel = 0) ∧
    (readReg .nodeInfo s = 0 ∧ readReg .nodeWlo s = 0 ∧ readReg .nodeWhi s = 0) ∧
    (readReg .codeLen s = 0 ∧ ∀ j, readReg (.codeBits j) s = 0) ∧
    (s.biCount = 0 ∧ s.boCount = 0 ∧ s.yiCount = 0 ∧ s.yoCount = 0) ∧ (∀ b, freqAt s.freq b = 0) ∧
    (∀ sym, codeAt s.code sym = none) ∧
    (s.biBits = [] ∧ s.biEod = false ∧ s.yiBytes = [] ∧ s.yiEod = false) ∧ (s.boBits = [] ∧ s.yoBytes = []) ∧
    s.irq = false

/-- All of it. -/
def Inv (s : State) : Prop := ControlInv s ∧ QueueInv s ∧ TreeInv s ∧ CodesInv s ∧ DeserInv s

/-! ### The terms of the statements about BUILD and DESER -/

/-- The symbols of BUILD's leaf set in ascending order: the byte values with a non-zero FREQ, then END (R121, R122). -/
def leafSymbols (f : FreqTable) : List Symbol :=
  ((List.range 256).filter fun k => f[k]?.getD 0 != 0).map (BitVec.ofNat 9) ++ [256#9]

/-- BUILD's weight of a symbol of the leaf set (R121, R127). -/
def leafWeight (f : FreqTable) (sym : Symbol) : Weight :=
  if sym = 256#9 then 1 else (f[sym.toNat]?.getD 0).setWidth 40

/-- An entry that is in BUILD's queue when entry `m` is made: below `m`, and no child of an internal entry below `m` (R123). -/
def queuedAt (a : Arena) (m k : Nat) : Prop :=
  k < m ∧ ∀ j < m, ∀ l r x, a[j]? = some (.internal l r x) → l.toNat ≠ k ∧ r.toNat ≠ k

/-- The order of R124 on entries: weights unsigned, then indices. -/
def entryPrecedes (a : Arena) (x y : Nat) : Prop :=
  (arenaAt a (BitVec.ofNat 10 x)).weight.toNat < (arenaAt a (BitVec.ofNat 10 y)).weight.toNat ∨
    ((arenaAt a (BitVec.ofNat 10 x)).weight.toNat = (arenaAt a (BitVec.ofNat 10 y)).weight.toNat ∧ x < y)

/-- The state in which DESER ends when `ReadNode` answers `r`, `a` being the arena it leaves (R143, R147). -/
def deserOutcome (s : State) (a : Arena) (r : ReadResult) : State :=
  match r with
  | .ok T n rest =>
    { s with phase := .idle, done := true, biBits := rest,
             biCount := s.biCount + BitVec.ofNat 32 (s.biBits.length - rest.length), arena := a, root := 0,
             nodes := BitVec.ofNat 10 n, leaves := BitVec.ofNat 10 T.leafCount, treeValid := true }
  | .failed e info rest =>
    { s with phase := .idle, done := true, err := true, errcode := e.number, errinfo := info, biBits := rest,
             biCount := s.biCount + BitVec.ofNat 32 (s.biBits.length - rest.length), arena := a, root := 0, nodes := 0,
             leaves := 0 }

end Sys2Proof.Machine
end

