-- ==== Sys2Proof/Certificates/Slice0/Obligations.lean ====
section
/-! DEFINITION. The statements about the model, for the provers. Each docstring names the rules of spec/ it formalises; the
statements are about every state, and `s.phase = .busy w .start` says that a command has been accepted (spec/30_encoding.md
R90) and the engine is at its first step. `s.grant` is the number of engine steps the order of steps gives the engine before
the next host step (log 1): a statement with a bound on it holds for every such number. A statement that a writing command
completes asks for room for its whole output; that it completes on ports of any capacity when the host drains them is
`PushCommutesWithEngineStep`'s last clause. -/

open Sys2Proof Sys2Proof.Machine

/-! ### Reset, acceptance, the host's steps -/

/-- R67, R230: power-on reset, and either reset (the reset input, a write of 1 to CTRL.SOFT_RESET) in any state, busy or idle,
give the values of the table. That the model's own fields stay is the model's choice (logs 1, 2, 4, 7). -/
def Obligations.ResetGivesTableValues : Prop :=
  (∀ d, ResetTable (State.powerOn d)) ∧ ResetTable State.reset ∧
    ∀ (s : State) (a : HostAction) (rest : List Turn), s.order = .host a :: rest →
      (a = .hardReset ∨ ∃ v : Word, v.getLsbD 0 = true ∧ a = .regWrite Reg.ctrl.offset 4 v) →
      ∃ t, step s = .next t ∧ ResetTable t ∧ t.depths = s.depths ∧ t.turns = rest ∧ t.cycle = s.cycle ∧ t.seen = s.seen ∧
        t.draws = s.draws

/-- R90, with the acceptance effects of R126 and R143 (the code table's among them, R55): a write to CMD while idle, every
field of the state after it. That an illegal word whose low bits are BUILD's or DESER's leaves the tree is the model's reading
(log 15). -/
def Obligations.CmdWriteWhileIdleIsAccepted : Prop :=
  ∀ (s : State) (v : Word) (rest : List Turn), s.phase = .idle → s.order = .host (.regWrite Reg.cmd.offset 4 v) :: rest →
    (v = 0x2#32 ∨ v = 0x4#32 →
      step s = .next { s with
        turns := rest, cmdLast := v, done := false, err := false, endSeen := false, errcode := 0, errinfo := 0, biCount := 0,
        boCount := 0, yiCount := 0, yoCount := 0, phase := .busy v .start, treeValid := false, codesValid := false,
        root := 0, nodes := 0, leaves := 0, code := Vector.replicate 257 none }) ∧
    (v ≠ 0x2#32 ∧ v ≠ 0x4#32 →
      step s = .next { s with
        turns := rest, cmdLast := v, done := false, err := false, endSeen := false, errcode := 0, errinfo := 0, biCount := 0,
        boCount := 0, yiCount := 0, yoCount := 0, phase := .busy v .start })

/-- R42: busy-protected writes while busy are dropped and set OVR; IRQ_EN takes its value all the same; the other writes take
effect. -/
def Obligations.BusyProtectedWritesAreDropped : Prop :=
  ∀ (s : State) (v : Word), s.busy = true →
    writeReg .cmd v s = { s with ovr := true } ∧ writeReg .magic v s = { s with ovr := true } ∧
      (∀ b, writeReg (.freq b) v s = { s with ovr := true }) ∧
      (v.getLsbD 0 = false → (v.getLsbD 1 = true ∨ v.getLsbD 2 = true) →
        writeReg .ctrl v s = { s with ovr := true, irqEn := v.getLsbD 8 }) ∧
      (v.getLsbD 0 = false → v.getLsbD 1 = false → v.getLsbD 2 = false →
        writeReg .ctrl v s = { s with irqEn := v.getLsbD 8 }) ∧
      (v.getLsbD 0 = true → writeReg .ctrl v s = resetAll s) ∧
      (writeReg .status v s).phase = s.phase ∧ (writeReg .status v s).done = (s.done && !v.getLsbD 1) ∧
      (writeReg .status v s).err = (s.err && !v.getLsbD 2) ∧ (writeReg .status v s).ovr = (s.ovr && !v.getLsbD 6) ∧
      writeReg .nodeSel v s = { s with nodeSel := v.setWidth 10 } ∧
      writeReg .codeSel v s = { s with codeSel := v.setWidth 9 }

/-- R36, R38, R39, R40, R23: writes while idle. -/
def Obligations.IdleRegisterWritesTakeEffect : Prop :=
  ∀ (s : State) (v : Word), s.phase = .idle →
    writeReg .magic v s = { s with magic := v } ∧
      writeReg .nodeSel v s = { s with nodeSel := v.setWidth 10 } ∧
      writeReg .codeSel v s = { s with codeSel := v.setWidth 9 } ∧
      (∀ b c, freqAt (writeReg (.freq b) v s).freq c = if c = b then v else freqAt s.freq c) ∧
      (∀ b, writeReg (.freq b) v s = { s with freq := (writeReg (.freq b) v s).freq }) ∧
      (v.getLsbD 0 = false →
        writeReg .ctrl v s = { s with
          irqEn := v.getLsbD 8,
          biBits := if v.getLsbD 1 then [] else s.biBits, biEod := if v.getLsbD 1 then false else s.biEod,
          yiBytes := if v.getLsbD 2 then [] else s.yiBytes, yiEod := if v.getLsbD 2 then false else s.yiEod })

/-- R25 to R33, R44: the bits of STATUS, what a write to it clears, and the irq line. -/
def Obligations.StatusBitsAndWriteOneToClear : Prop :=
  ∀ (s : State) (v : Word),
    ((readReg .status s).getLsbD 0 = (s.phase != .idle) ∧ (readReg .status s).getLsbD 1 = s.done ∧
      (readReg .status s).getLsbD 2 = s.err ∧ (readReg .status s).getLsbD 3 = s.treeValid ∧
      (readReg .status s).getLsbD 4 = s.codesValid ∧ (readReg .status s).getLsbD 5 = s.endSeen ∧
      (readReg .status s).getLsbD 6 = s.ovr ∧ (readReg .status s).getLsbD 7 = s.biEod ∧
      (readReg .status s).getLsbD 8 = s.yiEod ∧ ∀ k, 9 ≤ k → (readReg .status s).getLsbD k = false) ∧
    writeReg .status v s = { s with
      done := s.done && !v.getLsbD 1, err := s.err && !v.getLsbD 2, ovr := s.ovr && !v.getLsbD 6,
      errcode := if v.getLsbD 2 then 0 else s.errcode, errinfo := if v.getLsbD 2 then 0 else s.errinfo } ∧
    s.irq = (s.irqEn && s.done)

/-- R20, R21, R13: the map, written out; a defined access at a register's offset is that register's read or write, a reserved
offset reads 0, a write to it or to a read-only register has no effect. What the host is told is recorded in `seen`
(log 2). -/
def Obligations.RegisterMapAndReservedOffsets : Prop :=
  ((regAt 0x000 = some .id ∧ regAt 0x004 = some .ctrl ∧ regAt 0x008 = some .cmd ∧ regAt 0x00C = some .status ∧
      regAt 0x010 = some .errcode ∧ regAt 0x014 = some .errinfo ∧ regAt 0x018 = some .magic ∧ regAt 0x01C = some .root ∧
      regAt 0x020 = some .nodes ∧ regAt 0x024 = some .leaves ∧ regAt 0x028 = some .nodeSel ∧ regAt 0x02C = some .nodeInfo ∧
      regAt 0x030 = some .nodeWlo ∧ regAt 0x034 = some .nodeWhi ∧ regAt 0x038 = some .codeSel ∧
      regAt 0x03C = some .codeLen) ∧
    (∀ j : Fin 8, regAt (BitVec.ofNat 12 (0x040 + 4 * j.val)) = some (.codeBits j)) ∧
    (regAt 0x060 = some .biCount ∧ regAt 0x064 = some .boCount ∧ regAt 0x068 = some .yiCount ∧
      regAt 0x06C = some .yoCount) ∧
    ∀ b : Byte, regAt (BitVec.ofNat 12 (0x400 + 4 * b.toNat)) = some (.freq b)) ∧
  (∀ r : Reg, regAt r.offset = some r ∧ r.offset.toNat % 4 = 0) ∧
    (∀ off : Offset, off.toNat % 4 = 0 →
      (regAt off = none ↔ (0x070 ≤ off.toNat ∧ off.toNat ≤ 0x3FC) ∨ (0x800 ≤ off.toNat ∧ off.toNat ≤ 0xFFC)) ∧
      ∀ r, regAt off = some r → r.offset = off) ∧
    (∀ (r : Reg) (v : Word) (s : State),
      hostStep (.regRead r.offset 4) s = .next (regRead r.offset s) ∧
        hostStep (.regWrite r.offset 4 v) s = .next (writeReg r v s)) ∧
    (∀ (off : Offset) (v : Word) (s : State), regAt off = none → off.toNat % 4 = 0 →
      hostStep (.regRead off 4) s = .next { s with seen := s.seen ++ [.value off 0] } ∧
        hostStep (.regWrite off 4 v) s = .next s) ∧
    (∀ (v : Word) (s : State) (j : Fin 8),
      ∀ r ∈ [Reg.id, .errcode, .errinfo, .root, .nodes, .leaves, .nodeInfo, .nodeWlo, .nodeWhi, .codeLen, .codeBits j,
        .biCount, .boCount, .yiCount, .yoCount], writeReg r v s = s) ∧
    (∀ s, readReg .id s = 0x48554601#32)

/-- R71, R210: an access that is not 32 bits wide or not aligned is refused and has no step; a defined one has. -/
def Obligations.UndefinedAccessIsRefused : Prop :=
  ∀ (s : State) (off : Offset) (bytes : Nat) (v : Word) (rest : List Turn),
    s.order = .host (.regRead off bytes) :: rest ∨ s.order = .host (.regWrite off bytes v) :: rest →
    (bytes ≠ 4 ∨ off.toNat % 4 ≠ 0 → step s = .refused .undefinedAccess) ∧
      (bytes = 4 ∧ off.toNat % 4 = 0 → SafeStep s)

/-- R73, R43, R21: a read changes nothing but what the host has been told (log 2) and, of the unspecified ones, the free values
drawn; a read is exact while idle, and while busy for every register R43 does not name. That an unspecified read returns
`Config.unspecifiedRead` of the count `draws`, which advances, is the model's form of a free value (log 7). The exact values of
CTRL, CMD, ERRCODE, ERRINFO, MAGIC, ROOT, NODES, LEAVES, FREQ and the counters follow (R23, R24, R34 to R37, R40, R41);
`StatusBitsAndWriteOneToClear`, `RegisterMapAndReservedOffsets`, `NodeViewShowsArenaEntry` and `CodeViewShowsCodeword` have the
others. -/
def Obligations.ReadsAreExactOrFreeDraws : Prop :=
  ∀ (s : State) (r : Reg),
    (∀ off, regAt off = none → regRead off s = { s with seen := s.seen ++ [.value off 0] }) ∧
    (s.busy = false ∨ r.unspecifiedWhileBusy = false →
      regRead r.offset s = { s with seen := s.seen ++ [.value r.offset (readReg r s)] }) ∧
    (s.busy = true → r.unspecifiedWhileBusy = true →
      regRead r.offset s = { s with
        seen := s.seen ++ [.value r.offset (Config.unspecifiedRead s.draws)], draws := s.draws + 1 }) ∧
    (r.unspecifiedWhileBusy = true ↔
      r ∈ [Reg.root, .nodes, .leaves, .nodeInfo, .nodeWlo, .nodeWhi, .codeLen, .biCount, .boCount, .yiCount, .yoCount] ∨
        ∃ j, r = .codeBits j) ∧
    ((readReg .ctrl s).getLsbD 8 = s.irqEn ∧ (∀ k, k ≠ 8 → (readReg .ctrl s).getLsbD k = false) ∧
      readReg .cmd s = s.cmdLast ∧ readReg .magic s = s.magic ∧ (∀ b, readReg (.freq b) s = freqAt s.freq b)) ∧
    ((readReg .errcode s).toNat = s.errcode.toNat ∧ (readReg .errinfo s).toNat = s.errinfo.toNat ∧
      (readReg .root s).toNat = s.root.toNat ∧ (readReg .nodes s).toNat = s.nodes.toNat ∧
      (readReg .leaves s).toNat = s.leaves.toNat) ∧
    readReg .biCount s = s.biCount ∧ readReg .boCount s = s.boCount ∧ readReg .yiCount s = s.yiCount ∧
      readReg .yoCount s = s.yoCount

/-- R38: the node view, field by field; NODE_SEL keeps ten bits, written busy or idle. -/
def Obligations.NodeViewShowsArenaEntry : Prop :=
  ∀ s : State,
    (readReg .nodeSel s).toNat = s.nodeSel.toNat ∧
    (∀ (v : Word) (r : Reg), r ∈ [Reg.nodeInfo, .nodeWlo, .nodeWhi] →
      writeReg .nodeSel v s = { s with nodeSel := BitVec.ofNat 10 (v.toNat % 1024) } ∧ writeReg r v s = s) ∧
    (s.nodes.toNat ≤ s.nodeSel.toNat →
      readReg .nodeInfo s = 0 ∧ readReg .nodeWlo s = 0 ∧ readReg .nodeWhi s = 0) ∧
    (∀ sym w, s.nodeSel.toNat < s.nodes.toNat → arenaAt s.arena s.nodeSel = .leaf sym w →
      (readReg .nodeInfo s).toNat = sym.toNat ∧
        (readReg .nodeWhi s).toNat * 2 ^ 32 + (readReg .nodeWlo s).toNat = w.toNat) ∧
    (∀ l r w, s.nodeSel.toNat < s.nodes.toNat → arenaAt s.arena s.nodeSel = .internal l r w →
      (readReg .nodeInfo s).toNat = 2 ^ 31 + r.toNat * 2 ^ 16 + l.toNat ∧
        (readReg .nodeWhi s).toNat * 2 ^ 32 + (readReg .nodeWlo s).toNat = w.toNat)

/-- R39: the code view; bit 0 of CODE_BITS0 is the first bit of the codeword; CODE_SEL keeps nine bits, written busy or
idle. -/
def Obligations.CodeViewShowsCodeword : Prop :=
  ∀ s : State,
    (readReg .codeSel s).toNat = s.codeSel.toNat ∧
    (∀ (v : Word) (j : Fin 8),
      writeReg .codeSel v s = { s with codeSel := BitVec.ofNat 9 (v.toNat % 512) } ∧ writeReg .codeLen v s = s ∧
        writeReg (.codeBits j) v s = s) ∧
    (codeAt s.code s.codeSel = none → readReg .codeLen s = 0 ∧ ∀ j, readReg (.codeBits j) s = 0) ∧
    (256 < s.codeSel.toNat → codeAt s.code s.codeSel = none) ∧
    (∀ p, codeAt s.code s.codeSel = some p → p.length ≤ 256 →
      (readReg .codeLen s).toNat = 2 ^ 31 + p.length ∧
        ∀ (j : Fin 8) (i : Nat), i < 32 → (readReg (.codeBits j) s).getLsbD i = p.getD (32 * j.val + i) false)

/-- R74, R75: the host's pushes and pops, accepted exactly when the spec says, whether or not the engine is busy. The record
`seen` is the model's (log 2), and so is what the attempt of a pop that is not possible does: nothing (log 9). -/
def Obligations.PushesAndPops : Prop :=
  ∀ (s : State) (b : Bool) (x : Byte),
    (s.biEod = false ∧ s.biBits.length < s.depths.bi →
      hostStep (.pushBit b) s = .next { s with biBits := s.biBits ++ [b], seen := s.seen ++ [.accepted] }) ∧
    (s.biEod = true ∨ s.depths.bi ≤ s.biBits.length →
      hostStep (.pushBit b) s = .next { s with seen := s.seen ++ [.notAccepted] }) ∧
    (s.biEod = false → hostStep .pushBiEod s = .next { s with biEod := true, seen := s.seen ++ [.accepted] }) ∧
    (s.biEod = true → hostStep .pushBiEod s = .next { s with seen := s.seen ++ [.notAccepted] }) ∧
    (s.yiEod = false ∧ s.yiBytes.length < s.depths.yi →
      hostStep (.pushByte x) s = .next { s with yiBytes := s.yiBytes ++ [x], seen := s.seen ++ [.accepted] }) ∧
    (s.yiEod = true ∨ s.depths.yi ≤ s.yiBytes.length →
      hostStep (.pushByte x) s = .next { s with seen := s.seen ++ [.notAccepted] }) ∧
    (s.yiEod = false → hostStep .pushYiEod s = .next { s with yiEod := true, seen := s.seen ++ [.accepted] }) ∧
    (s.yiEod = true → hostStep .pushYiEod s = .next { s with seen := s.seen ++ [.notAccepted] }) ∧
    (∀ p, s.boBits = b :: p → hostStep .popBit s = .next { s with boBits := p, seen := s.seen ++ [.bit b] }) ∧
    (s.boBits = [] → hostStep .popBit s = .next { s with seen := s.seen ++ [.nothing] }) ∧
    (∀ q, s.yoBytes = x :: q → hostStep .popByte s = .next { s with yoBytes := q, seen := s.seen ++ [.byte x] }) ∧
    (s.yoBytes = [] → hostStep .popByte s = .next { s with seen := s.seen ++ [.nothing] })

/-! ### Decoding and the engine's turn -/

/-- R93: the command words of the table, written out. -/
def Obligations.TableWordsDecode : Prop :=
  decode 0x00000000#32 = .command .nop ∧ decode 0x00000001#32 = .command .clrFreq ∧
    decode 0x00000002#32 = .command .build ∧ decode 0x00000003#32 = .command .ser ∧
    decode 0x00000004#32 = .command .deser ∧ decode 0x00000005#32 = .command .codes ∧
    decode 0x00000006#32 = .command .enc ∧ decode 0x00000007#32 = .command .dec ∧
    decode 0x00000008#32 = .command .magicWr ∧ decode 0x00000009#32 = .command .magicChk

/-- R92, R93: a word is a command exactly when it is that command's word; the words with a reserved bit set and those with
opcode 0xA to 0xF are none; and decoding the bytes of a word is decoding the word (R72). -/
def Obligations.DecodeExactlyEncodedWords : Prop :=
  (∀ (v : Word) (i : Instr), decode v = .command i ↔ v = encode i) ∧
    (∀ v : Word, (∃ i, decode v = .command i) ↔ v.extractLsb' 4 28 = 0 ∧ (v.extractLsb' 0 4).toNat ≤ 9) ∧
    (∀ v : Word, decodeBytes [byteLane v 0, byteLane v 1, byteLane v 2, byteLane v 3] = decode v) ∧
    ∀ i : Instr, decodeBytes (encodeBytes i) = .command i

/-- R82: when the order of steps gives the engine its turn and the accepted word decodes to `i`, the step is `exec` of `i`, and
the turn is taken off the order; when it gives the host its turn, the step is the host's; an idle engine does nothing. R247: the
engine's turn always comes again. The order `turns`, then `cycle` and an engine step again and again, is the model's form of
R82's one total order (log 1). -/
def Obligations.StepRunsDecodedCommand : Prop :=
  ∀ s : State,
    (∀ a rest, s.order = .host a :: rest → step s = hostStep a { s with turns := rest }) ∧
    ((∀ a rest, s.order ≠ .host a :: rest) →
      (s.phase = .idle → step s = .next { s with turns := s.order.tail }) ∧
      ∀ w c i, s.phase = .busy w c → decode w = .command i →
        (∀ t, exec i s = .next t → step s = .next { t with turns := t.order.tail }) ∧
        (∀ r, exec i s = .fault r → step s = .fault r) ∧ ∀ r, exec i s = .refused r → step s = .refused r) ∧
    WeaklyFair s

/-- After `withFetchWord` the very next step runs the word's command, on the state its acceptance leaves. -/
def Obligations.FetchedWordRunsNext : Prop :=
  ∀ (s : State) (i : Instr),
    decodeTableWord 32 (encode i).toNat = some i ∧
    (s.withFetchWord 32 (encode i).toNat).phase = .busy (encode i) .start ∧
    (∀ t, exec i (s.withFetchWord 32 (encode i).toNat) = .next t →
      step (s.withFetchWord 32 (encode i).toNat) = .next { t with turns := s.turns }) ∧
    ∃ t, exec i (s.withFetchWord 32 (encode i).toNat) = .next t ∧ t.turns = .engine 1 :: s.turns

/-- R92, R205: a word that is no command ends in ILLEGAL_CMD with ERRINFO = v[3:0], and nothing else changes. (Grant: log 1.) -/
def Obligations.IllegalWordEndsInError : Prop :=
  ∀ (s : State) (v : Word), s.phase = .busy v .start → (∀ a rest, s.order ≠ .host a :: rest) → 1 ≤ s.grant →
    v.extractLsb' 4 28 ≠ 0 ∨ 10 ≤ (v.extractLsb' 0 4).toNat →
    step s = .next { s with
      turns := s.order.tail, phase := .idle, done := true, err := true, errcode := 1,
      errinfo := (v.extractLsb' 0 4).setWidth 9 }

/-- No step faults from a state that meets the control invariant, and the only refusal is that of an undefined access (R71). -/
def Obligations.StepNeverFaults : Prop :=
  ∀ s : State, ControlInv s →
    SafeStep s ∨ (step s = .refused .undefinedAccess ∧ ∃ off bytes rest, (bytes ≠ 4 ∨ off.toNat % 4 ≠ 0) ∧
      (s.order = .host (.regRead off bytes) :: rest ∨ ∃ v, s.order = .host (.regWrite off bytes v) :: rest))

/-- The model's own fault (log 11): `exec` of a command the engine is not running, and only that. -/
def Obligations.ExecFaultsWhenNotRunning : Prop :=
  ∀ (i : Instr) (s : State),
    (s.phase = .idle → exec i s = .fault .notRunning) ∧
    (∀ w c, s.phase = .busy w c → c.belongsTo i = false → exec i s = .fault .notRunning) ∧
    (∀ w c, s.phase = .busy w c → c.belongsTo i = true → ∃ t, exec i s = .next t)

/-- R76: with an empty input port without an end mark, or a full output port, a command that must transfer there holds: its
engine steps, however many, change nothing. -/
def Obligations.EngineHolds : Prop :=
  ∀ (s : State) (w : Word),
    (s.biBits = [] → s.biEod = false →
      (∀ v k, s.phase = .busy w (.magicChk v (k + 1)) → exec .magicChk s = .next s) ∧
      (∀ n lv st, s.phase = .busy w (.deser n lv .flag st) → n ≠ 513 → exec .deser s = .next s) ∧
      (∀ n lv i v k st, s.phase = .busy w (.deser n lv (.field i v (k + 1)) st) → exec .deser s = .next s) ∧
      (∀ i l r x, s.phase = .busy w (.dec i) → arenaAt s.arena i = .internal l r x → exec .dec s = .next s)) ∧
    (s.yiBytes = [] → s.yiEod = false → s.phase = .busy w (.enc [] false) → exec .enc s = .next s) ∧
    (s.depths.bo ≤ s.boBits.length →
      (∀ b p, s.phase = .busy w (.magicWr (b :: p)) → exec .magicWr s = .next s) ∧
      (∀ b p st, s.phase = .busy w (.ser (b :: p) st) → exec .ser s = .next s) ∧
      (∀ b p last, s.phase = .busy w (.enc (b :: p) last) → exec .enc s = .next s)) ∧
    (s.depths.yo ≤ s.yoBytes.length →
      ∀ i sym x, s.phase = .busy w (.dec i) → arenaAt s.arena i = .leaf sym x → sym ≠ 256#9 → exec .dec s = .next s)

/-- R17, R74, R75, R76: what a command does is fixed by the items it consumes, not by when the host serves the ports. For an
accepted push of a bit, a byte or an end mark, and for a pop that is possible: any number of engine steps of a command and then
the push or pop is the push or pop and then no more engine steps; and where the command then ends in `m` more, it ends in the
same state when the push or pop comes first. R241, R248 and decision D11 (results do not depend on the capacities): a command
that ends on ports of some capacities `d` ends on ports of any capacities of at least 1 when the host drains BO and YO, in the
same state, and what the host was given and what is left in a port are together the same output. (Order, grant, `drainCycle`:
log 1; `seen`: log 2.) -/
def Obligations.PushCommutesWithEngineStep : Prop :=
  (∀ (i : Instr) (a : HostAction) (s t : State),
    (s.biEod = false ∧ ((∃ b, a = .pushBit b) ∧ s.biBits.length < s.depths.bi ∨ a = .pushBiEod)) ∨
      (s.yiEod = false ∧ ((∃ x, a = .pushByte x) ∧ s.yiBytes.length < s.depths.yi ∨ a = .pushYiEod)) ∨
      (a = .popBit ∧ s.boBits ≠ []) ∨ (a = .popByte ∧ s.yoBytes ≠ []) →
    exec i s = .next t →
    ∃ s' t' : State, hostStep a s = .next s' ∧ hostStep a t = .next t' ∧
      (∃ n ≤ s.grant, ∀ rest,
        exec i { s' with turns := .engine n :: rest } = .next { t' with turns := .engine n :: rest }) ∧
      ∀ (m : Nat) (rest : List Turn) (u : State), exec i { t' with turns := .engine m :: rest } = .next u →
        u.phase = .idle →
        exec i { s' with turns := .engine (s.grant + m) :: rest } =
          .next { u with turns := .engine (s.grant + m) :: rest }) ∧
  ∀ (i : Instr) (s u : State) (c : Cont) (d : Depths) (k : Nat) (rest : List Turn),
    s.phase = .busy (encode i) c → s.turns = [] → s.cycle = drainCycle → 1 ≤ s.depths.bo → 1 ≤ s.depths.yo →
    s.boBits.length ≤ s.depths.bo → s.yoBytes.length ≤ s.depths.yo →
    exec i { s with depths := d, turns := .engine k :: rest } = .next u → u.phase = .idle →
    ∃ (n : Nat) (told : List Seen) (t : State), core.run n s = .next t ∧
      t = { u with depths := s.depths, turns := [], boBits := t.boBits, yoBytes := t.yoBytes, seen := u.seen ++ told } ∧
      u.boBits = toldBits told ++ t.boBits ∧ u.yoBytes = toldBytes told ++ t.yoBytes

/-! ### NOP, MAGIC_WR, MAGIC_CHK -/

/-- R190: NOP ends; nothing else changes. (Grant: log 1.) -/
def Obligations.NopCompletes : Prop :=
  ∀ (s : State) (w : Word), s.phase = .busy w .start → 1 ≤ s.grant →
    exec .nop s = .next { s with phase := .idle, done := true }

/-- R192: MAGIC_WR appends the 32 bits of MAGIC to BO, most significant first, and ends. (Grant: log 1.) -/
def Obligations.MagicWrWritesMagic : Prop :=
  ∀ (s : State) (w : Word), s.phase = .busy w .start → s.boBits.length + 32 ≤ s.depths.bo → 34 ≤ s.grant →
    exec .magicWr s = .next { s with
      phase := .idle, done := true, boBits := s.boBits ++ (List.range 32).map (fun k => s.magic.getLsbD (31 - k)),
      boCount := s.boCount + 32 }

/-- R194: MAGIC_CHK takes 32 bits, most significant first, and completes when they are MAGIC. (Grant: log 1.) -/
def Obligations.MagicChkAcceptsMagic : Prop :=
  ∀ (s : State) (w : Word) (rest : BitSeq), s.phase = .busy w .start → 34 ≤ s.grant →
    s.biBits = (List.range 32).map (fun k => s.magic.getLsbD (31 - k)) ++ rest →
    exec .magicChk s = .next { s with phase := .idle, done := true, biBits := rest, biCount := s.biCount + 32 }

/-- R194, R195, R201: when the first 32 bits are not MAGIC, all 32 are taken and the command ends in FORMAT with ERRINFO 0;
fewer than 32 bits before the end mark are a FORMAT error too, every bit before the mark being taken. (Grant: log 1.) -/
def Obligations.MagicChkRejectsOtherInput : Prop :=
  ∀ (s : State) (w : Word), s.phase = .busy w .start → 34 ≤ s.grant →
    (∀ p rest : BitSeq, p.length = 32 → p ≠ (List.range 32).map (fun k => s.magic.getLsbD (31 - k)) →
      s.biBits = p ++ rest →
      exec .magicChk s = .next { s with
        phase := .idle, done := true, biBits := rest, biCount := s.biCount + 32, err := true, errcode := 3,
        errinfo := 0 }) ∧
    (s.biBits.length < 32 → s.biEod = true →
      exec .magicChk s = .next { s with
        phase := .idle, done := true, biBits := [], biCount := s.biCount + BitVec.ofNat 32 s.biBits.length, err := true,
        errcode := 3, errinfo := 0 })

/-! ### CLR_FREQ, BUILD -/

/-- R120: CLR_FREQ clears the frequency registers and ends; nothing else changes. (Grant: log 1.) -/
def Obligations.ClrFreqClears : Prop :=
  ∀ (s : State) (w : Word), s.phase = .busy w .start → 1 ≤ s.grant →
    ∃ f : FreqTable, (∀ b, freqAt f b = 0) ∧ exec .clrFreq s = .next { s with phase := .idle, done := true, freq := f }

/-- R126, R129: BUILD always completes in the step it runs; with L leaves ROOT = 2L - 2, NODES = 2L - 1, LEAVES = L, and
TREE_VALID is set; the arena's first 2L - 1 entries are written and nothing else changes. That the arena entries from NODES on,
which the spec leaves unspecified, keep what they held (the last clause) is the model's choice (log 5). (Grant: log 1.) -/
def Obligations.BuildCompletes : Prop :=
  ∀ (s : State) (w : Word), s.phase = .busy w .start → 1 ≤ s.grant →
    ∃ t : State, exec .build s = .next t ∧
      t = { s with phase := .idle, done := true, treeValid := true, arena := t.arena, root := t.root, nodes := t.nodes,
                   leaves := t.leaves } ∧
      t.leaves.toNat = (leafSymbols s.freq).length ∧ t.nodes.toNat = 2 * t.leaves.toNat - 1 ∧
      t.root.toNat = 2 * t.leaves.toNat - 2 ∧
      ∀ k : Nat, t.nodes.toNat ≤ k → t.arena[k]? = s.arena[k]?

/-- R121, R122: the leaves stand in the first L entries in ascending symbol order, END last, with their counts as weights,
END's being 1; no other entry of the tree is a leaf. (Grant: log 1.) -/
def Obligations.BuildLeavesAscend : Prop :=
  ∀ (s t : State) (w : Word), s.phase = .busy w .start → 1 ≤ s.grant → exec .build s = .next t →
    (∀ k, (h : k < (leafSymbols s.freq).length) →
      arenaAt t.arena (BitVec.ofNat 10 k) =
        .leaf ((leafSymbols s.freq)[k]) (leafWeight s.freq ((leafSymbols s.freq)[k]))) ∧
    ∀ k : Nat, (leafSymbols s.freq).length ≤ k → k < t.nodes.toNat →
      ∃ l r x, arenaAt t.arena (BitVec.ofNat 10 k) = .internal l r x

/-- R123, R124, R125: every internal entry BUILD makes joins the two least of the queued entries, the least as the left child
and the next as the right child. (Grant: log 1.) -/
def Obligations.BuildMergesTwoLeast : Prop :=
  ∀ (s t : State) (w : Word), s.phase = .busy w .start → 1 ≤ s.grant → exec .build s = .next t →
    ∀ (m : Nat) (l r : Idx) (x : Weight), m < t.nodes.toNat → t.arena[m]? = some (.internal l r x) →
      queuedAt t.arena m l.toNat ∧ queuedAt t.arena m r.toNat ∧ entryPrecedes t.arena l.toNat r.toNat ∧
        ∀ k, queuedAt t.arena m k → k ≠ l.toNat → k ≠ r.toNat → entryPrecedes t.arena r.toNat k

/-- R127, R129: weights are exact sums: an internal entry's is the sum of its children's, without a wrap, and ROOT's is one
more than the sum of all FREQ. (Grant: log 1.) -/
def Obligations.BuildWeightsAreExactSums : Prop :=
  ∀ (s t : State) (w : Word), s.phase = .busy w .start → 1 ≤ s.grant → exec .build s = .next t →
    (∀ (m : Nat) (l r : Idx) (x : Weight), m < t.nodes.toNat → t.arena[m]? = some (.internal l r x) →
      x.toNat = (arenaAt t.arena l).weight.toNat + (arenaAt t.arena r).weight.toNat) ∧
    (arenaAt t.arena t.root).weight.toNat = 1 + (s.freq.toList.map BitVec.toNat).sum

/-- R128, R51: BUILD's result is a tree of R51 whose leaves hold each symbol of the leaf set exactly once. (Grant: log 1.) -/
def Obligations.BuildMakesTreeOfLeafSet : Prop :=
  ∀ (s t : State) (w : Word), s.phase = .busy w .start → 1 ≤ s.grant → exec .build s = .next t →
    ∃ T : Shape, t.treeIs T ∧ T.symbols.Perm (leafSymbols s.freq) ∧ T.symbols.Nodup

/-- R131: BUILD never writes FREQ, and a second BUILD with unchanged FREQ builds the identical tree. That the arena entries from
NODES on, which are no part of the tree, are the same too is the model's choice (log 5). (Grant: log 1.) -/
def Obligations.BuildIsRepeatable : Prop :=
  ∀ (s t : State) (w : Word), s.phase = .busy w .start → 1 ≤ s.grant → exec .build s = .next t →
    t.freq = s.freq ∧
      ∃ u, exec .build (accept (encode .build) t) = .next u ∧ u.freq = t.freq ∧ u.arena = t.arena ∧ u.root = t.root ∧
        u.nodes = t.nodes ∧ u.leaves = t.leaves

/-! ### SER, DESER -/

/-- R201, R203: SER, CODES, ENC and DEC without a tree end in NO_TREE, and nothing else changes: no port transfer is made.
(Grant: log 1.) -/
def Obligations.NoTreeIsAnError : Prop :=
  ∀ (s : State) (w : Word) (i : Instr), i ∈ [Instr.ser, .codes, .enc, .dec] → s.phase = .busy w .start → 1 ≤ s.grant →
    s.treeValid = false →
    exec i s = .next { s with phase := .idle, done := true, err := true, errcode := 2, errinfo := 0 }

/-- R150: SER appends the tree's serialization to BO and ends. (Grant: log 1.) -/
def Obligations.SerWritesTree : Prop :=
  ∀ (s : State) (w : Word) (T : Shape), s.phase = .busy w .start → s.treeValid = true → T.heldAt s.arena s.root →
    s.boBits.length + T.bits.length ≤ s.depths.bo → T.bits.length + T.count + 2 ≤ s.grant →
    exec .ser s = .next { s with
      phase := .idle, done := true, boBits := s.boBits ++ T.bits, boCount := s.boCount + BitVec.ofNat 32 T.bits.length }

/-- R98, R51 (d): a tree of L leaves has 2L - 1 nodes and its stream 11L - 1 bits, so SER writes, and DESER takes, that many
(R144, R151). -/
def Obligations.SerializedLength : Prop :=
  (∀ T : Shape, T.count + 1 = 2 * T.leafCount ∧ T.bits.length + 1 = 11 * T.leafCount) ∧
    ∀ (s : State) (T : Shape), s.treeIs T → s.nodes.toNat + 1 = 2 * s.leaves.toNat ∧ 1 ≤ s.nodes.toNat ∧
      s.root.toNat < s.nodes.toNat ∧ T.bits.length + 1 = 11 * s.leaves.toNat

/-- R143, R146: DESER's engine steps do what the recursion `ReadNode` does, whatever the bits: the same outcome, the same error
in the same place, the same bits taken; on success the tree stands in the arena in preorder (R140), weights 0.
(Grant: log 1.) -/
def Obligations.DeserFollowsReadNode : Prop :=
  ∀ (s : State) (w : Word), s.phase = .busy w .start →
    s.biEod = true ∨ (∀ rest, readNode 514 0 s.biBits ≠ .failed .truncated 0 rest) →
    s.biBits.length - (readNode 514 0 s.biBits).rest.length + 1030 ≤ s.grant →
    ∃ a : Arena, exec .deser s = .next (deserOutcome s a (readNode 514 0 s.biBits)) ∧
      ∀ T n rest, readNode 514 0 s.biBits = .ok T n rest → arenaBlock a 0 (T.preorder 0)

/-- R143, R144, R148, R149: any complete stream of at most 513 nodes whose symbols are at most 256 is read, exactly its bits
are taken, and the arena, ROOT, NODES and LEAVES describe that tree in preorder. (Grant: log 1.) -/
def Obligations.DeserReadsSerializedTree : Prop :=
  ∀ (s : State) (w : Word) (T : Shape) (rest : BitSeq), s.phase = .busy w .start → s.biBits = T.bits ++ rest →
    T.count ≤ 513 → (∀ sym ∈ T.symbols, sym ≤ 256#9) → T.bits.length + 1030 ≤ s.grant →
    ∃ t : State, exec .deser s = .next t ∧
      t = { s with phase := .idle, done := true, treeValid := true, biBits := rest,
                   biCount := s.biCount + BitVec.ofNat 32 T.bits.length, root := 0, nodes := BitVec.ofNat 10 T.count,
                   leaves := BitVec.ofNat 10 T.leafCount, arena := t.arena } ∧
      arenaBlock t.arena 0 (T.preorder 0) ∧ t.treeIs T

/-- R142, R147: a stream that ends inside the tree is TRUNCATED: all its bits are taken, and no tree is left. (Grant: log 1.) -/
def Obligations.DeserTruncatedStream : Prop :=
  ∀ (s : State) (w : Word) (T : Shape) (more : BitSeq), s.phase = .busy w .start → s.biEod = true → more ≠ [] →
    s.biBits ++ more = T.bits → T.count ≤ 513 → (∀ sym ∈ T.symbols, sym ≤ 256#9) → s.biBits.length + 1030 ≤ s.grant →
    ∃ a : Arena, exec .deser s = .next { s with
      phase := .idle, done := true, err := true, errcode := 4, errinfo := 0, biBits := [],
      biCount := s.biCount + BitVec.ofNat 32 s.biBits.length, root := 0, nodes := 0, leaves := 0, arena := a }

/-- R145, R141: a leaf's field above 256, here the first leaf's after `k` internal nodes, is BAD_SYMBOL with ERRINFO the value,
after all nine bits are read; a stream of 513 internal nodes ends in TREE_OVERFLOW before the 514th flag is read, even at the
end mark. (Grant: log 1.) -/
def Obligations.DeserBadSymbolAndOverflow : Prop :=
  ∀ (s : State) (w : Word), s.phase = .busy w .start → 1600 ≤ s.grant →
    (∀ (k : Nat) (v : Symbol) (rest : BitSeq), k < 513 → 256#9 < v →
      s.biBits = List.replicate k true ++ false :: (List.range 9).map (fun j => v.getLsbD (8 - j)) ++ rest →
      ∃ a : Arena, exec .deser s = .next { s with
        phase := .idle, done := true, err := true, errcode := 5, errinfo := v, biBits := rest,
        biCount := s.biCount + BitVec.ofNat 32 (k + 10), root := 0, nodes := 0, leaves := 0, arena := a }) ∧
    (∀ rest : BitSeq, s.biBits = List.replicate 513 true ++ rest →
      ∃ a : Arena, exec .deser s = .next { s with
        phase := .idle, done := true, err := true, errcode := 6, errinfo := 0, biBits := rest,
        biCount := s.biCount + 513, root := 0, nodes := 0, leaves := 0, arena := a })

/-- R152: SER of a tree, then a DESER accepted with what SER wrote, followed by anything, in BI: the DESER completes without
error, takes exactly those bits, and the tree it leaves is the same. (That acceptance discards the old tree is
`CmdWriteWhileIdleIsAccepted`'s. Grant: log 1.) -/
def Obligations.SerThenDeserRebuildsTree : Prop :=
  ∀ (s t : State) (T : Shape) (w : Word) (z : BitSeq), s.phase = .busy w .start → s.treeValid = true → s.treeIs T →
    s.boBits = [] → 2826 ≤ s.depths.bo → 4096 ≤ s.grant → exec .ser s = .next t →
    t.phase = .idle ∧ t.boBits = T.bits ∧
      ∃ u : State,
        exec .deser (accept (encode .deser) { t with biBits := t.boBits ++ z, boBits := [] }) = .next u ∧
          u.phase = .idle ∧ u.done = true ∧ u.err = false ∧ u.treeValid = true ∧ u.treeIs T ∧ u.biBits = z ∧
          u.biCount = BitVec.ofNat 32 T.bits.length

/-! ### CODES, ENC, DEC -/

/-- R160, R162: CODES fills the code table with the paths of the tree's leaves, sets CODES_VALID and ends. (Grant: log 1.) -/
def Obligations.CodesBuildsTable : Prop :=
  ∀ (s : State) (w : Word) (T : Shape), s.phase = .busy w .start → 1 ≤ s.grant → s.treeValid = true → s.treeIs T →
    ∃ c : CodeTable, (∀ sym, codeAt c sym = T.codeOf sym) ∧
      exec .codes s = .next { s with phase := .idle, done := true, code := c, codesValid := true }

/-- R163, R161: while CODES_VALID holds, no codeword is a prefix of another symbol's, and none is longer than 256 bits. -/
def Obligations.CodewordsArePrefixFree : Prop :=
  ∀ s : State, ControlInv s → TreeInv s → CodesInv s → s.codesValid = true →
    ∀ (x y : Symbol) (p q : BitSeq), codeAt s.code x = some p → codeAt s.code y = some q →
      p.length ≤ 256 ∧ (x ≠ y → ¬ p <+: q)

/-- R166, R167: ENC writes the codewords of the bytes of YI in order, then END's, and ends; the end mark stays in YI.
(Grant: log 1.) -/
def Obligations.EncWritesPayload : Prop :=
  ∀ (s : State) (w : Word) (T : Shape) (p e : BitSeq), s.phase = .busy w .start → s.treeValid = true → s.treeIs T →
    s.yiEod = true → T.encode s.yiBytes = some p → T.codeOf 256#9 = some e →
    s.boBits.length + (p ++ e).length ≤ s.depths.bo → 2 * s.yiBytes.length + (p ++ e).length + 3 ≤ s.grant →
    exec .enc s = .next { s with
      phase := .idle, done := true, code := T.codeTable, codesValid := true, yiBytes := [],
      yiCount := s.yiCount + BitVec.ofNat 32 s.yiBytes.length, boBits := s.boBits ++ (p ++ e),
      boCount := s.boCount + BitVec.ofNat 32 (p ++ e).length }

/-- R168: a byte without a codeword is taken and ends ENC in NO_CODE with ERRINFO the byte; the codewords before it stay.
(Grant: log 1.) -/
def Obligations.EncNoCode : Prop :=
  ∀ (s : State) (w : Word) (T : Shape) (p e : BitSeq) (bs rest : List Byte) (x : Byte), s.phase = .busy w .start →
    s.treeValid = true → s.treeIs T → T.codeOf 256#9 = some e → s.yiBytes = bs ++ x :: rest → T.encode bs = some p →
    T.codeOf (x.setWidth 9) = none → s.boBits.length + p.length ≤ s.depths.bo → 2 * bs.length + p.length + 3 ≤ s.grant →
    exec .enc s = .next { s with
      phase := .idle, done := true, code := T.codeTable, codesValid := true, yiBytes := rest,
      yiCount := s.yiCount + BitVec.ofNat 32 (bs.length + 1), boBits := s.boBits ++ p,
      boCount := s.boCount + BitVec.ofNat 32 p.length, err := true, errcode := 7, errinfo := x.setWidth 9 }

/-- R169: a tree without END ends ENC in NO_END_CODE before any transfer; the code table is built. (Grant: log 1.) -/
def Obligations.EncNoEndCode : Prop :=
  ∀ (s : State) (w : Word) (T : Shape), s.phase = .busy w .start → 1 ≤ s.grant → s.treeValid = true → s.treeIs T →
    T.codeOf 256#9 = none →
    exec .enc s = .next { s with
      phase := .idle, done := true, code := T.codeTable, codesValid := true, err := true, errcode := 8, errinfo := 0 }

/-- R175, R177, R178: DEC on a tree with an internal root writes the bytes of the decoder's walks; it stops at END with
END_SEEN set and the bits after it still in BI, or at the end mark with END_SEEN unset and no error. (Grant: log 1.) -/
def Obligations.DecWritesDecodedBytes : Prop :=
  ∀ (s : State) (w : Word) (T : Shape), s.phase = .busy w .start → s.treeValid = true → s.treeIs T →
    (∀ sym, T ≠ .leaf sym) → (T.decode s.biBits).atEnd = true ∨ s.biEod = true →
    s.yoBytes.length + (T.decode s.biBits).bytes.length ≤ s.depths.yo →
    2 * (s.biBits.length - (T.decode s.biBits).rest.length) + 3 ≤ s.grant →
    exec .dec s = .next { s with
      phase := .idle, done := true, endSeen := s.endSeen || (T.decode s.biBits).atEnd, biBits := (T.decode s.biBits).rest,
      biCount := s.biCount + BitVec.ofNat 32 (s.biBits.length - (T.decode s.biBits).rest.length),
      yoBytes := s.yoBytes ++ (T.decode s.biBits).bytes,
      yoCount := s.yoCount + BitVec.ofNat 32 (T.decode s.biBits).bytes.length }

/-- R176: DEC on a leaf root takes no bit: END completes it with END_SEEN, any other symbol is BAD_ROOT with ERRINFO the
symbol. (Grant: log 1.) -/
def Obligations.DecDegenerateRoot : Prop :=
  ∀ (s : State) (w : Word) (sym : Symbol) (x : Weight), s.phase = .busy w .start → 1 ≤ s.grant → s.treeValid = true →
    arenaAt s.arena s.root = .leaf sym x →
    (sym = 256#9 → exec .dec s = .next { s with phase := .idle, done := true, endSeen := true }) ∧
    (sym ≠ 256#9 → exec .dec s = .next { s with
      phase := .idle, done := true, err := true, errcode := 9, errinfo := sym })

/-- R180, R97: the decoder's walks over a payload followed by anything give back the bytes and stop at END, for every tree with
an internal root, also one that holds a symbol in several leaves: decoding undoes encoding. (ENC and DEC write and read so:
`EncWritesPayload`, `DecWritesDecodedBytes`; a leaf root is `DecDegenerateRoot`'s.) -/
def Obligations.DecodeUndoesEncode : Prop :=
  ∀ (T : Shape) (bs : List Byte) (p e z : BitSeq), (∀ sym, T ≠ .leaf sym) → T.encode bs = some p →
    T.codeOf 256#9 = some e → T.decode (p ++ e ++ z) = { bytes := bs, atEnd := true, rest := z }

/-- R181: BUILD, SER, ENC, then DESER and DEC of what they wrote, followed by anything, on the machine: every command
completes without error, DEC writes the bytes and sees END, and what followed stays in BI. (Grant: log 1.) -/
def Obligations.BuildEncodeDecodeRoundTrip : Prop :=
  ∀ (s : State) (bs : List Byte) (z : BitSeq), s.phase = .idle → (∀ b ∈ bs, freqAt s.freq b ≠ 0) →
    2826 ≤ s.depths.bo → 256 * (bs.length + 1) ≤ s.depths.bo → s.yoBytes.length + bs.length ≤ s.depths.yo →
    5000 + 1000 * bs.length ≤ s.grant →
    ∃ s1 s2 s3 s4 s5 : State,
      exec .build (accept (encode .build) s) = .next s1 ∧
      exec .ser (accept (encode .ser) { s1 with boBits := [] }) = .next s2 ∧
      exec .enc (accept (encode .enc) { s2 with boBits := [], yiBytes := bs, yiEod := true }) = .next s3 ∧
      exec .deser (accept (encode .deser) { s3 with biBits := s2.boBits ++ s3.boBits ++ z }) = .next s4 ∧
      exec .dec (accept (encode .dec) s4) = .next s5 ∧
      (s1.phase = .idle ∧ s2.phase = .idle ∧ s3.phase = .idle ∧ s4.phase = .idle ∧ s5.phase = .idle) ∧
      (s1.err = false ∧ s2.err = false ∧ s3.err = false ∧ s4.err = false ∧ s5.err = false) ∧
      s5.yoBytes = s.yoBytes ++ bs ∧ s5.endSeen = true ∧ s5.biBits = z ∧
      s4.biCount = BitVec.ofNat 32 s2.boBits.length ∧ s5.biCount = BitVec.ofNat 32 s3.boBits.length

/-! ### Frames -/

/-- What no command changes: the registers only the host writes, OVR, CMD's readback, the end marks (R32, R41, R42, R77, R86),
and the model's own fields. FREQ is changed by CLR_FREQ alone (R40). -/
def Obligations.CommandsKeepHostRegisters : Prop :=
  ∀ (i : Instr) (s t : State), exec i s = .next t →
    t.irqEn = s.irqEn ∧ t.cmdLast = s.cmdLast ∧ t.ovr = s.ovr ∧ t.magic = s.magic ∧ t.nodeSel = s.nodeSel ∧
      t.codeSel = s.codeSel ∧ t.biEod = s.biEod ∧ t.yiEod = s.yiEod ∧ t.depths = s.depths ∧ t.turns = s.turns ∧
      t.cycle = s.cycle ∧ t.seen = s.seen ∧ t.draws = s.draws ∧ (i ≠ .clrFreq → t.freq = s.freq)

/-- What of the tree, the code table and END_SEEN a command changes: the tree by BUILD and DESER alone (R29, R37, R51), the
code table by CODES and ENC alone (R30, R55), END_SEEN by DEC alone (R31). -/
def Obligations.CommandsKeepTreeAndCodes : Prop :=
  ∀ (i : Instr) (s t : State), exec i s = .next t →
    (i ≠ .build → i ≠ .deser →
      t.arena = s.arena ∧ t.root = s.root ∧ t.nodes = s.nodes ∧ t.leaves = s.leaves ∧ t.treeValid = s.treeValid) ∧
    (i ≠ .codes → i ≠ .enc → t.code = s.code ∧ t.codesValid = s.codesValid) ∧
    (i ≠ .dec → t.endSeen = s.endSeen)

/-- What of the ports a command changes (R93, R41, R206): BI is read by DESER, DEC and MAGIC_CHK alone, YI by ENC alone, BO is
written by SER, ENC and MAGIC_WR alone, YO by DEC alone; input is taken from the head, output appended at the tail, and each
counter counts the items. -/
def Obligations.CommandsKeepOtherPorts : Prop :=
  ∀ (i : Instr) (s t : State), exec i s = .next t →
    (i ∉ [Instr.deser, .dec, .magicChk] → t.biBits = s.biBits ∧ t.biCount = s.biCount) ∧
    (i ≠ .enc → t.yiBytes = s.yiBytes ∧ t.yiCount = s.yiCount) ∧
    (i ∉ [Instr.ser, .enc, .magicWr] → t.boBits = s.boBits ∧ t.boCount = s.boCount) ∧
    (i ≠ .dec → t.yoBytes = s.yoBytes ∧ t.yoCount = s.yoCount) ∧
    (∃ p, s.biBits = p ++ t.biBits ∧ t.biCount = s.biCount + BitVec.ofNat 32 p.length) ∧
    (∃ p, s.yiBytes = p ++ t.yiBytes ∧ t.yiCount = s.yiCount + BitVec.ofNat 32 p.length) ∧
    (∃ p, t.boBits = s.boBits ++ p ∧ t.boCount = s.boCount + BitVec.ofNat 32 p.length) ∧
    (∃ p, t.yoBytes = s.yoBytes ++ p ∧ t.yoCount = s.yoCount + BitVec.ofNat 32 p.length)

/-- R204, R205, R83: the phase and the flags of a command's end: until it ends, DONE, ERR, ERRCODE and ERRINFO stay and the
engine is busy with the same word; when it ends, DONE is set, and ERR only with an error code. -/
def Obligations.CommandsEndOnce : Prop :=
  ∀ (i : Instr) (s t : State) (w : Word) (c : Cont), s.phase = .busy w c → exec i s = .next t →
    (∃ c', t.phase = .busy w c' ∧ t.done = s.done ∧ t.err = s.err ∧ t.errcode = s.errcode ∧ t.errinfo = s.errinfo) ∨
    (t.phase = .idle ∧ t.done = true ∧ t.err = s.err ∧ t.errcode = s.errcode ∧ t.errinfo = s.errinfo) ∨
    (t.phase = .idle ∧ t.done = true ∧ t.err = true ∧ 2 ≤ t.errcode ∧ t.errcode ≤ 9)

/-! ### Rules of the whole machine -/

/-- R29: no other event sets or clears TREE_VALID: a step sets it only when a BUILD or a DESER completes, and clears it only
when a BUILD or a DESER is accepted or by reset. -/
def Obligations.TreeValidChangesOnlyAsListed : Prop :=
  ∀ s t : State, ControlInv s → step s = .next t →
    (s.treeValid = false → t.treeValid = true →
      ∃ w c, s.phase = .busy w c ∧ (w = encode .build ∨ w = encode .deser) ∧ t.phase = .idle ∧ t.done = true ∧
        t.err = false) ∧
    (s.treeValid = true → t.treeValid = false →
      ∃ a rest, s.order = .host a :: rest ∧
        (a = .hardReset ∨ (∃ v, v.getLsbD 0 = true ∧ a = .regWrite Reg.ctrl.offset 4 v) ∨
          (s.phase = .idle ∧ ∃ v, (v = encode .build ∨ v = encode .deser) ∧ a = .regWrite Reg.cmd.offset 4 v)))

/-- R31: END_SEEN is set only by a DEC that ends without error. -/
def Obligations.EndSeenOnlyByDec : Prop :=
  ∀ s t : State, ControlInv s → step s = .next t → s.endSeen = false → t.endSeen = true →
    ∃ c, s.phase = .busy (encode .dec) c ∧ t.phase = .idle ∧ t.done = true ∧ t.err = false

/-- R32: OVR is set only by a busy-protected write made while busy, and cleared only by a write of 1 to STATUS bit 6 or by
reset. -/
def Obligations.OvrIsSticky : Prop :=
  ∀ s t : State, step s = .next t →
    (s.ovr = false → t.ovr = true →
      s.busy = true ∧ ∃ r v rest, s.order = .host (.regWrite (Reg.offset r) 4 v) :: rest ∧
        (r = .cmd ∨ r = .magic ∨ (∃ b, r = .freq b) ∨ (r = .ctrl ∧ (v.getLsbD 1 = true ∨ v.getLsbD 2 = true)))) ∧
    (s.ovr = true → t.ovr = false →
      ∃ a rest, s.order = .host a :: rest ∧
        (a = .hardReset ∨ (∃ v, v.getLsbD 0 = true ∧ a = .regWrite Reg.ctrl.offset 4 v) ∨
          ∃ v, v.getLsbD 6 = true ∧ a = .regWrite Reg.status.offset 4 v))

/-- R40, R86: FREQ changes only by a host write to it while idle, by the engine's end of a CLR_FREQ, and by reset; MAGIC only by
a host write to it while idle and by reset. -/
def Obligations.FreqAndMagicChangeOnlyAsListed : Prop :=
  ∀ s t : State, step s = .next t →
    (t.freq ≠ s.freq →
      ((∀ a rest, s.order ≠ .host a :: rest) ∧ (∃ c, s.phase = .busy (encode .clrFreq) c) ∧ t.phase = .idle ∧
        t.done = true) ∨
      ∃ a rest, s.order = .host a :: rest ∧
        (a = .hardReset ∨ (∃ v, v.getLsbD 0 = true ∧ a = .regWrite Reg.ctrl.offset 4 v) ∨
          (s.phase = .idle ∧ ∃ b v, a = .regWrite (Reg.freq b).offset 4 v))) ∧
    (t.magic ≠ s.magic →
      ∃ a rest, s.order = .host a :: rest ∧
        (a = .hardReset ∨ (∃ v, v.getLsbD 0 = true ∧ a = .regWrite Reg.ctrl.offset 4 v) ∨
          (s.phase = .idle ∧ ∃ v, a = .regWrite Reg.magic.offset 4 v)))

/-! ### Invariants -/

/-- The invariants hold at reset, whatever the port capacities (each at least 1). -/
def Obligations.ResetMeetsInvariants : Prop :=
  Inv State.reset ∧ ∀ d : Depths, 1 ≤ d.bi → 1 ≤ d.yi → 1 ≤ d.bo → 1 ≤ d.yo → Inv (State.powerOn d)

/-- Every step keeps the control invariant: ERRCODE stays a listed code and 0 without ERR, CODES_VALID implies TREE_VALID,
nothing is left of a tree or a table that is not valid (R28, R30, R34, R35, R37, R55, R201). -/
def Obligations.StepKeepsControlInv : Prop := ∀ s t : State, ControlInv s → step s = .next t → ControlInv t

/-- Every step keeps the queues within their capacities (R60, R61, R62, R74, R76). -/
def Obligations.StepKeepsQueueInv : Prop := ∀ s t : State, QueueInv s → step s = .next t → QueueInv t

/-- Every step keeps the tree invariant (R51), the code-table invariant (R56) and the others: the headline. -/
def Obligations.StepKeepsTreeAndCodeInvariants : Prop := ∀ s t : State, Inv s → step s = .next t → Inv t
end

