-- ==== Sys2Proof/Laws/Operands.lean ====
section
/-! SUPPORT. What the operand operations do: one lemma for each read after a write, and what the bits of a bit sequence are. -/

namespace Sys2Proof.Machine

/-! ### Bit sequences -/

@[simp] theorem bitsMsb_length {n : Nat} (v : BitVec n) : (bitsMsb v).length = n := by simp [bitsMsb]

theorem bitsMsb_getElem {n : Nat} (v : BitVec n) (k : Nat) (h : k < (bitsMsb v).length) :
    (bitsMsb v)[k] = v.getMsbD k := by simp [bitsMsb]

theorem shiftIn_getLsbD {n : Nat} (v : BitVec n) (b : Bool) (k : Nat) :
    (shiftIn v b).getLsbD k = (decide (k < n) && if k = 0 then b else v.getLsbD (k - 1)) := by
  unfold shiftIn
  rcases k with _ | k
  · by_cases hn : 0 < n <;> simp [hn]
  · by_cases hk : k + 1 < n
    · simp [hk, BitVec.getLsbD_eq_getElem (show k < n by omega)]
    · simp [hk]

/-- The bits of the value that `ReadBits` has accumulated: the last bit read is bit 0. -/
theorem foldl_shiftIn_getLsbD {n : Nat} (p : BitSeq) (v : BitVec n) (k : Nat) :
    (p.foldl shiftIn v).getLsbD k =
      (decide (k < n) && if k < p.length then p.getD (p.length - 1 - k) false else v.getLsbD (k - p.length)) := by
  induction p generalizing v with
  | nil => by_cases hk : k < n <;> simp [hk, BitVec.getLsbD_of_ge, Nat.le_of_not_lt]
  | cons b p ih =>
    rw [List.foldl_cons, ih, shiftIn_getLsbD]
    by_cases hk : k < n
    · rcases Nat.lt_trichotomy k p.length with h | h | h
      · have : p.length - k = (p.length - 1 - k) + 1 := by omega
        simp [hk, h, Nat.lt_succ_of_lt h, this]
      · subst h; simp [hk]; omega
      · have h1 : ¬ k < p.length := by omega
        have h2 : ¬ k < p.length + 1 := by omega
        have h3 : k - p.length ≠ 0 := by omega
        have h4 : k - p.length < n := by omega
        simp [hk, h1, h2, h3, h4, Nat.sub_sub]
    · simp [hk]

/-- Reading the N bits of `v` accumulates `v` (spec/20_memory.md R77, R80). -/
theorem foldl_shiftIn_bitsMsb {n : Nat} (v : BitVec n) : (bitsMsb v).foldl shiftIn 0 = v := by
  refine BitVec.eq_of_getLsbD_eq fun k hk => ?_
  rw [foldl_shiftIn_getLsbD, List.getD_eq_getElem _ _ (by simp; omega), bitsMsb_getElem]
  have e : n - 1 - (n - 1 - k) = k := by omega
  have h1 : n - 1 - k < n := by omega
  simp [hk, BitVec.getMsbD, e, h1]

/-- N bits accumulate to the value whose bits they are. -/
theorem bitsMsb_foldl_shiftIn {n : Nat} (p : BitSeq) (h : p.length = n) (v : BitVec n) :
    bitsMsb (p.foldl shiftIn v) = p := by
  refine List.ext_getElem (by simp [h]) fun k h1 h2 => ?_
  rw [bitsMsb_getElem, BitVec.getMsbD, foldl_shiftIn_getLsbD]
  have hk : k < n := by simpa using h1
  have e : p.length - 1 - (n - 1 - k) = k := by omega
  have h3 : n - 1 - k < n := by omega
  have h4 : n - 1 - k < p.length := by omega
  rw [e, List.getD_eq_getElem _ _ h2]
  simp [hk, h3, h4]

theorem packLsb_lt (n : Nat) (p : BitSeq) : packLsb n p < 2 ^ n := by
  induction n generalizing p with
  | zero => simp [packLsb]
  | succ n ih =>
    rcases p with _ | ⟨b, p⟩
    · simp [packLsb]
    · have := ih p
      have := Bool.toNat_le b
      simp only [packLsb, Nat.pow_succ]
      omega

theorem packLsb_testBit (n : Nat) (p : BitSeq) (k : Nat) :
    (packLsb n p).testBit k = (decide (k < n) && p.getD k false) := by
  induction n generalizing p k with
  | zero => simp [packLsb]
  | succ n ih =>
    rcases p with _ | ⟨b, p⟩
    · simp [packLsb]
    · rcases k with _ | k
      · cases b <;> simp [packLsb, Nat.testBit_zero]
      · have e : (b.toNat + 2 * packLsb n p) / 2 = packLsb n p := by
          have := Bool.toNat_le b
          omega
        simp [packLsb, Nat.testBit_succ, e, ih]

/-- Bit `k` of a word made from a list of bits. -/
theorem wordOfBits_getLsbD (p : BitSeq) (k : Nat) :
    (wordOfBits p).getLsbD k = (decide (k < 32) && p.getD k false) := by
  rw [wordOfBits, BitVec.getLsbD_ofNat, packLsb_testBit]
  by_cases h : k < 32 <;> simp [h]

/-! ### Reads after writes -/

theorem freqAt_freqSet (f : FreqTable) (b c : Byte) (v : Word) :
    freqAt (freqSet f b v) c = if c = b then v else freqAt f c := by
  by_cases h : c = b
  · subst h; simp [freqAt, freqSet]
  · have : b.toNat ≠ c.toNat := fun e => h (BitVec.eq_of_toNat_eq e.symm)
    simp [freqAt, freqSet, h, this]

@[simp] theorem freqAt_freqZero (b : Byte) : freqAt freqZero b = 0 := by simp [freqAt, freqZero]

theorem arenaAt_arenaSet (a : Arena) (i j : Idx) (n : Node) (hi : i.toNat < Config.nodeCap) :
    arenaAt (arenaSet a i n) j = if j = i then n else arenaAt a j := by
  by_cases h : j = i
  · subst h; simp [arenaAt, arenaSet, hi]
  · have : i.toNat ≠ j.toNat := fun e => h (BitVec.eq_of_toNat_eq e.symm)
    simp [arenaAt, arenaSet, h, this]

theorem codeAt_codeSet (t : CodeTable) (x y : Symbol) (e : CodeEntry) (hx : x.toNat < Config.nsym) :
    codeAt (codeSet t x e) y = if y = x then e else codeAt t y := by
  by_cases h : y = x
  · subst h; simp [codeAt, codeSet, hx]
  · have : x.toNat ≠ y.toNat := fun e => h (BitVec.eq_of_toNat_eq e.symm)
    simp [codeAt, codeSet, h, this]

@[simp] theorem codeAt_codeNone (x : Symbol) : codeAt codeNone x = none := by
  unfold codeAt codeNone
  by_cases h : x.toNat < Config.nsym <;> simp [h]

/-- There is no code-table entry above 256 (spec/10_state.md R39). -/
theorem codeAt_above (t : CodeTable) (x : Symbol) (h : Config.nsym ≤ x.toNat) : codeAt t x = none := by
  simp [codeAt, h]

/-- `arenaStore` writes the list from `i` on and nothing else. -/
theorem arenaStore_getElem? (ns : List Node) (a : Arena) (i k : Nat) :
    (arenaStore a i ns)[k]? =
      if i ≤ k ∧ k < i + ns.length ∧ k < Config.nodeCap then ns[k - i]? else a[k]? := by
  induction ns generalizing a i with
  | nil => simp [arenaStore]; omega
  | cons n ns ih =>
    rw [arenaStore, ih]
    by_cases h : i + 1 ≤ k ∧ k < i + 1 + ns.length ∧ k < Config.nodeCap
    · have h' : i ≤ k ∧ k < i + (n :: ns).length ∧ k < Config.nodeCap := by simp; omega
      rw [if_pos h, if_pos h']
      have : k - i = (k - (i + 1)) + 1 := by omega
      rw [this, List.getElem?_cons_succ]
    · rw [if_neg h, Vector.getElem?_setIfInBounds]
      by_cases hk : i = k
      · subst hk
        by_cases hc : i < Config.nodeCap <;> simp [hc]
      · rw [if_neg hk, if_neg]
        simp
        omega

/-- Storing a list that already stands there changes nothing. -/
theorem arenaStore_idem (ns : List Node) (a : Arena) (i : Nat) :
    arenaStore (arenaStore a i ns) i ns = arenaStore a i ns := by
  refine Vector.ext fun k hk => ?_
  have e : ∀ b : Arena, b[k]? = some b[k] := fun b => by simp [hk]
  have := arenaStore_getElem? ns (arenaStore a i ns) i k
  have h2 := arenaStore_getElem? ns a i k
  rw [e] at this h2
  split at this
  · rename_i h; rw [if_pos h] at h2; rw [← h2] at this; simpa using this
  · rw [e] at this; simpa using this

end Sys2Proof.Machine
end

