-- ==== Sys2Proof/Laws/BuildLoop.lean ====
section
/-! SUPPORT. BUILD's merge loop on the list of entries made so far: what every merge keeps, and what holds at its end. -/

namespace Sys2Proof.Machine

/-- The weight of entry `k`. -/
def weightIn (nodes : List Node) (k : Nat) : Nat := (nodes[k]?.getD Node.blank).weight.toNat

/-- Entry `k` is in the queue when entry `m` is made. -/
def queuedIn (nodes : List Node) (m k : Nat) : Prop := k < m ∧ ∀ j < m, ∀ l r x, nodes[j]? = some (.internal l r x) → l.toNat ≠ k ∧ r.toNat ≠ k

/-- The order of R124. -/
def precedesIn (nodes : List Node) (x y : Nat) : Prop := weightIn nodes x < weightIn nodes y ∨ (weightIn nodes x = weightIn nodes y ∧ x < y)

/-- Every internal entry joins the two least queued, in order, with their exact sum. -/
def MergesWell (nodes : List Node) : Prop := ∀ m l r x, nodes[m]? = some (.internal l r x) →
  queuedIn nodes m l.toNat ∧ queuedIn nodes m r.toNat ∧ precedesIn nodes l.toNat r.toNat ∧ (∀ k, queuedIn nodes m k → k ≠ l.toNat → k ≠ r.toNat → precedesIn nodes r.toNat k) ∧
  x.toNat = weightIn nodes l.toNat + weightIn nodes r.toNat

/-- The list holds the tree at entry `i`. -/
def heldIn (nodes : List Node) : Nat → Shape → Prop
  | i, .leaf sym => ∃ w, nodes[i]? = some (.leaf sym w)
  | i, .node l r => ∃ x y w, nodes[i]? = some (.internal x y w) ∧ heldIn nodes x.toNat l ∧ heldIn nodes y.toNat r

/-- The entries of the tree at `i`. -/
def entriesIn (nodes : List Node) : Nat → Shape → List Nat
  | i, .leaf _ => [i]
  | i, .node l r => match nodes[i]? with
    | some (.internal x y _) => i :: (entriesIn nodes x.toNat l ++ entriesIn nodes y.toNat r)
    | _ => [i]

/-- The weights in the queue, added up. -/
def queueSum (q : List QEntry) : Nat := (q.map fun e => e.weight.toNat).sum

/-- What every merge keeps. -/
structure MergeInv (S : Nat) (syms : List Sys2Proof.Symbol) (nodes : List Node) (q : List QEntry) : Prop where
  len : nodes.length + q.length ≤ 514
  ne : q ≠ []
  qa : ∀ k, queuedIn nodes nodes.length k ↔ ∃ e ∈ q, e.idx.toNat = k
  wt : ∀ e ∈ q, e.weight.toNat = weightIn nodes e.idx.toNat
  sorted : q.Pairwise fun x y => x.precedes y = true
  pp : MergesWell nodes
  sum : queueSum q = S
  forest : ∃ ts : List Shape, List.Forall₂ (fun e t => heldIn nodes e.idx.toNat t) q ts ∧
    ((q.zip ts).flatMap fun p => entriesIn nodes p.1.idx.toNat p.2).Perm (List.range nodes.length) ∧ (ts.flatMap Shape.symbols).Perm syms

theorem QEntry.precedes_iff {x y : QEntry} : x.precedes y = true ↔ x.weight.toNat < y.weight.toNat ∨ (x.weight.toNat = y.weight.toNat ∧ x.idx.toNat < y.idx.toNat) := by
  unfold QEntry.precedes
  simp only [Bool.or_eq_true, Bool.and_eq_true, decide_eq_true_eq, BitVec.lt_def, beq_iff_eq, BitVec.toNat_inj]

theorem QEntry.precedes_trans {x y z : QEntry} (h : x.precedes y = true) (k : y.precedes z = true) : x.precedes z = true := by
  rw [QEntry.precedes_iff] at *; omega

theorem QEntry.precedes_total {x y : QEntry} (h : ¬ x.precedes y = true) (hne : x.idx.toNat ≠ y.idx.toNat) : y.precedes x = true := by
  rw [QEntry.precedes_iff] at *; omega

theorem queueInsert_perm (e : QEntry) (q : List QEntry) : (queueInsert e q).Perm (e :: q) := by
  induction q with
  | nil => exact .refl _
  | cons x q ih =>
    unfold queueInsert; split
    · exact .refl _
    · exact (List.Perm.cons x ih).trans (.swap e x q)

theorem queueInsert_sorted (e : QEntry) (q : List QEntry) (hq : q.Pairwise fun x y => x.precedes y = true) (hne : ∀ x ∈ q, e.idx.toNat ≠ x.idx.toNat) :
    (queueInsert e q).Pairwise fun x y => x.precedes y = true := by
  induction q with
  | nil => simp [queueInsert]
  | cons x q ih =>
    rw [List.pairwise_cons] at hq
    unfold queueInsert; split
    · rename_i h
      rw [List.pairwise_cons]
      refine ⟨?_, List.pairwise_cons.mpr hq⟩
      intro y hy
      rcases List.mem_cons.mp hy with rfl | hy
      · exact h
      · exact QEntry.precedes_trans h (hq.1 y hy)
    · rename_i h
      rw [List.pairwise_cons]
      refine ⟨?_, ih hq.2 (fun y hy => hne y (by simp [hy]))⟩
      intro y hy
      rcases List.mem_cons.mp ((queueInsert_perm e q).mem_iff.mp hy) with rfl | hy
      · exact QEntry.precedes_total h (hne x (by simp))
      · exact hq.1 y hy

theorem getElem?_snoc {nodes : List Node} {n : Node} {k : Nat} (h : k < nodes.length) : (nodes ++ [n])[k]? = nodes[k]? := List.getElem?_append_left h

theorem weightIn_snoc {nodes : List Node} {n : Node} {k : Nat} (h : k < nodes.length) : weightIn (nodes ++ [n]) k = weightIn nodes k := by
  simp only [weightIn, getElem?_snoc h]

theorem queuedIn_snoc {nodes : List Node} {n : Node} {m k : Nat} (h : m ≤ nodes.length) : queuedIn (nodes ++ [n]) m k ↔ queuedIn nodes m k := by
  unfold queuedIn
  constructor
  · rintro ⟨h1, h2⟩; exact ⟨h1, fun j hj l r x he => h2 j hj l r x (by rw [getElem?_snoc (by omega)]; exact he)⟩
  · rintro ⟨h1, h2⟩; exact ⟨h1, fun j hj l r x he => h2 j hj l r x (by rw [getElem?_snoc (by omega)] at he; exact he)⟩

theorem heldIn_snoc {nodes : List Node} {n : Node} {i : Nat} {T : Shape} (h : heldIn nodes i T) : heldIn (nodes ++ [n]) i T ∧ entriesIn (nodes ++ [n]) i T = entriesIn nodes i T := by
  have lt : ∀ {j : Nat} {y : Node}, nodes[j]? = some y → (nodes ++ [n])[j]? = some y := by
    intro j y hj
    have : j < nodes.length := by
      by_contra hc; rw [List.getElem?_eq_none (by omega)] at hj; cases hj
    rw [getElem?_snoc this]; exact hj
  induction T generalizing i with
  | leaf sym => obtain ⟨w, h⟩ := h; exact ⟨⟨w, lt h⟩, rfl⟩
  | node l r hl hr =>
    obtain ⟨x, y, w, h1, h2, h3⟩ := h
    obtain ⟨a1, a2⟩ := hl h2; obtain ⟨b1, b2⟩ := hr h3
    refine ⟨⟨x, y, w, lt h1, a1, b1⟩, ?_⟩
    simp only [entriesIn, lt h1, h1, a2, b2]

theorem children_lt {nodes : List Node} (hp : MergesWell nodes) {m : Nat} {l r : Idx} {x : Weight} (h : nodes[m]? = some (.internal l r x)) : l.toNat < m ∧ r.toNat < m :=
  ⟨(hp m l r x h).1.1, (hp m l r x h).2.1.1⟩

theorem forall2_perm {α β} {R : α → β → Prop} {q q' : List α} {ts : List β} (h : List.Forall₂ R q ts) (hp : q.Perm q') :
   ∃ ts', List.Forall₂ R q' ts' ∧ (q.zip ts).Perm (q'.zip ts') ∧ ts.Perm ts' := by
  induction hp generalizing ts with
  | nil => cases h; exact ⟨[], .nil, .refl _, .refl _⟩
  | cons x _ ih =>
    cases h with
    | cons h1 h2 => obtain ⟨ts', a, b, c⟩ := ih h2; exact ⟨_, .cons h1 a, by simpa using b, by simpa using c⟩
  | swap x y l =>
    cases h with
    | cons h1 h2 => cases h2 with
      | cons h2 h3 => exact ⟨_, .cons h2 (.cons h1 h3), .swap _ _ _, .swap _ _ _⟩
  | trans _ _ ih1 ih2 =>
    obtain ⟨t1, a, b, c⟩ := ih1 h
    obtain ⟨t2, a', b', c'⟩ := ih2 a
    exact ⟨t2, a', b.trans b', c.trans c'⟩

/-- One merge (R123 to R125). -/
theorem mergeInv_merge {S syms nodes a b q} (hS : S < 2 ^ 40) (h : MergeInv S syms nodes (a :: b :: q)) :
    MergeInv S syms (nodes ++ [.internal a.idx b.idx (a.weight + b.weight)]) (queueInsert { weight := a.weight + b.weight, idx := BitVec.ofNat 10 nodes.length } q) := by
  have hlen := h.len
  simp only [List.length_cons] at hlen
  have hnmod : (BitVec.ofNat 10 nodes.length).toNat = nodes.length := by simp; omega
  have hsum := h.sum
  simp only [queueSum, List.map_cons, List.sum_cons] at hsum
  have hadd : (a.weight + b.weight).toNat = a.weight.toNat + b.weight.toNat := by rw [BitVec.toNat_add]; omega
  have hqlt : ∀ e ∈ a :: b :: q, e.idx.toNat < nodes.length := fun e he => ((h.qa e.idx.toNat).mpr ⟨e, he, rfl⟩).1
  have ha := hqlt a (by simp)
  have hb := hqlt b (by simp)
  have hs := h.sorted
  rw [List.pairwise_cons, List.pairwise_cons] at hs
  obtain ⟨hsa, hsb, hsq⟩ := hs
  have hprecne : ∀ x y : QEntry, x ∈ a :: b :: q → y ∈ a :: b :: q → x.precedes y = true → x.idx.toNat ≠ y.idx.toNat := by
    intro x y hx hy hxy he
    rw [QEntry.precedes_iff, h.wt x hx, h.wt y hy, he] at hxy; omega
  have hPrec : ∀ x y : QEntry, x ∈ a :: b :: q → y ∈ a :: b :: q → x.precedes y = true → precedesIn nodes x.idx.toNat y.idx.toNat := by
    intro x y hx hy hxy
    rw [QEntry.precedes_iff, h.wt x hx, h.wt y hy] at hxy; exact hxy
  have hperm := queueInsert_perm { weight := a.weight + b.weight, idx := BitVec.ofNat 10 nodes.length } q
  have hwnew : weightIn (nodes ++ [Node.internal a.idx b.idx (a.weight + b.weight)]) nodes.length = (a.weight + b.weight).toNat := by
    simp [weightIn, Node.weight]
  constructor
  · have := hperm.length_eq; simp at this ⊢; omega
  · intro hnil; have := hperm.length_eq; rw [hnil] at this; simp at this
  · intro k
    have hmem : (∃ e ∈ queueInsert { weight := a.weight + b.weight, idx := BitVec.ofNat 10 nodes.length } q, e.idx.toNat = k) ↔ (nodes.length = k ∨ ∃ e ∈ q, e.idx.toNat = k) := by
      constructor
      · rintro ⟨e, he, rfl⟩
        rcases List.mem_cons.mp (hperm.mem_iff.mp he) with rfl | he
        · left; exact hnmod.symm
        · exact .inr ⟨e, he, rfl⟩
      · rintro (rfl | ⟨e, he, rfl⟩)
        · exact ⟨_, hperm.mem_iff.mpr (List.mem_cons_self), hnmod⟩
        · exact ⟨e, hperm.mem_iff.mpr (List.mem_cons_of_mem _ he), rfl⟩
    rw [hmem]
    simp only [List.length_append, List.length_singleton]
    constructor
    · rintro ⟨h1, h2⟩
      by_cases hk : k = nodes.length
      · exact .inl hk.symm
      · right
        have hnew := h2 nodes.length (by omega) a.idx b.idx (a.weight + b.weight) (by simp)
        have : queuedIn nodes nodes.length k := ⟨by omega, fun j hj l r x he => h2 j (by omega) l r x (by rw [getElem?_snoc hj]; exact he)⟩
        obtain ⟨e, he, rfl⟩ := (h.qa k).mp this
        rcases List.mem_cons.mp he with rfl | he
        · exact absurd rfl hnew.1
        rcases List.mem_cons.mp he with rfl | he
        · exact absurd rfl hnew.2
        exact ⟨e, he, rfl⟩
    · rintro (rfl | ⟨e, he, rfl⟩)
      · refine ⟨by omega, ?_⟩
        intro j hj l r x hx
        by_cases hjl : j < nodes.length
        · rw [getElem?_snoc hjl] at hx
          have := children_lt h.pp hx; omega
        · have : j = nodes.length := by omega
          subst this; simp at hx; obtain ⟨rfl, rfl, _⟩ := hx; omega
      · have he' : e ∈ a :: b :: q := by simp [he]
        obtain ⟨h1, h2⟩ := (h.qa e.idx.toNat).mpr ⟨e, he', rfl⟩
        refine ⟨by omega, ?_⟩
        intro j hj l r x hx
        by_cases hjl : j < nodes.length
        · rw [getElem?_snoc hjl] at hx; exact h2 j hjl l r x hx
        · have : j = nodes.length := by omega
          subst this; simp at hx; obtain ⟨rfl, rfl, _⟩ := hx
          exact ⟨hprecne a e (by simp) he' (hsa e (by simp [he])), hprecne b e (by simp) he' (hsb e he)⟩
  · intro e he
    rcases List.mem_cons.mp (hperm.mem_iff.mp he) with rfl | he
    · simp only [hnmod, hwnew]
    · rw [weightIn_snoc (hqlt e (by simp [he]))]; exact h.wt e (by simp [he])
  · refine queueInsert_sorted _ _ hsq ?_
    intro x hx
    have := hqlt x (by simp [hx]); simp only [hnmod]; omega
  · intro m l r x hx
    by_cases hm : m < nodes.length
    · rw [getElem?_snoc hm] at hx
      obtain ⟨p1, p2, p3, p4, p5⟩ := h.pp m l r x hx
      have := p1.1; have := p2.1
      have tr : ∀ u v, u < nodes.length → v < nodes.length → (precedesIn nodes u v → precedesIn (nodes ++ [Node.internal a.idx b.idx (a.weight + b.weight)]) u v) := by
        intro u v hu hv hp; simpa only [precedesIn, weightIn_snoc hu, weightIn_snoc hv] using hp
      refine ⟨(queuedIn_snoc (by omega)).mpr p1, (queuedIn_snoc (by omega)).mpr p2, tr _ _ (by omega) (by omega) p3, ?_, ?_⟩
      · intro k hk h1 h2
        have hk := (queuedIn_snoc (by omega)).mp hk
        have := hk.1
        exact tr _ _ (by omega) (by omega) (p4 k hk h1 h2)
      · rw [weightIn_snoc (by omega), weightIn_snoc (by omega)]; exact p5
    · have : m = nodes.length := by
        by_contra hc; rw [List.getElem?_eq_none (by simp; omega)] at hx; cases hx
      subst this
      simp at hx; obtain ⟨rfl, rfl, rfl⟩ := hx
      have tr : ∀ u v, u < nodes.length → v < nodes.length → (precedesIn nodes u v → precedesIn (nodes ++ [Node.internal a.idx b.idx (a.weight + b.weight)]) u v) := by
        intro u v hu hv hp; simpa only [precedesIn, weightIn_snoc hu, weightIn_snoc hv] using hp
      refine ⟨(queuedIn_snoc (le_refl _)).mpr ((h.qa _).mpr ⟨a, by simp, rfl⟩), (queuedIn_snoc (le_refl _)).mpr ((h.qa _).mpr ⟨b, by simp, rfl⟩),
        tr _ _ ha hb (hPrec a b (by simp) (by simp) (hsa b (by simp))), ?_, ?_⟩
      · intro k hk h1 h2
        have hk := (queuedIn_snoc (le_refl _)).mp hk
        obtain ⟨e, he, rfl⟩ := (h.qa k).mp hk
        rcases List.mem_cons.mp he with rfl | he
        · exact absurd rfl h1
        rcases List.mem_cons.mp he with rfl | he
        · exact absurd rfl h2
        exact tr _ _ hb hk.1 (hPrec b e (by simp) (by simp [he]) (hsb e he))
      · rw [weightIn_snoc ha, weightIn_snoc hb, hadd, h.wt a (by simp), h.wt b (by simp)]
  · have := (hperm.map fun e => e.weight.toNat).sum_eq
    simp only [queueSum, this, List.map_cons, List.sum_cons, hadd]; omega
  · obtain ⟨ts0, f1, f2, f3⟩ := h.forest
    obtain ⟨ta, ts1, hta, f1, heq1⟩ := List.forall₂_cons_left_iff.mp f1
    obtain ⟨tb, ts, htb, f1, heq2⟩ := List.forall₂_cons_left_iff.mp f1
    rw [heq1, heq2] at f2 f3
    have ca := heldIn_snoc (n := Node.internal a.idx b.idx (a.weight + b.weight)) hta
    have cb := heldIn_snoc (n := Node.internal a.idx b.idx (a.weight + b.weight)) htb
    have hnew : (nodes ++ [Node.internal a.idx b.idx (a.weight + b.weight)])[nodes.length]? = some (Node.internal a.idx b.idx (a.weight + b.weight)) := by simp
    have g1 : List.Forall₂ (fun e t => heldIn (nodes ++ [Node.internal a.idx b.idx (a.weight + b.weight)]) e.idx.toNat t) 
       ({ weight := a.weight + b.weight, idx := BitVec.ofNat 10 nodes.length } :: q) (.node ta tb :: ts) := by
      refine .cons ?_ (f1.imp fun _ _ hh => (heldIn_snoc hh).1)
      simp only [hnmod]
      exact ⟨_, _, _, hnew, ca.1, cb.1⟩
    obtain ⟨ts', k1, k2, k3⟩ := forall2_perm g1 hperm.symm
    refine ⟨ts', k1, ?_, ?_⟩
    · refine (k2.symm.flatMap_right _).trans ?_
      simp only [List.zip_cons_cons, List.flatMap_cons, hnmod, entriesIn, hnew, ca.2, cb.2, List.length_append, List.length_singleton, List.range_succ]
      have e2 : ((q.zip ts).flatMap fun p => entriesIn (nodes ++ [Node.internal a.idx b.idx (a.weight + b.weight)]) p.1.idx.toNat p.2) = (q.zip ts).flatMap fun p => entriesIn nodes p.1.idx.toNat p.2 := by
        clear * - f1
        induction f1 with
        | nil => rfl
        | cons h1 h2 ih => simp only [List.zip_cons_cons, List.flatMap_cons, ih, (heldIn_snoc h1).2]
      rw [e2]
      simp only [List.zip_cons_cons, List.flatMap_cons] at f2
      rw [List.cons_append]
      refine (List.Perm.cons _ ?_).trans (List.perm_append_singleton _ _).symm
      simpa [List.append_assoc] using f2
    · refine (k3.symm.flatMap_right _).trans ?_
      simpa [List.flatMap_cons, Shape.symbols, List.append_assoc] using f3

/-- The whole loop. -/
theorem mergeLoop_inv {S syms} (hS : S < 2 ^ 40) (k : Nat) (nodes : List Node) (q : List QEntry) (h : MergeInv S syms nodes q) (hk : q.length ≤ k + 1) :
    MergeInv S syms (mergeLoop k nodes q).1 (mergeLoop k nodes q).2 ∧ (mergeLoop k nodes q).2.length = 1 ∧
    (mergeLoop k nodes q).1.length + 1 = nodes.length + q.length ∧ nodes <+: (mergeLoop k nodes q).1 ∧
    (∀ e ∈ (mergeLoop k nodes q).2, 2 ≤ q.length → e.idx.toNat + 1 = (mergeLoop k nodes q).1.length) ∧
    (∀ j, nodes.length ≤ j → j < (mergeLoop k nodes q).1.length → ∃ l r x, (mergeLoop k nodes q).1[j]? = some (.internal l r x)) := by
  have hq := h.ne
  induction k generalizing nodes q with
  | zero =>
    have hl : q.length = 1 := by
      have := List.length_pos_of_ne_nil hq; omega
    simp only [mergeLoop]
    exact ⟨h, hl, by omega, List.prefix_refl _, by omega, by omega⟩
  | succ k ih =>
    rcases q with _ | ⟨a, _ | ⟨b, q⟩⟩
    · exact absurd rfl hq
    · simp only [mergeLoop]
      exact ⟨h, by simp, by simp, List.prefix_refl _, by simp, by omega⟩
    · simp only [mergeLoop]
      have hs := mergeInv_merge hS h
      have hl := (queueInsert_perm { weight := a.weight + b.weight, idx := BitVec.ofNat 10 nodes.length } q).length_eq
      have hlen := h.len
      simp only [List.length_cons] at hl hk hlen
      obtain ⟨h1, h2, h3, h4, h5, h6⟩ := ih _ _ hs (by omega) hs.ne
      refine ⟨h1, h2, ?_, (List.prefix_append _ _).trans h4, ?_, ?_⟩
      · simp at h3 ⊢; omega
      · intro e he _
        by_cases hq2 : q = []
        · subst hq2
          simp only [queueInsert] at he h3 ⊢
          have hm : mergeLoop k (nodes ++ [Node.internal a.idx b.idx (a.weight + b.weight)]) [{ weight := a.weight + b.weight, idx := BitVec.ofNat 10 nodes.length }] = (nodes ++ [Node.internal a.idx b.idx (a.weight + b.weight)], [{ weight := a.weight + b.weight, idx := BitVec.ofNat 10 nodes.length }]) := by
            cases k <;> rfl
          rw [hm] at he ⊢
          simp at he; subst he
          simp; simp at hlen; omega
        · have := List.length_pos_of_ne_nil hq2
          exact h5 e he (by omega)
      · intro j hj hj2
        by_cases hjn : j = nodes.length
        · subst hjn
          obtain ⟨z, hz⟩ := h4
          refine ⟨a.idx, b.idx, a.weight + b.weight, ?_⟩
          rw [← hz]; simp
        · exact h6 j (by simp; omega) hj2

/-- The leaf set of the counts of the symbols `n`, `n + 1`, … -/
def symbolsFrom (n : Nat) (cs : List Word) : List Sys2Proof.Symbol := ((List.range cs.length).filter fun k => cs[k]?.getD 0 != 0).map (fun k => BitVec.ofNat 9 (n + k)) ++ [256#9]

theorem symbolsFrom_cons (n : Nat) (c : Word) (cs : List Word) :
    symbolsFrom n (c :: cs) = (if c = 0 then [] else [BitVec.ofNat 9 n]) ++ symbolsFrom (n + 1) cs := by
  unfold symbolsFrom
  rw [List.length_cons, List.range_succ_eq_map, List.filter_cons]
  by_cases hc : c = 0#32
  · simp [hc, List.filter_map, Function.comp_def, Nat.add_assoc, Nat.add_comm 1]
  · simp [hc, List.filter_map, Function.comp_def, Nat.add_assoc, Nat.add_comm 1]

/-- A leaf's symbol. -/
def Node.symbol : Node → Sys2Proof.Symbol
  | .leaf s _ => s
  | .internal _ _ _ => 0

theorem leavesFrom_eq (n : Nat) (cs : List Word) (hn : n + cs.length ≤ 256) :
    leavesFrom n cs = (symbolsFrom n cs).map fun sym => Node.leaf sym (if sym = 256#9 then 1 else (cs[sym.toNat - n]?.getD 0).setWidth 40) := by
  induction cs generalizing n with
  | nil => simp [leavesFrom, symbolsFrom, Config.endSymbol]
  | cons c cs ih =>
    simp only [List.length_cons] at hn
    rw [symbolsFrom_cons, List.map_append]
    have tail : (symbolsFrom (n+1) cs).map (fun sym => Node.leaf sym (if sym = 256#9 then 1 else (cs[sym.toNat - (n+1)]?.getD 0).setWidth 40)) =
       (symbolsFrom (n+1) cs).map (fun sym => Node.leaf sym (if sym = 256#9 then 1 else ((c :: cs)[sym.toNat - n]?.getD 0).setWidth 40)) := by
      refine List.map_congr_left fun sym hs => ?_
      by_cases h256 : sym = 256#9
      · simp [h256]
      · simp only [h256, if_false]
        unfold symbolsFrom at hs
        simp only [List.mem_append, List.mem_map, List.mem_filter, List.mem_range, List.mem_singleton, h256, or_false] at hs
        obtain ⟨k, ⟨hk, _⟩, rfl⟩ := hs
        have : (BitVec.ofNat 9 (n + 1 + k)).toNat = n + 1 + k := by simp; omega
        rw [this]
        have e : n + 1 + k - n = (n + 1 + k - (n + 1)) + 1 := by omega
        rw [e, List.getElem?_cons_succ]
    by_cases hc : c = 0
    · simp only [leavesFrom, hc, if_true, List.map_nil, List.nil_append]
      rw [ih (n+1) (by omega), tail, hc]
    · simp only [leavesFrom, hc, if_false, List.map_cons, List.map_nil, List.singleton_append]
      rw [ih (n+1) (by omega), tail]
      have h1 : (BitVec.ofNat 9 n).toNat = n := by simp; omega
      have h2 : BitVec.ofNat 9 n ≠ 256#9 := by intro h; have := congrArg BitVec.toNat h; simp at this; omega
      simp only [h1, h2, if_false, Nat.sub_self, List.getElem?_cons_zero, Option.getD_some]

theorem buildLeaves_eq (f : FreqTable) : buildLeaves f = (leafSymbols f).map fun sym => Node.leaf sym (leafWeight f sym) := by
  unfold buildLeaves
  rw [leavesFrom_eq 0 _ (by simp)]
  have e : symbolsFrom 0 f.toList = leafSymbols f := by
    unfold symbolsFrom leafSymbols
    simp
  rw [e]
  refine List.map_congr_left fun sym hs => ?_
  unfold leafWeight
  simp

theorem leafSymbols_length_le (f : FreqTable) : (leafSymbols f).length ≤ 257 := by
  unfold leafSymbols
  have := List.length_filter_le (fun k => f[k]?.getD 0 != 0) (List.range 256)
  simp at this ⊢; omega

theorem leafSymbols_length_pos (f : FreqTable) : 1 ≤ (leafSymbols f).length := by
  unfold leafSymbols; simp

theorem queueFrom_perm (i : Nat) (ns : List Node) : (queueFrom i ns).Perm ((ns.zipIdx i).map fun p => { weight := p.1.weight, idx := BitVec.ofNat 10 p.2 }) := by
  induction ns generalizing i with
  | nil => exact .refl _
  | cons n ns ih =>
    simp only [queueFrom, List.zipIdx_cons, List.map_cons]
    exact (queueInsert_perm _ _).trans (.cons _ (ih (i+1)))

theorem queueFrom_sorted (i : Nat) (ns : List Node) (h : i + ns.length ≤ 1024) : (queueFrom i ns).Pairwise fun x y => x.precedes y = true := by
  induction ns generalizing i with
  | nil => simp [queueFrom]
  | cons n ns ih =>
    simp only [List.length_cons] at h
    refine queueInsert_sorted _ _ (ih (i+1) (by omega)) ?_
    intro x hx
    have := (queueFrom_perm (i+1) ns).mem_iff.mp hx
    simp only [List.mem_map] at this
    obtain ⟨⟨n', j⟩, hp, rfl⟩ := this
    have := List.mem_zipIdx hp
    simp at this ⊢; omega

theorem leavesFrom_weights (n : Nat) (cs : List Word) (hn : n + cs.length ≤ 256) : ((leavesFrom n cs).map fun x => x.weight.toNat).sum = 1 + (cs.map BitVec.toNat).sum := by
  induction cs generalizing n with
  | nil => simp [leavesFrom, Node.weight]
  | cons c cs ih =>
    simp only [List.length_cons] at hn
    by_cases hc : c = 0
    · simp [leavesFrom, hc, ih (n+1) (by omega)]
    · have e1 : (Node.leaf (BitVec.ofNat 9 n) (c.setWidth 40)).weight.toNat = c.toNat := by
        have := c.isLt
        simp [Node.weight]; omega
      simp only [leavesFrom, hc, if_false, List.map_cons, List.sum_cons, ih (n+1) (by omega), e1]
      omega

theorem counts_sum_le (cs : List Word) : (cs.map BitVec.toNat).sum ≤ cs.length * (2^32 - 1) := by
  induction cs with
  | nil => simp
  | cons c cs ih =>
    have := c.isLt
    simp only [List.map_cons, List.sum_cons, List.length_cons]
    omega

/-- One more than the sum of all FREQ. -/
def freqSum (f : FreqTable) : Nat := 1 + (f.toList.map BitVec.toNat).sum

theorem freqSum_lt (f : FreqTable) : freqSum f < 2 ^ 40 := by
  have := counts_sum_le f.toList
  simp at this
  unfold freqSum; omega

/-- The leaves and their queue (R121 to R124). -/
theorem mergeInv_leaves (f : FreqTable) : MergeInv (freqSum f) (leafSymbols f) (buildLeaves f) (queueFrom 0 (buildLeaves f)) := by
  have hL := leafSymbols_length_le f
  have hL0 := leafSymbols_length_pos f
  have hlen : (buildLeaves f).length = (leafSymbols f).length := by rw [buildLeaves_eq]; simp
  have hperm := queueFrom_perm 0 (buildLeaves f)
  have hleaf : ∀ (k : Nat) (n : Node), (buildLeaves f)[k]? = some n → ∃ sym w, n = Node.leaf sym w := by
    intro k n h
    rw [buildLeaves_eq, List.getElem?_map] at h
    rcases h' : (leafSymbols f)[k]? with _ | sym <;> rw [h'] at h
    · cases h
    · exact ⟨_, _, (by simpa using h.symm)⟩
  have hqa : ∀ k, queuedIn (buildLeaves f) (buildLeaves f).length k ↔ k < (buildLeaves f).length := by
    intro k
    refine ⟨fun h => h.1, fun h => ⟨h, ?_⟩⟩
    intro j _ l r x hj
    obtain ⟨_, _, h⟩ := hleaf j _ hj
    cases h
  have hmem : ∀ e, e ∈ queueFrom 0 (buildLeaves f) ↔ ∃ k, k < (buildLeaves f).length ∧ e = { weight := ((buildLeaves f)[k]?.getD Node.blank).weight, idx := BitVec.ofNat 10 k } := by
    intro e
    rw [hperm.mem_iff, List.mem_map]
    constructor
    · rintro ⟨⟨n, k⟩, hp, rfl⟩
      rw [List.mem_zipIdx_iff_getElem?] at hp
      simp only at hp
      have : k < (buildLeaves f).length := by
        by_contra hc; rw [List.getElem?_eq_none (by omega)] at hp; cases hp
      exact ⟨k, this, by simp [hp]⟩
    · rintro ⟨k, hk, rfl⟩
      refine ⟨((buildLeaves f)[k], k), ?_, by simp [hk]⟩
      rw [List.mem_zipIdx_iff_getElem?]; simp [hk]
  have hmod : ∀ k, k < (buildLeaves f).length → (BitVec.ofNat 10 k).toNat = k := by intro k hk; simp; omega
  have hql : (queueFrom 0 (buildLeaves f)).length = (buildLeaves f).length := by
    rw [hperm.length_eq]; simp
  constructor
  · omega
  · intro h; rw [h] at hql; simp at hql; omega
  · intro k
    rw [hqa]
    constructor
    · intro h; exact ⟨_, (hmem _).mpr ⟨k, h, rfl⟩, hmod k h⟩
    · rintro ⟨e, he, rfl⟩
      obtain ⟨k, hk, rfl⟩ := (hmem e).mp he
      rw [hmod k hk]; exact hk
  · intro e he
    obtain ⟨k, hk, rfl⟩ := (hmem e).mp he
    simp only [hmod k hk, weightIn]
  · exact queueFrom_sorted 0 _ (by omega)
  · intro m l r x hm
    obtain ⟨_, _, h⟩ := hleaf m _ hm
    cases h
  · have := (hperm.map fun e => e.weight.toNat).sum_eq
    unfold queueSum
    rw [this, List.map_map]
    have e : (List.map ((fun e => e.weight.toNat) ∘ fun p => ({ weight := p.1.weight, idx := BitVec.ofNat 10 p.2 } : QEntry)) ((buildLeaves f).zipIdx 0)) = (buildLeaves f).map fun x => x.weight.toNat := by
      have : ((fun e : QEntry => e.weight.toNat) ∘ fun p : Node × Nat => ({ weight := p.1.weight, idx := BitVec.ofNat 10 p.2 } : QEntry)) = (fun x : Node => x.weight.toNat) ∘ Prod.fst := rfl
      rw [this, ← List.map_map, List.zipIdx_map_fst]
    rw [e, buildLeaves, leavesFrom_weights 0 _ (by simp)]; rfl
  · -- forest
    have g1 : List.Forall₂ (fun (e : QEntry) t => heldIn (buildLeaves f) e.idx.toNat t)
       ((((buildLeaves f).zipIdx 0).map fun p => { weight := p.1.weight, idx := BitVec.ofNat 10 p.2 }))
       (((buildLeaves f).zipIdx 0).map fun p => Shape.leaf (Node.symbol p.1)) := by
      rw [List.forall₂_map_left_iff, List.forall₂_map_right_iff, List.forall₂_same]
      rintro ⟨n, k⟩ hp
      rw [List.mem_zipIdx_iff_getElem?] at hp
      simp only at hp
      have hk : k < (buildLeaves f).length := by
        by_contra hc; rw [List.getElem?_eq_none (by omega)] at hp; cases hp
      obtain ⟨sym, w, rfl⟩ := hleaf k n hp
      exact ⟨w, by rw [hmod k hk]; exact hp⟩
    obtain ⟨ts', k1, k2, k3⟩ := forall2_perm g1 hperm.symm
    refine ⟨ts', k1, ?_, ?_⟩
    · refine (k2.symm.flatMap_right _).trans ?_
      rw [List.zip_map', List.flatMap_map]
      simp only [entriesIn]
      rw [List.range_eq_range', ← List.zipIdx_map_snd (l := buildLeaves f) (i := 0)]
      refine .of_eq ?_
      rw [← List.map_eq_flatMap]
      refine List.map_congr_left fun p hp => ?_
      obtain ⟨n, k⟩ := p
      rw [List.mem_zipIdx_iff_getElem?] at hp
      simp only at hp
      have hk : k < (buildLeaves f).length := by
        by_contra hc; rw [List.getElem?_eq_none (by omega)] at hp; cases hp
      exact hmod k hk
    · refine (k3.symm.flatMap_right _).trans ?_
      rw [List.flatMap_map]
      simp only [Shape.symbols]
      rw [← List.map_eq_flatMap]
      have : (fun p : Node × Nat => Node.symbol p.1) = Node.symbol ∘ Prod.fst := rfl
      rw [this, ← List.map_map, List.zipIdx_map_fst, buildLeaves_eq, List.map_map]
      refine .of_eq ?_
      conv_rhs => rw [← List.map_id (leafSymbols f)]
      rfl

/-- The list BUILD stores in the arena. -/
theorem buildTree_facts (f : FreqTable) : ∃ e : QEntry, (buildTree f).2 = [e] ∧ MergeInv (freqSum f) (leafSymbols f) (buildTree f).1 [e] ∧
    (buildTree f).1.length + 1 = 2 * (leafSymbols f).length ∧ e.idx.toNat + 1 = (buildTree f).1.length ∧
    (∀ k, (h : k < (leafSymbols f).length) → (buildTree f).1[k]? = some (.leaf ((leafSymbols f)[k]) (leafWeight f ((leafSymbols f)[k])))) ∧
    (∀ k, (leafSymbols f).length ≤ k → k < (buildTree f).1.length → ∃ l r x, (buildTree f).1[k]? = some (.internal l r x)) := by
  have hi := mergeInv_leaves f
  have hlen : (buildLeaves f).length = (leafSymbols f).length := by rw [buildLeaves_eq]; simp
  have hql : (queueFrom 0 (buildLeaves f)).length = (buildLeaves f).length := by
    rw [(queueFrom_perm 0 (buildLeaves f)).length_eq]; simp
  obtain ⟨h1, h2, h3, h4, h5, h6⟩ := mergeLoop_inv (freqSum_lt f) (buildLeaves f).length _ _ hi (by omega)
  have hbt : mergeLoop (buildLeaves f).length (buildLeaves f) (queueFrom 0 (buildLeaves f)) = buildTree f := rfl
  rw [hbt] at h1 h2 h3 h4 h5 h6
  obtain ⟨e, he⟩ := List.length_eq_one_iff.mp h2
  rw [he] at h1
  have hLpos := leafSymbols_length_pos f
  refine ⟨e, he, h1, by omega, ?_, ?_, fun k hk hk' => h6 k (by omega) hk'⟩
  · by_cases hL : (leafSymbols f).length = 1
    · have := (h1.qa e.idx.toNat).mpr ⟨e, by simp, rfl⟩
      have := this.1
      omega
    · exact h5 e (by rw [he]; simp) (by omega)
  · intro k hk
    obtain ⟨z, hz⟩ := h4
    rw [← hz, List.getElem?_append_left (by omega), buildLeaves_eq]
    simp [hk]

theorem heldAt_of_heldIn {a : Arena} {nodes : List Node} (hg : ∀ k, k < nodes.length → a[k]? = nodes[k]?) {T : Shape} {i : Idx} (h : heldIn nodes i.toNat T) :
    T.heldAt a i ∧ T.entries a i = entriesIn nodes i.toNat T := by
  have lt : ∀ {j : Nat} {y : Node}, nodes[j]? = some y → a[j]? = some y := by
    intro j y hj
    have : j < nodes.length := by
      by_contra hc; rw [List.getElem?_eq_none (by omega)] at hj; cases hj
    rw [hg j this]; exact hj
  induction T generalizing i with
  | leaf sym => obtain ⟨w, h⟩ := h; exact ⟨⟨w, by simp [arenaAt, lt h]⟩, rfl⟩
  | node l r hl hr =>
    obtain ⟨x, y, w, h1, h2, h3⟩ := h
    obtain ⟨a1, a2⟩ := hl h2; obtain ⟨b1, b2⟩ := hr h3
    have ha : arenaAt a i = .internal x y w := by simp [arenaAt, lt h1]
    refine ⟨⟨x, y, w, ha, a1, b1⟩, ?_⟩
    simp only [Shape.entries, ha, entriesIn, h1, a2, b2]

theorem leafSymbols_nodup (f : FreqTable) : (leafSymbols f).Nodup := by
  unfold leafSymbols
  rw [List.nodup_append]
  refine ⟨?_, by simp, ?_⟩
  · refine (List.Nodup.filter _ List.nodup_range).map_on ?_
    intro x hx y hy h
    have h1 := List.mem_range.mp (List.mem_filter.mp hx).1
    have h2 := List.mem_range.mp (List.mem_filter.mp hy).1
    have := congrArg BitVec.toNat h
    simp at this; omega
  · intro a ha b hb
    simp at hb; subst hb
    rw [List.mem_map] at ha
    obtain ⟨k, hk, rfl⟩ := ha
    have h1 := List.mem_range.mp (List.mem_filter.mp hk).1
    intro h
    have := congrArg BitVec.toNat h
    simp at this; omega

theorem leafSymbols_le (f : FreqTable) : ∀ sym ∈ leafSymbols f, sym ≤ 256#9 := by
  intro sym hs
  unfold leafSymbols at hs
  rw [List.mem_append] at hs
  rcases hs with hs | hs
  · rw [List.mem_map] at hs
    obtain ⟨k, hk, rfl⟩ := hs
    have h1 := List.mem_range.mp (List.mem_filter.mp hk).1
    rw [BitVec.le_def]; simp; omega
  · simp at hs; subst hs; exact BitVec.le_refl _

end Sys2Proof.Machine
end

