-- ==== Sys2Proof/Laws/Bus.lean ====
section
/-! SUPPORT. The register map: every register stands at its own offset, and a defined write reaches it. -/

namespace Sys2Proof.Machine

theorem regAt_offset : ∀ r : Reg, regAt r.offset = some r := by
  intro r
  cases r
  case codeBits j => revert j; decide
  case freq b => revert b; decide +kernel
  all_goals rfl

theorem offset_aligned : ∀ r : Reg, r.offset.toNat % 4 = 0 := by
  intro r
  cases r
  case codeBits j => revert j; decide
  case freq b => revert b; decide +kernel
  all_goals rfl

/-- A defined write of a register at its offset (spec/20_memory.md R70, R71). -/
theorem hostStep_regWrite (r : Reg) (v : Word) (s : State) : hostStep (.regWrite r.offset 4 v) s = .next (writeReg r v s) := by
  have := offset_aligned r
  simp [hostStep, accessDefined, this, regWrite, regAt_offset]

end Sys2Proof.Machine
end

