-- ==== Sys2Proof/Laws/State.lean ====
section
/-! SUPPORT. One lemma per field for each shared update of the state, true by unfolding the update once, so that no later
proof unfolds a record update. -/

namespace Sys2Proof.Machine

/-! ### complete: `complete()` (spec/60_exceptions.md R204) -/

section
variable (s : State)
@[simp] theorem complete_phase : (complete s).phase = .idle := rfl
@[simp] theorem complete_irqEn : (complete s).irqEn = s.irqEn := rfl
@[simp] theorem complete_cmdLast : (complete s).cmdLast = s.cmdLast := rfl
@[simp] theorem complete_done : (complete s).done = true := rfl
@[simp] theorem complete_err : (complete s).err = s.err := rfl
@[simp] theorem complete_treeValid : (complete s).treeValid = s.treeValid := rfl
@[simp] theorem complete_codesValid : (complete s).codesValid = s.codesValid := rfl
@[simp] theorem complete_endSeen : (complete s).endSeen = s.endSeen := rfl
@[simp] theorem complete_ovr : (complete s).ovr = s.ovr := rfl
@[simp] theorem complete_errcode : (complete s).errcode = s.errcode := rfl
@[simp] theorem complete_errinfo : (complete s).errinfo = s.errinfo := rfl
@[simp] theorem complete_magic : (complete s).magic = s.magic := rfl
@[simp] theorem complete_root : (complete s).root = s.root := rfl
@[simp] theorem complete_nodes : (complete s).nodes = s.nodes := rfl
@[simp] theorem complete_leaves : (complete s).leaves = s.leaves := rfl
@[simp] theorem complete_nodeSel : (complete s).nodeSel = s.nodeSel := rfl
@[simp] theorem complete_codeSel : (complete s).codeSel = s.codeSel := rfl
@[simp] theorem complete_arena : (complete s).arena = s.arena := rfl
@[simp] theorem complete_code : (complete s).code = s.code := rfl
@[simp] theorem complete_freq : (complete s).freq = s.freq := rfl
@[simp] theorem complete_biCount : (complete s).biCount = s.biCount := rfl
@[simp] theorem complete_boCount : (complete s).boCount = s.boCount := rfl
@[simp] theorem complete_yiCount : (complete s).yiCount = s.yiCount := rfl
@[simp] theorem complete_yoCount : (complete s).yoCount = s.yoCount := rfl
@[simp] theorem complete_biBits : (complete s).biBits = s.biBits := rfl
@[simp] theorem complete_biEod : (complete s).biEod = s.biEod := rfl
@[simp] theorem complete_yiBytes : (complete s).yiBytes = s.yiBytes := rfl
@[simp] theorem complete_yiEod : (complete s).yiEod = s.yiEod := rfl
@[simp] theorem complete_boBits : (complete s).boBits = s.boBits := rfl
@[simp] theorem complete_yoBytes : (complete s).yoBytes = s.yoBytes := rfl
@[simp] theorem complete_depths : (complete s).depths = s.depths := rfl
@[simp] theorem complete_turns : (complete s).turns = s.turns := rfl
@[simp] theorem complete_cycle : (complete s).cycle = s.cycle := rfl
@[simp] theorem complete_seen : (complete s).seen = s.seen := rfl
@[simp] theorem complete_draws : (complete s).draws = s.draws := rfl
end

/-! ### raiseError: `raise Error` (spec/60_exceptions.md R205) -/

section
variable (e : ErrCode) (x : BitVec 9) (s : State)
@[simp] theorem raiseError_phase : (raiseError e x s).phase = .idle := rfl
@[simp] theorem raiseError_irqEn : (raiseError e x s).irqEn = s.irqEn := rfl
@[simp] theorem raiseError_cmdLast : (raiseError e x s).cmdLast = s.cmdLast := rfl
@[simp] theorem raiseError_done : (raiseError e x s).done = true := rfl
@[simp] theorem raiseError_err : (raiseError e x s).err = true := rfl
@[simp] theorem raiseError_treeValid : (raiseError e x s).treeValid = s.treeValid := rfl
@[simp] theorem raiseError_codesValid : (raiseError e x s).codesValid = s.codesValid := rfl
@[simp] theorem raiseError_endSeen : (raiseError e x s).endSeen = s.endSeen := rfl
@[simp] theorem raiseError_ovr : (raiseError e x s).ovr = s.ovr := rfl
@[simp] theorem raiseError_errcode : (raiseError e x s).errcode = e.number := rfl
@[simp] theorem raiseError_errinfo : (raiseError e x s).errinfo = x := rfl
@[simp] theorem raiseError_magic : (raiseError e x s).magic = s.magic := rfl
@[simp] theorem raiseError_root : (raiseError e x s).root = s.root := rfl
@[simp] theorem raiseError_nodes : (raiseError e x s).nodes = s.nodes := rfl
@[simp] theorem raiseError_leaves : (raiseError e x s).leaves = s.leaves := rfl
@[simp] theorem raiseError_nodeSel : (raiseError e x s).nodeSel = s.nodeSel := rfl
@[simp] theorem raiseError_codeSel : (raiseError e x s).codeSel = s.codeSel := rfl
@[simp] theorem raiseError_arena : (raiseError e x s).arena = s.arena := rfl
@[simp] theorem raiseError_code : (raiseError e x s).code = s.code := rfl
@[simp] theorem raiseError_freq : (raiseError e x s).freq = s.freq := rfl
@[simp] theorem raiseError_biCount : (raiseError e x s).biCount = s.biCount := rfl
@[simp] theorem raiseError_boCount : (raiseError e x s).boCount = s.boCount := rfl
@[simp] theorem raiseError_yiCount : (raiseError e x s).yiCount = s.yiCount := rfl
@[simp] theorem raiseError_yoCount : (raiseError e x s).yoCount = s.yoCount := rfl
@[simp] theorem raiseError_biBits : (raiseError e x s).biBits = s.biBits := rfl
@[simp] theorem raiseError_biEod : (raiseError e x s).biEod = s.biEod := rfl
@[simp] theorem raiseError_yiBytes : (raiseError e x s).yiBytes = s.yiBytes := rfl
@[simp] theorem raiseError_yiEod : (raiseError e x s).yiEod = s.yiEod := rfl
@[simp] theorem raiseError_boBits : (raiseError e x s).boBits = s.boBits := rfl
@[simp] theorem raiseError_yoBytes : (raiseError e x s).yoBytes = s.yoBytes := rfl
@[simp] theorem raiseError_depths : (raiseError e x s).depths = s.depths := rfl
@[simp] theorem raiseError_turns : (raiseError e x s).turns = s.turns := rfl
@[simp] theorem raiseError_cycle : (raiseError e x s).cycle = s.cycle := rfl
@[simp] theorem raiseError_seen : (raiseError e x s).seen = s.seen := rfl
@[simp] theorem raiseError_draws : (raiseError e x s).draws = s.draws := rfl
end

/-! ### goTo: the engine's move to a continuation -/

section
variable (c : Cont) (s : State)
@[simp] theorem goTo_phase : (goTo c s).phase = s.phase.moveTo c := rfl
@[simp] theorem goTo_irqEn : (goTo c s).irqEn = s.irqEn := rfl
@[simp] theorem goTo_cmdLast : (goTo c s).cmdLast = s.cmdLast := rfl
@[simp] theorem goTo_done : (goTo c s).done = s.done := rfl
@[simp] theorem goTo_err : (goTo c s).err = s.err := rfl
@[simp] theorem goTo_treeValid : (goTo c s).treeValid = s.treeValid := rfl
@[simp] theorem goTo_codesValid : (goTo c s).codesValid = s.codesValid := rfl
@[simp] theorem goTo_endSeen : (goTo c s).endSeen = s.endSeen := rfl
@[simp] theorem goTo_ovr : (goTo c s).ovr = s.ovr := rfl
@[simp] theorem goTo_errcode : (goTo c s).errcode = s.errcode := rfl
@[simp] theorem goTo_errinfo : (goTo c s).errinfo = s.errinfo := rfl
@[simp] theorem goTo_magic : (goTo c s).magic = s.magic := rfl
@[simp] theorem goTo_root : (goTo c s).root = s.root := rfl
@[simp] theorem goTo_nodes : (goTo c s).nodes = s.nodes := rfl
@[simp] theorem goTo_leaves : (goTo c s).leaves = s.leaves := rfl
@[simp] theorem goTo_nodeSel : (goTo c s).nodeSel = s.nodeSel := rfl
@[simp] theorem goTo_codeSel : (goTo c s).codeSel = s.codeSel := rfl
@[simp] theorem goTo_arena : (goTo c s).arena = s.arena := rfl
@[simp] theorem goTo_code : (goTo c s).code = s.code := rfl
@[simp] theorem goTo_freq : (goTo c s).freq = s.freq := rfl
@[simp] theorem goTo_biCount : (goTo c s).biCount = s.biCount := rfl
@[simp] theorem goTo_boCount : (goTo c s).boCount = s.boCount := rfl
@[simp] theorem goTo_yiCount : (goTo c s).yiCount = s.yiCount := rfl
@[simp] theorem goTo_yoCount : (goTo c s).yoCount = s.yoCount := rfl
@[simp] theorem goTo_biBits : (goTo c s).biBits = s.biBits := rfl
@[simp] theorem goTo_biEod : (goTo c s).biEod = s.biEod := rfl
@[simp] theorem goTo_yiBytes : (goTo c s).yiBytes = s.yiBytes := rfl
@[simp] theorem goTo_yiEod : (goTo c s).yiEod = s.yiEod := rfl
@[simp] theorem goTo_boBits : (goTo c s).boBits = s.boBits := rfl
@[simp] theorem goTo_yoBytes : (goTo c s).yoBytes = s.yoBytes := rfl
@[simp] theorem goTo_depths : (goTo c s).depths = s.depths := rfl
@[simp] theorem goTo_turns : (goTo c s).turns = s.turns := rfl
@[simp] theorem goTo_cycle : (goTo c s).cycle = s.cycle := rfl
@[simp] theorem goTo_seen : (goTo c s).seen = s.seen := rfl
@[simp] theorem goTo_draws : (goTo c s).draws = s.draws := rfl
end

/-! ### dropTurn: a turn taken -/

section
variable (s : State)
@[simp] theorem dropTurn_phase : (dropTurn s).phase = s.phase := rfl
@[simp] theorem dropTurn_irqEn : (dropTurn s).irqEn = s.irqEn := rfl
@[simp] theorem dropTurn_cmdLast : (dropTurn s).cmdLast = s.cmdLast := rfl
@[simp] theorem dropTurn_done : (dropTurn s).done = s.done := rfl
@[simp] theorem dropTurn_err : (dropTurn s).err = s.err := rfl
@[simp] theorem dropTurn_treeValid : (dropTurn s).treeValid = s.treeValid := rfl
@[simp] theorem dropTurn_codesValid : (dropTurn s).codesValid = s.codesValid := rfl
@[simp] theorem dropTurn_endSeen : (dropTurn s).endSeen = s.endSeen := rfl
@[simp] theorem dropTurn_ovr : (dropTurn s).ovr = s.ovr := rfl
@[simp] theorem dropTurn_errcode : (dropTurn s).errcode = s.errcode := rfl
@[simp] theorem dropTurn_errinfo : (dropTurn s).errinfo = s.errinfo := rfl
@[simp] theorem dropTurn_magic : (dropTurn s).magic = s.magic := rfl
@[simp] theorem dropTurn_root : (dropTurn s).root = s.root := rfl
@[simp] theorem dropTurn_nodes : (dropTurn s).nodes = s.nodes := rfl
@[simp] theorem dropTurn_leaves : (dropTurn s).leaves = s.leaves := rfl
@[simp] theorem dropTurn_nodeSel : (dropTurn s).nodeSel = s.nodeSel := rfl
@[simp] theorem dropTurn_codeSel : (dropTurn s).codeSel = s.codeSel := rfl
@[simp] theorem dropTurn_arena : (dropTurn s).arena = s.arena := rfl
@[simp] theorem dropTurn_code : (dropTurn s).code = s.code := rfl
@[simp] theorem dropTurn_freq : (dropTurn s).freq = s.freq := rfl
@[simp] theorem dropTurn_biCount : (dropTurn s).biCount = s.biCount := rfl
@[simp] theorem dropTurn_boCount : (dropTurn s).boCount = s.boCount := rfl
@[simp] theorem dropTurn_yiCount : (dropTurn s).yiCount = s.yiCount := rfl
@[simp] theorem dropTurn_yoCount : (dropTurn s).yoCount = s.yoCount := rfl
@[simp] theorem dropTurn_biBits : (dropTurn s).biBits = s.biBits := rfl
@[simp] theorem dropTurn_biEod : (dropTurn s).biEod = s.biEod := rfl
@[simp] theorem dropTurn_yiBytes : (dropTurn s).yiBytes = s.yiBytes := rfl
@[simp] theorem dropTurn_yiEod : (dropTurn s).yiEod = s.yiEod := rfl
@[simp] theorem dropTurn_boBits : (dropTurn s).boBits = s.boBits := rfl
@[simp] theorem dropTurn_yoBytes : (dropTurn s).yoBytes = s.yoBytes := rfl
@[simp] theorem dropTurn_depths : (dropTurn s).depths = s.depths := rfl
@[simp] theorem dropTurn_turns : (dropTurn s).turns = s.order.tail := rfl
@[simp] theorem dropTurn_cycle : (dropTurn s).cycle = s.cycle := rfl
@[simp] theorem dropTurn_seen : (dropTurn s).seen = s.seen := rfl
@[simp] theorem dropTurn_draws : (dropTurn s).draws = s.draws := rfl
end

/-! ### inform: the host is told something -/

section
variable (x : Seen) (s : State)
@[simp] theorem inform_phase : (inform x s).phase = s.phase := rfl
@[simp] theorem inform_irqEn : (inform x s).irqEn = s.irqEn := rfl
@[simp] theorem inform_cmdLast : (inform x s).cmdLast = s.cmdLast := rfl
@[simp] theorem inform_done : (inform x s).done = s.done := rfl
@[simp] theorem inform_err : (inform x s).err = s.err := rfl
@[simp] theorem inform_treeValid : (inform x s).treeValid = s.treeValid := rfl
@[simp] theorem inform_codesValid : (inform x s).codesValid = s.codesValid := rfl
@[simp] theorem inform_endSeen : (inform x s).endSeen = s.endSeen := rfl
@[simp] theorem inform_ovr : (inform x s).ovr = s.ovr := rfl
@[simp] theorem inform_errcode : (inform x s).errcode = s.errcode := rfl
@[simp] theorem inform_errinfo : (inform x s).errinfo = s.errinfo := rfl
@[simp] theorem inform_magic : (inform x s).magic = s.magic := rfl
@[simp] theorem inform_root : (inform x s).root = s.root := rfl
@[simp] theorem inform_nodes : (inform x s).nodes = s.nodes := rfl
@[simp] theorem inform_leaves : (inform x s).leaves = s.leaves := rfl
@[simp] theorem inform_nodeSel : (inform x s).nodeSel = s.nodeSel := rfl
@[simp] theorem inform_codeSel : (inform x s).codeSel = s.codeSel := rfl
@[simp] theorem inform_arena : (inform x s).arena = s.arena := rfl
@[simp] theorem inform_code : (inform x s).code = s.code := rfl
@[simp] theorem inform_freq : (inform x s).freq = s.freq := rfl
@[simp] theorem inform_biCount : (inform x s).biCount = s.biCount := rfl
@[simp] theorem inform_boCount : (inform x s).boCount = s.boCount := rfl
@[simp] theorem inform_yiCount : (inform x s).yiCount = s.yiCount := rfl
@[simp] theorem inform_yoCount : (inform x s).yoCount = s.yoCount := rfl
@[simp] theorem inform_biBits : (inform x s).biBits = s.biBits := rfl
@[simp] theorem inform_biEod : (inform x s).biEod = s.biEod := rfl
@[simp] theorem inform_yiBytes : (inform x s).yiBytes = s.yiBytes := rfl
@[simp] theorem inform_yiEod : (inform x s).yiEod = s.yiEod := rfl
@[simp] theorem inform_boBits : (inform x s).boBits = s.boBits := rfl
@[simp] theorem inform_yoBytes : (inform x s).yoBytes = s.yoBytes := rfl
@[simp] theorem inform_depths : (inform x s).depths = s.depths := rfl
@[simp] theorem inform_turns : (inform x s).turns = s.turns := rfl
@[simp] theorem inform_cycle : (inform x s).cycle = s.cycle := rfl
@[simp] theorem inform_seen : (inform x s).seen = s.seen ++ [x] := rfl
@[simp] theorem inform_draws : (inform x s).draws = s.draws := rfl
end

/-! ### acceptFlags: the flags at acceptance (spec/30_encoding.md R90) -/

section
variable (s : State)
@[simp] theorem acceptFlags_phase : (acceptFlags s).phase = s.phase := rfl
@[simp] theorem acceptFlags_irqEn : (acceptFlags s).irqEn = s.irqEn := rfl
@[simp] theorem acceptFlags_cmdLast : (acceptFlags s).cmdLast = s.cmdLast := rfl
@[simp] theorem acceptFlags_done : (acceptFlags s).done = false := rfl
@[simp] theorem acceptFlags_err : (acceptFlags s).err = false := rfl
@[simp] theorem acceptFlags_treeValid : (acceptFlags s).treeValid = s.treeValid := rfl
@[simp] theorem acceptFlags_codesValid : (acceptFlags s).codesValid = s.codesValid := rfl
@[simp] theorem acceptFlags_endSeen : (acceptFlags s).endSeen = false := rfl
@[simp] theorem acceptFlags_ovr : (acceptFlags s).ovr = s.ovr := rfl
@[simp] theorem acceptFlags_errcode : (acceptFlags s).errcode = 0 := rfl
@[simp] theorem acceptFlags_errinfo : (acceptFlags s).errinfo = 0 := rfl
@[simp] theorem acceptFlags_magic : (acceptFlags s).magic = s.magic := rfl
@[simp] theorem acceptFlags_root : (acceptFlags s).root = s.root := rfl
@[simp] theorem acceptFlags_nodes : (acceptFlags s).nodes = s.nodes := rfl
@[simp] theorem acceptFlags_leaves : (acceptFlags s).leaves = s.leaves := rfl
@[simp] theorem acceptFlags_nodeSel : (acceptFlags s).nodeSel = s.nodeSel := rfl
@[simp] theorem acceptFlags_codeSel : (acceptFlags s).codeSel = s.codeSel := rfl
@[simp] theorem acceptFlags_arena : (acceptFlags s).arena = s.arena := rfl
@[simp] theorem acceptFlags_code : (acceptFlags s).code = s.code := rfl
@[simp] theorem acceptFlags_freq : (acceptFlags s).freq = s.freq := rfl
@[simp] theorem acceptFlags_biCount : (acceptFlags s).biCount = 0 := rfl
@[simp] theorem acceptFlags_boCount : (acceptFlags s).boCount = 0 := rfl
@[simp] theorem acceptFlags_yiCount : (acceptFlags s).yiCount = 0 := rfl
@[simp] theorem acceptFlags_yoCount : (acceptFlags s).yoCount = 0 := rfl
@[simp] theorem acceptFlags_biBits : (acceptFlags s).biBits = s.biBits := rfl
@[simp] theorem acceptFlags_biEod : (acceptFlags s).biEod = s.biEod := rfl
@[simp] theorem acceptFlags_yiBytes : (acceptFlags s).yiBytes = s.yiBytes := rfl
@[simp] theorem acceptFlags_yiEod : (acceptFlags s).yiEod = s.yiEod := rfl
@[simp] theorem acceptFlags_boBits : (acceptFlags s).boBits = s.boBits := rfl
@[simp] theorem acceptFlags_yoBytes : (acceptFlags s).yoBytes = s.yoBytes := rfl
@[simp] theorem acceptFlags_depths : (acceptFlags s).depths = s.depths := rfl
@[simp] theorem acceptFlags_turns : (acceptFlags s).turns = s.turns := rfl
@[simp] theorem acceptFlags_cycle : (acceptFlags s).cycle = s.cycle := rfl
@[simp] theorem acceptFlags_seen : (acceptFlags s).seen = s.seen := rfl
@[simp] theorem acceptFlags_draws : (acceptFlags s).draws = s.draws := rfl
end

/-! ### discardTree: the tree discarded at acceptance -/

section
variable (s : State)
@[simp] theorem discardTree_phase : (discardTree s).phase = s.phase := rfl
@[simp] theorem discardTree_irqEn : (discardTree s).irqEn = s.irqEn := rfl
@[simp] theorem discardTree_cmdLast : (discardTree s).cmdLast = s.cmdLast := rfl
@[simp] theorem discardTree_done : (discardTree s).done = s.done := rfl
@[simp] theorem discardTree_err : (discardTree s).err = s.err := rfl
@[simp] theorem discardTree_treeValid : (discardTree s).treeValid = false := rfl
@[simp] theorem discardTree_codesValid : (discardTree s).codesValid = false := rfl
@[simp] theorem discardTree_endSeen : (discardTree s).endSeen = s.endSeen := rfl
@[simp] theorem discardTree_ovr : (discardTree s).ovr = s.ovr := rfl
@[simp] theorem discardTree_errcode : (discardTree s).errcode = s.errcode := rfl
@[simp] theorem discardTree_errinfo : (discardTree s).errinfo = s.errinfo := rfl
@[simp] theorem discardTree_magic : (discardTree s).magic = s.magic := rfl
@[simp] theorem discardTree_root : (discardTree s).root = 0 := rfl
@[simp] theorem discardTree_nodes : (discardTree s).nodes = 0 := rfl
@[simp] theorem discardTree_leaves : (discardTree s).leaves = 0 := rfl
@[simp] theorem discardTree_nodeSel : (discardTree s).nodeSel = s.nodeSel := rfl
@[simp] theorem discardTree_codeSel : (discardTree s).codeSel = s.codeSel := rfl
@[simp] theorem discardTree_arena : (discardTree s).arena = s.arena := rfl
@[simp] theorem discardTree_code : (discardTree s).code = codeNone := rfl
@[simp] theorem discardTree_freq : (discardTree s).freq = s.freq := rfl
@[simp] theorem discardTree_biCount : (discardTree s).biCount = s.biCount := rfl
@[simp] theorem discardTree_boCount : (discardTree s).boCount = s.boCount := rfl
@[simp] theorem discardTree_yiCount : (discardTree s).yiCount = s.yiCount := rfl
@[simp] theorem discardTree_yoCount : (discardTree s).yoCount = s.yoCount := rfl
@[simp] theorem discardTree_biBits : (discardTree s).biBits = s.biBits := rfl
@[simp] theorem discardTree_biEod : (discardTree s).biEod = s.biEod := rfl
@[simp] theorem discardTree_yiBytes : (discardTree s).yiBytes = s.yiBytes := rfl
@[simp] theorem discardTree_yiEod : (discardTree s).yiEod = s.yiEod := rfl
@[simp] theorem discardTree_boBits : (discardTree s).boBits = s.boBits := rfl
@[simp] theorem discardTree_yoBytes : (discardTree s).yoBytes = s.yoBytes := rfl
@[simp] theorem discardTree_depths : (discardTree s).depths = s.depths := rfl
@[simp] theorem discardTree_turns : (discardTree s).turns = s.turns := rfl
@[simp] theorem discardTree_cycle : (discardTree s).cycle = s.cycle := rfl
@[simp] theorem discardTree_seen : (discardTree s).seen = s.seen := rfl
@[simp] theorem discardTree_draws : (discardTree s).draws = s.draws := rfl
end

/-! ### dropWrite: a dropped write (spec/10_state.md R42) -/

section
variable (s : State)
@[simp] theorem dropWrite_phase : (dropWrite s).phase = s.phase := rfl
@[simp] theorem dropWrite_irqEn : (dropWrite s).irqEn = s.irqEn := rfl
@[simp] theorem dropWrite_cmdLast : (dropWrite s).cmdLast = s.cmdLast := rfl
@[simp] theorem dropWrite_done : (dropWrite s).done = s.done := rfl
@[simp] theorem dropWrite_err : (dropWrite s).err = s.err := rfl
@[simp] theorem dropWrite_treeValid : (dropWrite s).treeValid = s.treeValid := rfl
@[simp] theorem dropWrite_codesValid : (dropWrite s).codesValid = s.codesValid := rfl
@[simp] theorem dropWrite_endSeen : (dropWrite s).endSeen = s.endSeen := rfl
@[simp] theorem dropWrite_ovr : (dropWrite s).ovr = true := rfl
@[simp] theorem dropWrite_errcode : (dropWrite s).errcode = s.errcode := rfl
@[simp] theorem dropWrite_errinfo : (dropWrite s).errinfo = s.errinfo := rfl
@[simp] theorem dropWrite_magic : (dropWrite s).magic = s.magic := rfl
@[simp] theorem dropWrite_root : (dropWrite s).root = s.root := rfl
@[simp] theorem dropWrite_nodes : (dropWrite s).nodes = s.nodes := rfl
@[simp] theorem dropWrite_leaves : (dropWrite s).leaves = s.leaves := rfl
@[simp] theorem dropWrite_nodeSel : (dropWrite s).nodeSel = s.nodeSel := rfl
@[simp] theorem dropWrite_codeSel : (dropWrite s).codeSel = s.codeSel := rfl
@[simp] theorem dropWrite_arena : (dropWrite s).arena = s.arena := rfl
@[simp] theorem dropWrite_code : (dropWrite s).code = s.code := rfl
@[simp] theorem dropWrite_freq : (dropWrite s).freq = s.freq := rfl
@[simp] theorem dropWrite_biCount : (dropWrite s).biCount = s.biCount := rfl
@[simp] theorem dropWrite_boCount : (dropWrite s).boCount = s.boCount := rfl
@[simp] theorem dropWrite_yiCount : (dropWrite s).yiCount = s.yiCount := rfl
@[simp] theorem dropWrite_yoCount : (dropWrite s).yoCount = s.yoCount := rfl
@[simp] theorem dropWrite_biBits : (dropWrite s).biBits = s.biBits := rfl
@[simp] theorem dropWrite_biEod : (dropWrite s).biEod = s.biEod := rfl
@[simp] theorem dropWrite_yiBytes : (dropWrite s).yiBytes = s.yiBytes := rfl
@[simp] theorem dropWrite_yiEod : (dropWrite s).yiEod = s.yiEod := rfl
@[simp] theorem dropWrite_boBits : (dropWrite s).boBits = s.boBits := rfl
@[simp] theorem dropWrite_yoBytes : (dropWrite s).yoBytes = s.yoBytes := rfl
@[simp] theorem dropWrite_depths : (dropWrite s).depths = s.depths := rfl
@[simp] theorem dropWrite_turns : (dropWrite s).turns = s.turns := rfl
@[simp] theorem dropWrite_cycle : (dropWrite s).cycle = s.cycle := rfl
@[simp] theorem dropWrite_seen : (dropWrite s).seen = s.seen := rfl
@[simp] theorem dropWrite_draws : (dropWrite s).draws = s.draws := rfl
end

/-! ### clearDone: DONE cleared -/

section
variable (s : State)
@[simp] theorem clearDone_phase : (clearDone s).phase = s.phase := rfl
@[simp] theorem clearDone_irqEn : (clearDone s).irqEn = s.irqEn := rfl
@[simp] theorem clearDone_cmdLast : (clearDone s).cmdLast = s.cmdLast := rfl
@[simp] theorem clearDone_done : (clearDone s).done = false := rfl
@[simp] theorem clearDone_err : (clearDone s).err = s.err := rfl
@[simp] theorem clearDone_treeValid : (clearDone s).treeValid = s.treeValid := rfl
@[simp] theorem clearDone_codesValid : (clearDone s).codesValid = s.codesValid := rfl
@[simp] theorem clearDone_endSeen : (clearDone s).endSeen = s.endSeen := rfl
@[simp] theorem clearDone_ovr : (clearDone s).ovr = s.ovr := rfl
@[simp] theorem clearDone_errcode : (clearDone s).errcode = s.errcode := rfl
@[simp] theorem clearDone_errinfo : (clearDone s).errinfo = s.errinfo := rfl
@[simp] theorem clearDone_magic : (clearDone s).magic = s.magic := rfl
@[simp] theorem clearDone_root : (clearDone s).root = s.root := rfl
@[simp] theorem clearDone_nodes : (clearDone s).nodes = s.nodes := rfl
@[simp] theorem clearDone_leaves : (clearDone s).leaves = s.leaves := rfl
@[simp] theorem clearDone_nodeSel : (clearDone s).nodeSel = s.nodeSel := rfl
@[simp] theorem clearDone_codeSel : (clearDone s).codeSel = s.codeSel := rfl
@[simp] theorem clearDone_arena : (clearDone s).arena = s.arena := rfl
@[simp] theorem clearDone_code : (clearDone s).code = s.code := rfl
@[simp] theorem clearDone_freq : (clearDone s).freq = s.freq := rfl
@[simp] theorem clearDone_biCount : (clearDone s).biCount = s.biCount := rfl
@[simp] theorem clearDone_boCount : (clearDone s).boCount = s.boCount := rfl
@[simp] theorem clearDone_yiCount : (clearDone s).yiCount = s.yiCount := rfl
@[simp] theorem clearDone_yoCount : (clearDone s).yoCount = s.yoCount := rfl
@[simp] theorem clearDone_biBits : (clearDone s).biBits = s.biBits := rfl
@[simp] theorem clearDone_biEod : (clearDone s).biEod = s.biEod := rfl
@[simp] theorem clearDone_yiBytes : (clearDone s).yiBytes = s.yiBytes := rfl
@[simp] theorem clearDone_yiEod : (clearDone s).yiEod = s.yiEod := rfl
@[simp] theorem clearDone_boBits : (clearDone s).boBits = s.boBits := rfl
@[simp] theorem clearDone_yoBytes : (clearDone s).yoBytes = s.yoBytes := rfl
@[simp] theorem clearDone_depths : (clearDone s).depths = s.depths := rfl
@[simp] theorem clearDone_turns : (clearDone s).turns = s.turns := rfl
@[simp] theorem clearDone_cycle : (clearDone s).cycle = s.cycle := rfl
@[simp] theorem clearDone_seen : (clearDone s).seen = s.seen := rfl
@[simp] theorem clearDone_draws : (clearDone s).draws = s.draws := rfl
end

/-! ### clearErr: ERR cleared -/

section
variable (s : State)
@[simp] theorem clearErr_phase : (clearErr s).phase = s.phase := rfl
@[simp] theorem clearErr_irqEn : (clearErr s).irqEn = s.irqEn := rfl
@[simp] theorem clearErr_cmdLast : (clearErr s).cmdLast = s.cmdLast := rfl
@[simp] theorem clearErr_done : (clearErr s).done = s.done := rfl
@[simp] theorem clearErr_err : (clearErr s).err = false := rfl
@[simp] theorem clearErr_treeValid : (clearErr s).treeValid = s.treeValid := rfl
@[simp] theorem clearErr_codesValid : (clearErr s).codesValid = s.codesValid := rfl
@[simp] theorem clearErr_endSeen : (clearErr s).endSeen = s.endSeen := rfl
@[simp] theorem clearErr_ovr : (clearErr s).ovr = s.ovr := rfl
@[simp] theorem clearErr_errcode : (clearErr s).errcode = 0 := rfl
@[simp] theorem clearErr_errinfo : (clearErr s).errinfo = 0 := rfl
@[simp] theorem clearErr_magic : (clearErr s).magic = s.magic := rfl
@[simp] theorem clearErr_root : (clearErr s).root = s.root := rfl
@[simp] theorem clearErr_nodes : (clearErr s).nodes = s.nodes := rfl
@[simp] theorem clearErr_leaves : (clearErr s).leaves = s.leaves := rfl
@[simp] theorem clearErr_nodeSel : (clearErr s).nodeSel = s.nodeSel := rfl
@[simp] theorem clearErr_codeSel : (clearErr s).codeSel = s.codeSel := rfl
@[simp] theorem clearErr_arena : (clearErr s).arena = s.arena := rfl
@[simp] theorem clearErr_code : (clearErr s).code = s.code := rfl
@[simp] theorem clearErr_freq : (clearErr s).freq = s.freq := rfl
@[simp] theorem clearErr_biCount : (clearErr s).biCount = s.biCount := rfl
@[simp] theorem clearErr_boCount : (clearErr s).boCount = s.boCount := rfl
@[simp] theorem clearErr_yiCount : (clearErr s).yiCount = s.yiCount := rfl
@[simp] theorem clearErr_yoCount : (clearErr s).yoCount = s.yoCount := rfl
@[simp] theorem clearErr_biBits : (clearErr s).biBits = s.biBits := rfl
@[simp] theorem clearErr_biEod : (clearErr s).biEod = s.biEod := rfl
@[simp] theorem clearErr_yiBytes : (clearErr s).yiBytes = s.yiBytes := rfl
@[simp] theorem clearErr_yiEod : (clearErr s).yiEod = s.yiEod := rfl
@[simp] theorem clearErr_boBits : (clearErr s).boBits = s.boBits := rfl
@[simp] theorem clearErr_yoBytes : (clearErr s).yoBytes = s.yoBytes := rfl
@[simp] theorem clearErr_depths : (clearErr s).depths = s.depths := rfl
@[simp] theorem clearErr_turns : (clearErr s).turns = s.turns := rfl
@[simp] theorem clearErr_cycle : (clearErr s).cycle = s.cycle := rfl
@[simp] theorem clearErr_seen : (clearErr s).seen = s.seen := rfl
@[simp] theorem clearErr_draws : (clearErr s).draws = s.draws := rfl
end

/-! ### clearOvr: OVR cleared -/

section
variable (s : State)
@[simp] theorem clearOvr_phase : (clearOvr s).phase = s.phase := rfl
@[simp] theorem clearOvr_irqEn : (clearOvr s).irqEn = s.irqEn := rfl
@[simp] theorem clearOvr_cmdLast : (clearOvr s).cmdLast = s.cmdLast := rfl
@[simp] theorem clearOvr_done : (clearOvr s).done = s.done := rfl
@[simp] theorem clearOvr_err : (clearOvr s).err = s.err := rfl
@[simp] theorem clearOvr_treeValid : (clearOvr s).treeValid = s.treeValid := rfl
@[simp] theorem clearOvr_codesValid : (clearOvr s).codesValid = s.codesValid := rfl
@[simp] theorem clearOvr_endSeen : (clearOvr s).endSeen = s.endSeen := rfl
@[simp] theorem clearOvr_ovr : (clearOvr s).ovr = false := rfl
@[simp] theorem clearOvr_errcode : (clearOvr s).errcode = s.errcode := rfl
@[simp] theorem clearOvr_errinfo : (clearOvr s).errinfo = s.errinfo := rfl
@[simp] theorem clearOvr_magic : (clearOvr s).magic = s.magic := rfl
@[simp] theorem clearOvr_root : (clearOvr s).root = s.root := rfl
@[simp] theorem clearOvr_nodes : (clearOvr s).nodes = s.nodes := rfl
@[simp] theorem clearOvr_leaves : (clearOvr s).leaves = s.leaves := rfl
@[simp] theorem clearOvr_nodeSel : (clearOvr s).nodeSel = s.nodeSel := rfl
@[simp] theorem clearOvr_codeSel : (clearOvr s).codeSel = s.codeSel := rfl
@[simp] theorem clearOvr_arena : (clearOvr s).arena = s.arena := rfl
@[simp] theorem clearOvr_code : (clearOvr s).code = s.code := rfl
@[simp] theorem clearOvr_freq : (clearOvr s).freq = s.freq := rfl
@[simp] theorem clearOvr_biCount : (clearOvr s).biCount = s.biCount := rfl
@[simp] theorem clearOvr_boCount : (clearOvr s).boCount = s.boCount := rfl
@[simp] theorem clearOvr_yiCount : (clearOvr s).yiCount = s.yiCount := rfl
@[simp] theorem clearOvr_yoCount : (clearOvr s).yoCount = s.yoCount := rfl
@[simp] theorem clearOvr_biBits : (clearOvr s).biBits = s.biBits := rfl
@[simp] theorem clearOvr_biEod : (clearOvr s).biEod = s.biEod := rfl
@[simp] theorem clearOvr_yiBytes : (clearOvr s).yiBytes = s.yiBytes := rfl
@[simp] theorem clearOvr_yiEod : (clearOvr s).yiEod = s.yiEod := rfl
@[simp] theorem clearOvr_boBits : (clearOvr s).boBits = s.boBits := rfl
@[simp] theorem clearOvr_yoBytes : (clearOvr s).yoBytes = s.yoBytes := rfl
@[simp] theorem clearOvr_depths : (clearOvr s).depths = s.depths := rfl
@[simp] theorem clearOvr_turns : (clearOvr s).turns = s.turns := rfl
@[simp] theorem clearOvr_cycle : (clearOvr s).cycle = s.cycle := rfl
@[simp] theorem clearOvr_seen : (clearOvr s).seen = s.seen := rfl
@[simp] theorem clearOvr_draws : (clearOvr s).draws = s.draws := rfl
end

/-! ### clearBi: BI cleared -/

section
variable (s : State)
@[simp] theorem clearBi_phase : (clearBi s).phase = s.phase := rfl
@[simp] theorem clearBi_irqEn : (clearBi s).irqEn = s.irqEn := rfl
@[simp] theorem clearBi_cmdLast : (clearBi s).cmdLast = s.cmdLast := rfl
@[simp] theorem clearBi_done : (clearBi s).done = s.done := rfl
@[simp] theorem clearBi_err : (clearBi s).err = s.err := rfl
@[simp] theorem clearBi_treeValid : (clearBi s).treeValid = s.treeValid := rfl
@[simp] theorem clearBi_codesValid : (clearBi s).codesValid = s.codesValid := rfl
@[simp] theorem clearBi_endSeen : (clearBi s).endSeen = s.endSeen := rfl
@[simp] theorem clearBi_ovr : (clearBi s).ovr = s.ovr := rfl
@[simp] theorem clearBi_errcode : (clearBi s).errcode = s.errcode := rfl
@[simp] theorem clearBi_errinfo : (clearBi s).errinfo = s.errinfo := rfl
@[simp] theorem clearBi_magic : (clearBi s).magic = s.magic := rfl
@[simp] theorem clearBi_root : (clearBi s).root = s.root := rfl
@[simp] theorem clearBi_nodes : (clearBi s).nodes = s.nodes := rfl
@[simp] theorem clearBi_leaves : (clearBi s).leaves = s.leaves := rfl
@[simp] theorem clearBi_nodeSel : (clearBi s).nodeSel = s.nodeSel := rfl
@[simp] theorem clearBi_codeSel : (clearBi s).codeSel = s.codeSel := rfl
@[simp] theorem clearBi_arena : (clearBi s).arena = s.arena := rfl
@[simp] theorem clearBi_code : (clearBi s).code = s.code := rfl
@[simp] theorem clearBi_freq : (clearBi s).freq = s.freq := rfl
@[simp] theorem clearBi_biCount : (clearBi s).biCount = s.biCount := rfl
@[simp] theorem clearBi_boCount : (clearBi s).boCount = s.boCount := rfl
@[simp] theorem clearBi_yiCount : (clearBi s).yiCount = s.yiCount := rfl
@[simp] theorem clearBi_yoCount : (clearBi s).yoCount = s.yoCount := rfl
@[simp] theorem clearBi_biBits : (clearBi s).biBits = [] := rfl
@[simp] theorem clearBi_biEod : (clearBi s).biEod = false := rfl
@[simp] theorem clearBi_yiBytes : (clearBi s).yiBytes = s.yiBytes := rfl
@[simp] theorem clearBi_yiEod : (clearBi s).yiEod = s.yiEod := rfl
@[simp] theorem clearBi_boBits : (clearBi s).boBits = s.boBits := rfl
@[simp] theorem clearBi_yoBytes : (clearBi s).yoBytes = s.yoBytes := rfl
@[simp] theorem clearBi_depths : (clearBi s).depths = s.depths := rfl
@[simp] theorem clearBi_turns : (clearBi s).turns = s.turns := rfl
@[simp] theorem clearBi_cycle : (clearBi s).cycle = s.cycle := rfl
@[simp] theorem clearBi_seen : (clearBi s).seen = s.seen := rfl
@[simp] theorem clearBi_draws : (clearBi s).draws = s.draws := rfl
end

/-! ### clearYi: YI cleared -/

section
variable (s : State)
@[simp] theorem clearYi_phase : (clearYi s).phase = s.phase := rfl
@[simp] theorem clearYi_irqEn : (clearYi s).irqEn = s.irqEn := rfl
@[simp] theorem clearYi_cmdLast : (clearYi s).cmdLast = s.cmdLast := rfl
@[simp] theorem clearYi_done : (clearYi s).done = s.done := rfl
@[simp] theorem clearYi_err : (clearYi s).err = s.err := rfl
@[simp] theorem clearYi_treeValid : (clearYi s).treeValid = s.treeValid := rfl
@[simp] theorem clearYi_codesValid : (clearYi s).codesValid = s.codesValid := rfl
@[simp] theorem clearYi_endSeen : (clearYi s).endSeen = s.endSeen := rfl
@[simp] theorem clearYi_ovr : (clearYi s).ovr = s.ovr := rfl
@[simp] theorem clearYi_errcode : (clearYi s).errcode = s.errcode := rfl
@[simp] theorem clearYi_errinfo : (clearYi s).errinfo = s.errinfo := rfl
@[simp] theorem clearYi_magic : (clearYi s).magic = s.magic := rfl
@[simp] theorem clearYi_root : (clearYi s).root = s.root := rfl
@[simp] theorem clearYi_nodes : (clearYi s).nodes = s.nodes := rfl
@[simp] theorem clearYi_leaves : (clearYi s).leaves = s.leaves := rfl
@[simp] theorem clearYi_nodeSel : (clearYi s).nodeSel = s.nodeSel := rfl
@[simp] theorem clearYi_codeSel : (clearYi s).codeSel = s.codeSel := rfl
@[simp] theorem clearYi_arena : (clearYi s).arena = s.arena := rfl
@[simp] theorem clearYi_code : (clearYi s).code = s.code := rfl
@[simp] theorem clearYi_freq : (clearYi s).freq = s.freq := rfl
@[simp] theorem clearYi_biCount : (clearYi s).biCount = s.biCount := rfl
@[simp] theorem clearYi_boCount : (clearYi s).boCount = s.boCount := rfl
@[simp] theorem clearYi_yiCount : (clearYi s).yiCount = s.yiCount := rfl
@[simp] theorem clearYi_yoCount : (clearYi s).yoCount = s.yoCount := rfl
@[simp] theorem clearYi_biBits : (clearYi s).biBits = s.biBits := rfl
@[simp] theorem clearYi_biEod : (clearYi s).biEod = s.biEod := rfl
@[simp] theorem clearYi_yiBytes : (clearYi s).yiBytes = [] := rfl
@[simp] theorem clearYi_yiEod : (clearYi s).yiEod = false := rfl
@[simp] theorem clearYi_boBits : (clearYi s).boBits = s.boBits := rfl
@[simp] theorem clearYi_yoBytes : (clearYi s).yoBytes = s.yoBytes := rfl
@[simp] theorem clearYi_depths : (clearYi s).depths = s.depths := rfl
@[simp] theorem clearYi_turns : (clearYi s).turns = s.turns := rfl
@[simp] theorem clearYi_cycle : (clearYi s).cycle = s.cycle := rfl
@[simp] theorem clearYi_seen : (clearYi s).seen = s.seen := rfl
@[simp] theorem clearYi_draws : (clearYi s).draws = s.draws := rfl
end

/-! ### resetAll: reset (spec/70_reset_and_hazards.md R230) -/

section
variable (s : State)
@[simp] theorem resetAll_phase : (resetAll s).phase = .idle := rfl
@[simp] theorem resetAll_irqEn : (resetAll s).irqEn = false := rfl
@[simp] theorem resetAll_cmdLast : (resetAll s).cmdLast = 0 := rfl
@[simp] theorem resetAll_done : (resetAll s).done = false := rfl
@[simp] theorem resetAll_err : (resetAll s).err = false := rfl
@[simp] theorem resetAll_treeValid : (resetAll s).treeValid = false := rfl
@[simp] theorem resetAll_codesValid : (resetAll s).codesValid = false := rfl
@[simp] theorem resetAll_endSeen : (resetAll s).endSeen = false := rfl
@[simp] theorem resetAll_ovr : (resetAll s).ovr = false := rfl
@[simp] theorem resetAll_errcode : (resetAll s).errcode = 0 := rfl
@[simp] theorem resetAll_errinfo : (resetAll s).errinfo = 0 := rfl
@[simp] theorem resetAll_magic : (resetAll s).magic = Config.magicReset := rfl
@[simp] theorem resetAll_root : (resetAll s).root = 0 := rfl
@[simp] theorem resetAll_nodes : (resetAll s).nodes = 0 := rfl
@[simp] theorem resetAll_leaves : (resetAll s).leaves = 0 := rfl
@[simp] theorem resetAll_nodeSel : (resetAll s).nodeSel = 0 := rfl
@[simp] theorem resetAll_codeSel : (resetAll s).codeSel = 0 := rfl
@[simp] theorem resetAll_arena : (resetAll s).arena = Vector.replicate Config.nodeCap Node.blank := rfl
@[simp] theorem resetAll_code : (resetAll s).code = codeNone := rfl
@[simp] theorem resetAll_freq : (resetAll s).freq = freqZero := rfl
@[simp] theorem resetAll_biCount : (resetAll s).biCount = 0 := rfl
@[simp] theorem resetAll_boCount : (resetAll s).boCount = 0 := rfl
@[simp] theorem resetAll_yiCount : (resetAll s).yiCount = 0 := rfl
@[simp] theorem resetAll_yoCount : (resetAll s).yoCount = 0 := rfl
@[simp] theorem resetAll_biBits : (resetAll s).biBits = [] := rfl
@[simp] theorem resetAll_biEod : (resetAll s).biEod = false := rfl
@[simp] theorem resetAll_yiBytes : (resetAll s).yiBytes = [] := rfl
@[simp] theorem resetAll_yiEod : (resetAll s).yiEod = false := rfl
@[simp] theorem resetAll_boBits : (resetAll s).boBits = [] := rfl
@[simp] theorem resetAll_yoBytes : (resetAll s).yoBytes = [] := rfl
@[simp] theorem resetAll_depths : (resetAll s).depths = s.depths := rfl
@[simp] theorem resetAll_turns : (resetAll s).turns = s.turns := rfl
@[simp] theorem resetAll_cycle : (resetAll s).cycle = s.cycle := rfl
@[simp] theorem resetAll_seen : (resetAll s).seen = s.seen := rfl
@[simp] theorem resetAll_draws : (resetAll s).draws = s.draws := rfl
end

/-! ### storeTree: what BUILD writes (spec/40_tree_build.md R126) -/

section
variable (s : State)
@[simp] theorem storeTree_phase : (storeTree s).phase = s.phase := rfl
@[simp] theorem storeTree_irqEn : (storeTree s).irqEn = s.irqEn := rfl
@[simp] theorem storeTree_cmdLast : (storeTree s).cmdLast = s.cmdLast := rfl
@[simp] theorem storeTree_done : (storeTree s).done = s.done := rfl
@[simp] theorem storeTree_err : (storeTree s).err = s.err := rfl
@[simp] theorem storeTree_treeValid : (storeTree s).treeValid = true := rfl
@[simp] theorem storeTree_codesValid : (storeTree s).codesValid = s.codesValid := rfl
@[simp] theorem storeTree_endSeen : (storeTree s).endSeen = s.endSeen := rfl
@[simp] theorem storeTree_ovr : (storeTree s).ovr = s.ovr := rfl
@[simp] theorem storeTree_errcode : (storeTree s).errcode = s.errcode := rfl
@[simp] theorem storeTree_errinfo : (storeTree s).errinfo = s.errinfo := rfl
@[simp] theorem storeTree_magic : (storeTree s).magic = s.magic := rfl
@[simp] theorem storeTree_root : (storeTree s).root = rootOf (buildTree s.freq).2 := rfl
@[simp] theorem storeTree_nodes : (storeTree s).nodes = BitVec.ofNat 10 (buildTree s.freq).1.length := rfl
@[simp] theorem storeTree_leaves : (storeTree s).leaves = BitVec.ofNat 10 (buildLeaves s.freq).length := rfl
@[simp] theorem storeTree_nodeSel : (storeTree s).nodeSel = s.nodeSel := rfl
@[simp] theorem storeTree_codeSel : (storeTree s).codeSel = s.codeSel := rfl
@[simp] theorem storeTree_arena : (storeTree s).arena = arenaStore s.arena 0 (buildTree s.freq).1 := rfl
@[simp] theorem storeTree_code : (storeTree s).code = s.code := rfl
@[simp] theorem storeTree_freq : (storeTree s).freq = s.freq := rfl
@[simp] theorem storeTree_biCount : (storeTree s).biCount = s.biCount := rfl
@[simp] theorem storeTree_boCount : (storeTree s).boCount = s.boCount := rfl
@[simp] theorem storeTree_yiCount : (storeTree s).yiCount = s.yiCount := rfl
@[simp] theorem storeTree_yoCount : (storeTree s).yoCount = s.yoCount := rfl
@[simp] theorem storeTree_biBits : (storeTree s).biBits = s.biBits := rfl
@[simp] theorem storeTree_biEod : (storeTree s).biEod = s.biEod := rfl
@[simp] theorem storeTree_yiBytes : (storeTree s).yiBytes = s.yiBytes := rfl
@[simp] theorem storeTree_yiEod : (storeTree s).yiEod = s.yiEod := rfl
@[simp] theorem storeTree_boBits : (storeTree s).boBits = s.boBits := rfl
@[simp] theorem storeTree_yoBytes : (storeTree s).yoBytes = s.yoBytes := rfl
@[simp] theorem storeTree_depths : (storeTree s).depths = s.depths := rfl
@[simp] theorem storeTree_turns : (storeTree s).turns = s.turns := rfl
@[simp] theorem storeTree_cycle : (storeTree s).cycle = s.cycle := rfl
@[simp] theorem storeTree_seen : (storeTree s).seen = s.seen := rfl
@[simp] theorem storeTree_draws : (storeTree s).draws = s.draws := rfl
end

/-! ### deserFail: DESER's failure (spec/41_tree_serdes.md R147) -/

section
variable (e : ErrCode) (x : BitVec 9) (s : State)
@[simp] theorem deserFail_phase : (deserFail e x s).phase = .idle := rfl
@[simp] theorem deserFail_irqEn : (deserFail e x s).irqEn = s.irqEn := rfl
@[simp] theorem deserFail_cmdLast : (deserFail e x s).cmdLast = s.cmdLast := rfl
@[simp] theorem deserFail_done : (deserFail e x s).done = true := rfl
@[simp] theorem deserFail_err : (deserFail e x s).err = true := rfl
@[simp] theorem deserFail_treeValid : (deserFail e x s).treeValid = s.treeValid := rfl
@[simp] theorem deserFail_codesValid : (deserFail e x s).codesValid = s.codesValid := rfl
@[simp] theorem deserFail_endSeen : (deserFail e x s).endSeen = s.endSeen := rfl
@[simp] theorem deserFail_ovr : (deserFail e x s).ovr = s.ovr := rfl
@[simp] theorem deserFail_errcode : (deserFail e x s).errcode = e.number := rfl
@[simp] theorem deserFail_errinfo : (deserFail e x s).errinfo = x := rfl
@[simp] theorem deserFail_magic : (deserFail e x s).magic = s.magic := rfl
@[simp] theorem deserFail_root : (deserFail e x s).root = 0 := rfl
@[simp] theorem deserFail_nodes : (deserFail e x s).nodes = 0 := rfl
@[simp] theorem deserFail_leaves : (deserFail e x s).leaves = 0 := rfl
@[simp] theorem deserFail_nodeSel : (deserFail e x s).nodeSel = s.nodeSel := rfl
@[simp] theorem deserFail_codeSel : (deserFail e x s).codeSel = s.codeSel := rfl
@[simp] theorem deserFail_arena : (deserFail e x s).arena = s.arena := rfl
@[simp] theorem deserFail_code : (deserFail e x s).code = s.code := rfl
@[simp] theorem deserFail_freq : (deserFail e x s).freq = s.freq := rfl
@[simp] theorem deserFail_biCount : (deserFail e x s).biCount = s.biCount := rfl
@[simp] theorem deserFail_boCount : (deserFail e x s).boCount = s.boCount := rfl
@[simp] theorem deserFail_yiCount : (deserFail e x s).yiCount = s.yiCount := rfl
@[simp] theorem deserFail_yoCount : (deserFail e x s).yoCount = s.yoCount := rfl
@[simp] theorem deserFail_biBits : (deserFail e x s).biBits = s.biBits := rfl
@[simp] theorem deserFail_biEod : (deserFail e x s).biEod = s.biEod := rfl
@[simp] theorem deserFail_yiBytes : (deserFail e x s).yiBytes = s.yiBytes := rfl
@[simp] theorem deserFail_yiEod : (deserFail e x s).yiEod = s.yiEod := rfl
@[simp] theorem deserFail_boBits : (deserFail e x s).boBits = s.boBits := rfl
@[simp] theorem deserFail_yoBytes : (deserFail e x s).yoBytes = s.yoBytes := rfl
@[simp] theorem deserFail_depths : (deserFail e x s).depths = s.depths := rfl
@[simp] theorem deserFail_turns : (deserFail e x s).turns = s.turns := rfl
@[simp] theorem deserFail_cycle : (deserFail e x s).cycle = s.cycle := rfl
@[simp] theorem deserFail_seen : (deserFail e x s).seen = s.seen := rfl
@[simp] theorem deserFail_draws : (deserFail e x s).draws = s.draws := rfl
end

/-! ### deserEnd: DESER's success (spec/41_tree_serdes.md R143) -/

section
variable (r n lv : Idx) (s : State)
@[simp] theorem deserEnd_phase : (deserEnd r n lv s).phase = .idle := rfl
@[simp] theorem deserEnd_irqEn : (deserEnd r n lv s).irqEn = s.irqEn := rfl
@[simp] theorem deserEnd_cmdLast : (deserEnd r n lv s).cmdLast = s.cmdLast := rfl
@[simp] theorem deserEnd_done : (deserEnd r n lv s).done = true := rfl
@[simp] theorem deserEnd_err : (deserEnd r n lv s).err = s.err := rfl
@[simp] theorem deserEnd_treeValid : (deserEnd r n lv s).treeValid = true := rfl
@[simp] theorem deserEnd_codesValid : (deserEnd r n lv s).codesValid = s.codesValid := rfl
@[simp] theorem deserEnd_endSeen : (deserEnd r n lv s).endSeen = s.endSeen := rfl
@[simp] theorem deserEnd_ovr : (deserEnd r n lv s).ovr = s.ovr := rfl
@[simp] theorem deserEnd_errcode : (deserEnd r n lv s).errcode = s.errcode := rfl
@[simp] theorem deserEnd_errinfo : (deserEnd r n lv s).errinfo = s.errinfo := rfl
@[simp] theorem deserEnd_magic : (deserEnd r n lv s).magic = s.magic := rfl
@[simp] theorem deserEnd_root : (deserEnd r n lv s).root = r := rfl
@[simp] theorem deserEnd_nodes : (deserEnd r n lv s).nodes = n := rfl
@[simp] theorem deserEnd_leaves : (deserEnd r n lv s).leaves = lv := rfl
@[simp] theorem deserEnd_nodeSel : (deserEnd r n lv s).nodeSel = s.nodeSel := rfl
@[simp] theorem deserEnd_codeSel : (deserEnd r n lv s).codeSel = s.codeSel := rfl
@[simp] theorem deserEnd_arena : (deserEnd r n lv s).arena = s.arena := rfl
@[simp] theorem deserEnd_code : (deserEnd r n lv s).code = s.code := rfl
@[simp] theorem deserEnd_freq : (deserEnd r n lv s).freq = s.freq := rfl
@[simp] theorem deserEnd_biCount : (deserEnd r n lv s).biCount = s.biCount := rfl
@[simp] theorem deserEnd_boCount : (deserEnd r n lv s).boCount = s.boCount := rfl
@[simp] theorem deserEnd_yiCount : (deserEnd r n lv s).yiCount = s.yiCount := rfl
@[simp] theorem deserEnd_yoCount : (deserEnd r n lv s).yoCount = s.yoCount := rfl
@[simp] theorem deserEnd_biBits : (deserEnd r n lv s).biBits = s.biBits := rfl
@[simp] theorem deserEnd_biEod : (deserEnd r n lv s).biEod = s.biEod := rfl
@[simp] theorem deserEnd_yiBytes : (deserEnd r n lv s).yiBytes = s.yiBytes := rfl
@[simp] theorem deserEnd_yiEod : (deserEnd r n lv s).yiEod = s.yiEod := rfl
@[simp] theorem deserEnd_boBits : (deserEnd r n lv s).boBits = s.boBits := rfl
@[simp] theorem deserEnd_yoBytes : (deserEnd r n lv s).yoBytes = s.yoBytes := rfl
@[simp] theorem deserEnd_depths : (deserEnd r n lv s).depths = s.depths := rfl
@[simp] theorem deserEnd_turns : (deserEnd r n lv s).turns = s.turns := rfl
@[simp] theorem deserEnd_cycle : (deserEnd r n lv s).cycle = s.cycle := rfl
@[simp] theorem deserEnd_seen : (deserEnd r n lv s).seen = s.seen := rfl
@[simp] theorem deserEnd_draws : (deserEnd r n lv s).draws = s.draws := rfl
end

/-! ### decEnd: DEC's stop at END (spec/42_symbol_codec.md R177) -/

section
variable (s : State)
@[simp] theorem decEnd_phase : (decEnd s).phase = .idle := rfl
@[simp] theorem decEnd_irqEn : (decEnd s).irqEn = s.irqEn := rfl
@[simp] theorem decEnd_cmdLast : (decEnd s).cmdLast = s.cmdLast := rfl
@[simp] theorem decEnd_done : (decEnd s).done = true := rfl
@[simp] theorem decEnd_err : (decEnd s).err = s.err := rfl
@[simp] theorem decEnd_treeValid : (decEnd s).treeValid = s.treeValid := rfl
@[simp] theorem decEnd_codesValid : (decEnd s).codesValid = s.codesValid := rfl
@[simp] theorem decEnd_endSeen : (decEnd s).endSeen = true := rfl
@[simp] theorem decEnd_ovr : (decEnd s).ovr = s.ovr := rfl
@[simp] theorem decEnd_errcode : (decEnd s).errcode = s.errcode := rfl
@[simp] theorem decEnd_errinfo : (decEnd s).errinfo = s.errinfo := rfl
@[simp] theorem decEnd_magic : (decEnd s).magic = s.magic := rfl
@[simp] theorem decEnd_root : (decEnd s).root = s.root := rfl
@[simp] theorem decEnd_nodes : (decEnd s).nodes = s.nodes := rfl
@[simp] theorem decEnd_leaves : (decEnd s).leaves = s.leaves := rfl
@[simp] theorem decEnd_nodeSel : (decEnd s).nodeSel = s.nodeSel := rfl
@[simp] theorem decEnd_codeSel : (decEnd s).codeSel = s.codeSel := rfl
@[simp] theorem decEnd_arena : (decEnd s).arena = s.arena := rfl
@[simp] theorem decEnd_code : (decEnd s).code = s.code := rfl
@[simp] theorem decEnd_freq : (decEnd s).freq = s.freq := rfl
@[simp] theorem decEnd_biCount : (decEnd s).biCount = s.biCount := rfl
@[simp] theorem decEnd_boCount : (decEnd s).boCount = s.boCount := rfl
@[simp] theorem decEnd_yiCount : (decEnd s).yiCount = s.yiCount := rfl
@[simp] theorem decEnd_yoCount : (decEnd s).yoCount = s.yoCount := rfl
@[simp] theorem decEnd_biBits : (decEnd s).biBits = s.biBits := rfl
@[simp] theorem decEnd_biEod : (decEnd s).biEod = s.biEod := rfl
@[simp] theorem decEnd_yiBytes : (decEnd s).yiBytes = s.yiBytes := rfl
@[simp] theorem decEnd_yiEod : (decEnd s).yiEod = s.yiEod := rfl
@[simp] theorem decEnd_boBits : (decEnd s).boBits = s.boBits := rfl
@[simp] theorem decEnd_yoBytes : (decEnd s).yoBytes = s.yoBytes := rfl
@[simp] theorem decEnd_depths : (decEnd s).depths = s.depths := rfl
@[simp] theorem decEnd_turns : (decEnd s).turns = s.turns := rfl
@[simp] theorem decEnd_cycle : (decEnd s).cycle = s.cycle := rfl
@[simp] theorem decEnd_seen : (decEnd s).seen = s.seen := rfl
@[simp] theorem decEnd_draws : (decEnd s).draws = s.draws := rfl
end

end Sys2Proof.Machine
end

