-- ==== Sys2Proof/Laws/Ops.lean ====
section
/-! SUPPORT. One lemma for each shared operation of Machine/Ops.lean that says all it can do: the provers cite these and do
not unfold the operation. -/

namespace Sys2Proof.Machine

/-! ### The ports -/

theorem readBit_item {s t : State} {b : Bool} :
    readBit s = .item b t ↔
      ∃ rest, s.biBits = b :: rest ∧ t = { s with biBits := rest, biCount := s.biCount + 1 } := by
  unfold readBit
  rcases h : s.biBits with _ | ⟨c, rest⟩
  · cases s.biEod <;> simp
  · simp only [PortRead.item.injEq, List.cons.injEq]
    constructor
    · rintro ⟨rfl, rfl⟩; exact ⟨rest, ⟨rfl, rfl⟩, rfl⟩
    · rintro ⟨r, ⟨rfl, rfl⟩, rfl⟩; exact ⟨rfl, rfl⟩

theorem readBit_eod {s : State} : readBit s = .eod ↔ s.biBits = [] ∧ s.biEod = true := by
  unfold readBit
  rcases h : s.biBits with _ | ⟨c, rest⟩ <;> cases s.biEod <;> simp

theorem readBit_hold {s : State} : readBit s = .hold ↔ s.biBits = [] ∧ s.biEod = false := by
  unfold readBit
  rcases h : s.biBits with _ | ⟨c, rest⟩ <;> cases s.biEod <;> simp

theorem readByte_item {s t : State} {b : Byte} :
    readByte s = .item b t ↔
      ∃ rest, s.yiBytes = b :: rest ∧ t = { s with yiBytes := rest, yiCount := s.yiCount + 1 } := by
  unfold readByte
  rcases h : s.yiBytes with _ | ⟨c, rest⟩
  · cases s.yiEod <;> simp
  · simp only [PortRead.item.injEq, List.cons.injEq]
    constructor
    · rintro ⟨rfl, rfl⟩; exact ⟨rest, ⟨rfl, rfl⟩, rfl⟩
    · rintro ⟨r, ⟨rfl, rfl⟩, rfl⟩; exact ⟨rfl, rfl⟩

theorem readByte_eod {s : State} : readByte s = .eod ↔ s.yiBytes = [] ∧ s.yiEod = true := by
  unfold readByte
  rcases h : s.yiBytes with _ | ⟨c, rest⟩ <;> cases s.yiEod <;> simp

theorem readByte_hold {s : State} : readByte s = .hold ↔ s.yiBytes = [] ∧ s.yiEod = false := by
  unfold readByte
  rcases h : s.yiBytes with _ | ⟨c, rest⟩ <;> cases s.yiEod <;> simp

theorem writeBit_some {s t : State} {b : Bool} :
    writeBit b s = some t ↔
      s.boBits.length < s.depths.bo ∧ t = { s with boBits := s.boBits ++ [b], boCount := s.boCount + 1 } := by
  unfold writeBit
  split <;> simp_all [eq_comm]

theorem writeBit_none {s : State} {b : Bool} : writeBit b s = none ↔ s.depths.bo ≤ s.boBits.length := by
  unfold writeBit
  split <;> simp <;> omega

theorem writeByte_some {s t : State} {b : Byte} :
    writeByte b s = some t ↔
      s.yoBytes.length < s.depths.yo ∧ t = { s with yoBytes := s.yoBytes ++ [b], yoCount := s.yoCount + 1 } := by
  unfold writeByte
  split <;> simp_all [eq_comm]

theorem writeByte_none {s : State} {b : Byte} : writeByte b s = none ↔ s.depths.yo ≤ s.yoBytes.length := by
  unfold writeByte
  split <;> simp <;> omega

/-! ### The order of steps -/

theorem order_of_turns {s : State} {x : Turn} {xs : List Turn} (h : s.turns = x :: xs) : s.order = x :: xs := by
  simp [State.order, h]

theorem order_of_cycle {s : State} (h : s.turns = []) : s.order = s.cycle ++ [.engine 1] := by simp [State.order, h]

/-- The order of steps is a function of its two fields. -/
theorem order_congr {s t : State} (h : t.turns = s.turns) (h' : t.cycle = s.cycle) : t.order = s.order := by
  simp [State.order, h, h']

theorem grant_congr {s t : State} (h : t.turns = s.turns) (h' : t.cycle = s.cycle) : t.grant = s.grant := by
  simp [State.grant, order_congr h h']

theorem grant_of_order {s : State} {k : Nat} {xs : List Turn} (h : s.order = .engine k :: xs) : s.grant = k := by
  simp [State.grant, h]

@[simp] theorem grant_engine (s : State) (k : Nat) (xs : List Turn) :
    ({ s with turns := .engine k :: xs } : State).grant = k := rfl

/-! ### Runs of engine steps -/

theorem repeatStep_add (m n : Nat) (f : State → State) (s : State) :
    repeatStep (m + n) f s = repeatStep n f (repeatStep m f s) := by
  induction m generalizing s with
  | zero => simp [repeatStep]
  | succ m ih => rw [Nat.succ_add]; exact ih (f s)

theorem repeatStep_fixed {f : State → State} {s : State} (h : f s = s) (k : Nat) : repeatStep k f s = s := by
  induction k with
  | zero => rfl
  | succ k ih => rw [repeatStep, h, ih]

/-- A run that has reached a state where the engine step changes nothing stays there, however many steps are granted. -/
theorem repeatStep_reached {f : State → State} {s t : State} {m k : Nat} (hr : repeatStep m f s = t) (ht : f t = t)
    (hk : m ≤ k) : repeatStep k f s = t := by
  obtain ⟨n, rfl⟩ := Nat.exists_eq_add_of_le hk
  rw [repeatStep_add, hr, repeatStep_fixed ht]

/-- What every engine step keeps, every run of engine steps keeps. -/
theorem repeatStep_keeps {P : State → Prop} {f : State → State} (h : ∀ s, P s → P (f s)) (k : Nat) {s : State}
    (hs : P s) : P (repeatStep k f s) := by
  induction k generalizing s with
  | zero => exact hs
  | succ k ih => exact ih (h s hs)

theorem engineRun_next {i : Instr} {f : State → State} {s t : State} :
    engineRun i f s = .next t ↔ s.phase.runs i = true ∧ t = repeatStep s.grant f s := by
  unfold engineRun
  split
  · rename_i h
    rw [Host.Outcome.next.injEq]
    exact ⟨fun e => ⟨h, e.symm⟩, fun e => e.2.symm⟩
  · rename_i h
    exact ⟨nofun, fun e => absurd e.1 h⟩

theorem engineRun_not_refused {i : Instr} {f : State → State} {s : State} {r : Refusal} :
    engineRun i f s ≠ .refused r := by
  unfold engineRun
  split <;> simp

theorem engineRun_fault {i : Instr} {f : State → State} {s : State} {r : Fault} :
    engineRun i f s = .fault r ↔ s.phase.runs i = false ∧ r = .notRunning := by
  unfold engineRun
  cases r
  cases s.phase.runs i <;> simp

@[simp] theorem start_belongsTo (i : Instr) : Cont.start.belongsTo i = true := by cases i <;> rfl

theorem runs_of_start {s : State} {w : Word} (h : s.phase = .busy w .start) (i : Instr) : s.phase.runs i = true := by
  rw [h]; exact start_belongsTo i

theorem goTo_busy {s : State} {w : Word} {c : Cont} (h : s.phase = .busy w c) (c' : Cont) :
    goTo c' s = { s with phase := .busy w c' } := by
  simp [goTo, Phase.moveTo, h]

/-! ### Steps of the commands -/

theorem atStart_start {f : State → State} {s : State} {w : Word} (h : s.phase = .busy w .start) : atStart f s = f s := by
  simp [atStart, h]

theorem atStart_cases (f : State → State) (s : State) :
    (∃ w, s.phase = .busy w .start ∧ atStart f s = f s) ∨ atStart f s = s := by
  unfold atStart
  split
  · rename_i w h; exact .inl ⟨w, h, rfl⟩
  · exact .inr rfl

theorem needTree_cases (f : State → State) (s : State) :
    (s.treeValid = true ∧ needTree f s = f s) ∨ (s.treeValid = false ∧ needTree f s = raiseError .noTree 0 s) := by
  unfold needTree
  cases s.treeValid <;> simp

theorem withCodes_cases (f : State → State) (s : State) :
    (∃ c, codeTableOf s.arena s.root = some c ∧ withCodes f s = f { s with code := c, codesValid := true }) ∨
      (codeTableOf s.arena s.root = none ∧ withCodes f s = s) := by
  unfold withCodes
  cases codeTableOf s.arena s.root <;> simp

/-! ### Acceptance -/

theorem accept_tree {v : Word} (h : decode v = .command .build ∨ decode v = .command .deser) (s : State) :
    accept v s = { discardTree (acceptFlags s) with cmdLast := v, phase := .busy v .start } := by
  rcases h with h | h <;> simp [accept, h, acceptEffect, discardTree]

theorem accept_other {v : Word} (h1 : decode v ≠ .command .build) (h2 : decode v ≠ .command .deser) (s : State) :
    accept v s = { acceptFlags s with cmdLast := v, phase := .busy v .start } := by
  unfold accept
  rcases h : decode v with i | _ | _ | _ <;> simp only []
  cases i <;> simp_all [acceptEffect]

end Sys2Proof.Machine
end

