-- ==== Sys2Proof/Laws/Step.lean ====
section
/-! SUPPORT. What a step can do, said once: the inversion lemmas of `exec`, of the engine's turn and of `step`. -/

namespace Sys2Proof.Machine

/-- The engine step of each command. -/
def commandStep : Instr → State → State
  | .nop => nopStep
  | .clrFreq => clrFreqStep
  | .build => buildStep
  | .ser => serStep
  | .deser => deserStep
  | .codes => codesStep
  | .enc => encStep
  | .dec => decStep
  | .magicWr => magicWrStep
  | .magicChk => magicChkStep

/-- Every command is its engine step, run as often as the order of steps grants. -/
theorem exec_eq (i : Instr) (s : State) : exec i s = engineRun i (commandStep i) s := by cases i <;> rfl

theorem exec_next {i : Instr} {s t : State} :
    exec i s = .next t ↔ s.phase.runs i = true ∧ t = repeatStep s.grant (commandStep i) s := by
  rw [exec_eq, engineRun_next]

/-- No engine step of an idle engine changes anything. -/
theorem commandStep_idle {s : State} (h : s.phase = .idle) (i : Instr) : commandStep i s = s := by
  cases i <;>
    simp [commandStep, nopStep, clrFreqStep, buildStep, codesStep, atStart, serStep, deserStep, encStep, decStep,
      magicWrStep, magicChkStep, h]

/-- A property that every engine step of `i` keeps holds after `exec i`. -/
theorem exec_keeps {P : State → Prop} {i : Instr} (h : ∀ s, P s → P (commandStep i s)) {s t : State}
    (ht : exec i s = .next t) (hs : P s) : P t := by
  rw [(exec_next.mp ht).2]
  exact repeatStep_keeps h _ hs

/-- `exec i` from a start state that the engine step takes, in `m` steps at most, to a state it no longer changes. -/
theorem exec_of_run {i : Instr} {s t : State} {w : Word} {m : Nat} (hs : s.phase = .busy w .start)
    (hr : repeatStep m (commandStep i) s = t) (ht : t.phase = .idle) (hm : m ≤ s.grant) : exec i s = .next t :=
  exec_next.mpr ⟨runs_of_start hs i, (repeatStep_reached hr (commandStep_idle ht i) hm).symm⟩

theorem exec_outcomes (i : Instr) (s : State) :
    (s.phase.runs i = true ∧ exec i s = .next (repeatStep s.grant (commandStep i) s)) ∨
      (s.phase.runs i = false ∧ exec i s = .fault .notRunning) := by
  rw [exec_eq]
  unfold engineRun
  cases s.phase.runs i <;> simp

/-- What a next state of a step can be. -/
theorem step_next_cases {s t : State} (h : step s = .next t) :
    (∃ a rest, s.order = .host a :: rest ∧ hostStep a { s with turns := rest } = .next t) ∨
      ((∀ a rest, s.order ≠ .host a :: rest) ∧
        ((s.phase = .idle ∧ t = dropTurn s) ∨
          (∃ w c i u, s.phase = .busy w c ∧ decode w = .command i ∧ exec i s = .next u ∧ t = dropTurn u) ∨
          ∃ w c, s.phase = .busy w c ∧ (∀ i, decode w ≠ .command i) ∧
            t = dropTurn (repeatStep s.grant (illegalStep w) s))) := by
  have engine : engineTurn s = .next t →
      (s.phase = .idle ∧ t = dropTurn s) ∨
        (∃ w c i u, s.phase = .busy w c ∧ decode w = .command i ∧ exec i s = .next u ∧ t = dropTurn u) ∨
        ∃ w c, s.phase = .busy w c ∧ (∀ i, decode w ≠ .command i) ∧
          t = dropTurn (repeatStep s.grant (illegalStep w) s) := by
    intro h
    unfold engineTurn at h
    split at h
    · rename_i hp; exact .inl ⟨hp, by simpa using h.symm⟩
    · rename_i w c hp
      unfold runWord at h
      rcases hd : decode w with i | _ | _ | _ <;> rw [hd] at h
      · rcases he : exec i s with u | r | r <;> simp only [he, mapNext] at h
        · exact .inr (.inl ⟨w, c, i, u, hp, hd, he, by simpa using h.symm⟩)
        · cases h
        · cases h
      all_goals exact .inr (.inr ⟨w, c, hp, by simp [hd], by simpa [mapNext] using h.symm⟩)
  unfold step at h
  split at h
  · rename_i a rest hts; exact .inl ⟨a, rest, hts, h⟩
  · rename_i hne; exact .inr ⟨fun a rest e => hne a rest e, engine h⟩

/-- The engine step of an illegal word either raises the error or changes nothing. -/
theorem illegalStep_cases (w : Word) (s : State) :
    (∃ w', s.phase = .busy w' .start ∧ illegalStep w s = raiseIllegal w s) ∨ illegalStep w s = s :=
  atStart_cases _ s

/-- What a host step can do to the state. -/
theorem hostStep_next_cases {a : HostAction} {s t : State} (h : hostStep a s = .next t) :
    (∃ off, a = .regRead off 4 ∧ t = regRead off s) ∨ (∃ off v, a = .regWrite off 4 v ∧ t = regWrite off v s) ∨
      (∃ b, a = .pushBit b ∧ t = pushBit b s) ∨ (a = .pushBiEod ∧ t = pushBiEod s) ∨
      (∃ b, a = .pushByte b ∧ t = pushByte b s) ∨ (a = .pushYiEod ∧ t = pushYiEod s) ∨
      (a = .popBit ∧ t = popBit s) ∨ (a = .popByte ∧ t = popByte s) ∨ (a = .hardReset ∧ t = resetAll s) := by
  unfold hostStep at h
  cases a <;> simp only at h
  case regRead off bytes =>
    split at h
    · rename_i hd
      have : bytes = 4 := by simp [accessDefined] at hd; exact hd.1
      subst this
      exact .inl ⟨off, rfl, by simpa using h.symm⟩
    · cases h
  case regWrite off bytes v =>
    split at h
    · rename_i hd
      have : bytes = 4 := by simp [accessDefined] at hd; exact hd.1
      subst this
      exact .inr (.inl ⟨off, v, rfl, by simpa using h.symm⟩)
    · cases h
  all_goals simp_all [eq_comm]

/-- A read changes only what the host has been told and the count of free values. -/
theorem regRead_eq (off : Offset) (s : State) : ∃ x d, regRead off s = { s with seen := s.seen ++ [x], draws := d } := by
  unfold regRead
  split
  · exact ⟨_, _, rfl⟩
  · split <;> exact ⟨_, _, rfl⟩

/-- No host step changes the port capacities. -/
theorem resetAll_eq (s : State) :
    resetAll s = { State.powerOn s.depths with
      turns := s.turns, cycle := s.cycle, seen := s.seen, draws := s.draws } := rfl

end Sys2Proof.Machine
end

