-- ==== Sys2Proof/Laws/Service.lean ====
section
/-! SUPPORT. What a command does does not depend on when the host serves the ports (spec/00_scope.md R17;
spec/70_reset_and_hazards.md R241): an engine step commutes with the host's pushes and pops, or it holds until them. -/

namespace Sys2Proof.Machine

/-- What the host does at the ports: what it adds to BI and YI, how many items it takes from BO and YO; with the capacities, the
order of steps and what the host was told after it. -/
structure Service where
  bits : BitSeq
  biEnd : Bool
  bytes : List Byte
  yiEnd : Bool
  boTaken : Nat
  yoTaken : Nat
  depths : Depths
  turns : List Turn
  cycle : List Turn
  told : List Seen

/-- The state after it. -/
def Service.on (a : Service) (s : State) : State :=
  { s with biBits := s.biBits ++ a.bits, biEod := s.biEod || a.biEnd, yiBytes := s.yiBytes ++ a.bytes,
           yiEod := s.yiEod || a.yiEnd, boBits := s.boBits.drop a.boTaken, yoBytes := s.yoBytes.drop a.yoTaken,
           depths := a.depths, turns := a.turns, cycle := a.cycle, seen := s.seen ++ a.told }

/-- Nothing arrives behind an end mark (spec/20_memory.md R74), the items taken are there (R75), and where BO or YO has room it
has room after it. -/
structure Service.fits (a : Service) (s : State) : Prop where
  bi : s.biEod = true → a.bits = []
  yi : s.yiEod = true → a.bytes = []
  bo : a.boTaken ≤ s.boBits.length
  yo : a.yoTaken ≤ s.yoBytes.length
  boRoom : s.boBits.length < s.depths.bo → s.boBits.length - a.boTaken < a.depths.bo
  yoRoom : s.yoBytes.length < s.depths.yo → s.yoBytes.length - a.yoTaken < a.depths.yo

/-- It can end a hold at `s`. -/
def Service.serves (a : Service) (s : State) : Prop :=
  a.bits ≠ [] ∨ a.biEnd = true ∨ a.bytes ≠ [] ∨ a.yiEnd = true ∨ a.boTaken ≠ 0 ∨ a.yoTaken ≠ 0 ∨ a.depths ≠ s.depths

/-- An engine step `f` at `s` commutes with it, or holds. -/
def Service.commutes (a : Service) (f : State → State) (s : State) : Prop :=
  f (a.on s) = a.on (f s) ∨ (f s = s ∧ a.serves s)

section
variable (a : Service) (s : State)
@[simp] theorem Service.on_phase : (a.on s).phase = s.phase := rfl
@[simp] theorem Service.on_arena : (a.on s).arena = s.arena := rfl
@[simp] theorem Service.on_root : (a.on s).root = s.root := rfl
@[simp] theorem Service.on_code : (a.on s).code = s.code := rfl
@[simp] theorem Service.on_treeValid : (a.on s).treeValid = s.treeValid := rfl
@[simp] theorem Service.on_magic : (a.on s).magic = s.magic := rfl
@[simp] theorem Service.on_turns : (a.on s).turns = a.turns := rfl
@[simp] theorem Service.on_cycle : (a.on s).cycle = a.cycle := rfl
@[simp] theorem Service.on_biBits : (a.on s).biBits = s.biBits ++ a.bits := rfl
@[simp] theorem Service.on_biEod : (a.on s).biEod = (s.biEod || a.biEnd) := rfl
@[simp] theorem Service.on_yiBytes : (a.on s).yiBytes = s.yiBytes ++ a.bytes := rfl
@[simp] theorem Service.on_yiEod : (a.on s).yiEod = (s.yiEod || a.yiEnd) := rfl
@[simp] theorem Service.on_goTo (c : Cont) : goTo c (a.on s) = a.on (goTo c s) := rfl
@[simp] theorem Service.on_complete : complete (a.on s) = a.on (complete s) := rfl
@[simp] theorem Service.on_raiseError (e : ErrCode) (x : BitVec 9) :
    raiseError e x (a.on s) = a.on (raiseError e x s) := rfl
@[simp] theorem Service.on_deserFail (e : ErrCode) (x : BitVec 9) :
    deserFail e x (a.on s) = a.on (deserFail e x s) := rfl
end

variable {a : Service}

/-- A read of BI after it: the same item or the same end mark, or there was neither before it. -/
theorem Service.readBit_on {s : State} (h : a.fits s) :
    (∃ b t, readBit s = .item b t ∧ readBit (a.on s) = .item b (a.on t)) ∨
      (readBit s = .eod ∧ readBit (a.on s) = .eod) ∨
      (readBit s = .hold ∧ (readBit (a.on s) = .hold ∨ a.serves s)) := by
  have h := h.bi
  rcases hb : s.biBits with _ | ⟨b, rest⟩
  · rcases he : s.biEod with _ | _
    · refine .inr (.inr ⟨readBit_hold.mpr ⟨hb, he⟩, ?_⟩)
      rcases hq : a.bits with _ | ⟨c, q⟩
      · rcases hd : a.biEnd with _ | _
        · exact .inl (readBit_hold.mpr (by simp [hb, he, hq, hd]))
        · exact .inr (.inr (.inl hd))
      · exact .inr (.inl (by simp [hq]))
    · exact .inr (.inl ⟨readBit_eod.mpr ⟨hb, he⟩, readBit_eod.mpr (by simp [hb, he, h he])⟩)
  · exact .inl ⟨b, _, readBit_item.mpr ⟨rest, hb, rfl⟩, readBit_item.mpr ⟨rest ++ a.bits, by simp [hb], rfl⟩⟩

/-- A read of YI after it. -/
theorem Service.readByte_on {s : State} (h : a.fits s) :
    (∃ b t, readByte s = .item b t ∧ readByte (a.on s) = .item b (a.on t)) ∨
      (readByte s = .eod ∧ readByte (a.on s) = .eod) ∨
      (readByte s = .hold ∧ (readByte (a.on s) = .hold ∨ a.serves s)) := by
  have h := h.yi
  rcases hb : s.yiBytes with _ | ⟨b, rest⟩
  · rcases he : s.yiEod with _ | _
    · refine .inr (.inr ⟨readByte_hold.mpr ⟨hb, he⟩, ?_⟩)
      rcases hq : a.bytes with _ | ⟨c, q⟩
      · rcases hd : a.yiEnd with _ | _
        · exact .inl (readByte_hold.mpr (by simp [hb, he, hq, hd]))
        · exact .inr (.inr (.inr (.inr (.inl hd))))
      · exact .inr (.inr (.inr (.inl (by simp [hq]))))
    · exact .inr (.inl ⟨readByte_eod.mpr ⟨hb, he⟩, readByte_eod.mpr (by simp [hb, he, h he])⟩)
  · exact .inl ⟨b, _, readByte_item.mpr ⟨rest, hb, rfl⟩, readByte_item.mpr ⟨rest ++ a.bytes, by simp [hb], rfl⟩⟩

theorem Service.commutes_needTree {f : State → State} {s : State} (h : a.commutes f s) : a.commutes (needTree f) s := by
  unfold Service.commutes needTree at *
  rw [a.on_treeValid]
  cases s.treeValid
  · exact .inl rfl
  · exact h

theorem Service.commutes_atStart {f : State → State} {s : State} (h : f (a.on s) = a.on (f s)) :
    a.commutes (atStart f) s := by
  refine .inl ?_
  unfold atStart
  rw [a.on_phase]
  split
  · exact h
  · rfl

theorem Service.on_withCodes {f : State → State} {s : State} (h : ∀ s, f (a.on s) = a.on (f s)) :
    withCodes f (a.on s) = a.on (withCodes f s) := by
  unfold withCodes
  rw [a.on_arena, a.on_root]
  generalize codeTableOf s.arena s.root = c
  cases c with
  | none => rfl
  | some c => exact h { s with code := c, codesValid := true }

/-- Reading a bit and going on with it. -/
theorem Service.commutes_readBit {s : State} {e : State → State} {g : Bool → State → State} (h : a.fits s)
    (he : e (a.on s) = a.on (e s)) (hg : ∀ b t, g b (a.on t) = a.on (g b t)) :
    a.commutes (fun s => match readBit s with | .item b t => g b t | .eod => e s | .hold => s) s := by
  unfold Service.commutes
  rcases a.readBit_on h with ⟨b, t, h1, h2⟩ | ⟨h1, h2⟩ | ⟨h1, h2 | h2⟩ <;> simp only [h1]
  · simp only [h2]; exact .inl (hg b t)
  · simp only [h2]; exact .inl he
  · simp only [h2]; exact .inl trivial
  · exact .inr ⟨trivial, h2⟩

/-- Writing a bit and going on. -/
theorem Service.commutes_writeBit {s : State} {g : State → State} (h : a.fits s) (hg : ∀ t, g (a.on t) = a.on (g t))
    (b : Bool) : a.commutes (fun s => match writeBit b s with | some t => g t | none => s) s := by
  unfold Service.commutes
  have hd : (a.on s).boBits.length = s.boBits.length - a.boTaken := List.length_drop ..
  by_cases hr : s.boBits.length < s.depths.bo
  · have h1 : writeBit b s = some _ := writeBit_some.mpr ⟨hr, rfl⟩
    have h2 : writeBit b (a.on s) = some (a.on { s with boBits := s.boBits ++ [b], boCount := s.boCount + 1 }) :=
      writeBit_some.mpr ⟨by rw [hd]; exact h.boRoom hr, by simp [Service.on, List.drop_append_of_le_length h.bo]⟩
    simp only [h1, h2]
    exact .inl (hg _)
  · have h1 : writeBit b s = none := writeBit_none.mpr (by omega)
    simp only [h1]
    by_cases h0 : a.boTaken = 0 ∧ a.depths = s.depths
    · have h2 : writeBit b (a.on s) = none := writeBit_none.mpr (by rw [hd, h0.1]; show a.depths.bo ≤ _; rw [h0.2]; omega)
      simp only [h2]
      exact .inl trivial
    · refine .inr ⟨trivial, ?_⟩
      simp only [Service.serves]
      by_cases h1 : a.boTaken = 0
      · exact .inr (.inr (.inr (.inr (.inr (.inr fun e => h0 ⟨h1, e⟩)))))
      · exact .inr (.inr (.inr (.inr (.inl h1))))

/-- Writing a byte and going on. -/
theorem Service.commutes_writeByte {s : State} {g : State → State} (h : a.fits s) (hg : ∀ t, g (a.on t) = a.on (g t))
    (b : Byte) : a.commutes (fun s => match writeByte b s with | some t => g t | none => s) s := by
  unfold Service.commutes
  have hd : (a.on s).yoBytes.length = s.yoBytes.length - a.yoTaken := List.length_drop ..
  by_cases hr : s.yoBytes.length < s.depths.yo
  · have h1 : writeByte b s = some _ := writeByte_some.mpr ⟨hr, rfl⟩
    have h2 : writeByte b (a.on s) = some (a.on { s with yoBytes := s.yoBytes ++ [b], yoCount := s.yoCount + 1 }) :=
      writeByte_some.mpr ⟨by rw [hd]; exact h.yoRoom hr, by simp [Service.on, List.drop_append_of_le_length h.yo]⟩
    simp only [h1, h2]
    exact .inl (hg _)
  · have h1 : writeByte b s = none := writeByte_none.mpr (by omega)
    simp only [h1]
    by_cases h0 : a.yoTaken = 0 ∧ a.depths = s.depths
    · have h2 : writeByte b (a.on s) = none := writeByte_none.mpr (by rw [hd, h0.1]; show a.depths.yo ≤ _; rw [h0.2]; omega)
      simp only [h2]
      exact .inl trivial
    · refine .inr ⟨trivial, ?_⟩
      simp only [Service.serves]
      by_cases h1 : a.yoTaken = 0
      · exact .inr (.inr (.inr (.inr (.inr (.inr fun e => h0 ⟨h1, e⟩)))))
      · exact .inr (.inr (.inr (.inr (.inr (.inl h1)))))

theorem Service.commutes_encNext {s : State} (h : a.fits s) : a.commutes encNext s := by
  unfold Service.commutes encNext
  rcases a.readByte_on h with ⟨b, t, h1, h2⟩ | ⟨h1, h2⟩ | ⟨h1, h2 | h2⟩ <;> simp only [h1]
  · simp only [h2]; exact .inl rfl
  · simp only [h2]; exact .inl rfl
  · simp only [h2]; exact .inl trivial
  · exact .inr ⟨trivial, h2⟩

theorem Service.commutes_deserFlag {s : State} (h : a.fits s) (n lv : Idx) (st : List DeserFrame) :
    a.commutes (deserFlag n lv st) s := by
  unfold Service.commutes deserFlag
  by_cases hn : n = 513
  · simp [hn]
  · simp only [hn, if_false]
    rcases a.readBit_on h with ⟨b, t, h1, h2⟩ | ⟨h1, h2⟩ | ⟨h1, h2 | h2⟩ <;> simp only [h1]
    · simp only [h2]; cases b <;> exact .inl rfl
    · simp only [h2]; exact .inl rfl
    · simp only [h2]; exact .inl trivial
    · exact .inr ⟨trivial, h2⟩

theorem Service.commutes_decWalk {s : State} (h : a.fits s) (i : Idx) : a.commutes (decWalk i) s := by
  unfold Service.commutes decWalk
  rw [a.on_arena]
  cases arenaAt s.arena i with
  | leaf sym w =>
    simp only
    split
    · exact .inl rfl
    · exact a.commutes_writeByte h (g := goTo _) (fun _ => rfl) _
  | internal l r w =>
    rcases a.readBit_on h with ⟨b, t, h1, h2⟩ | ⟨h1, h2⟩ | ⟨h1, h2 | h2⟩ <;> simp only [h1]
    · simp only [h2]; cases b <;> exact .inl rfl
    · simp only [h2]; exact .inl rfl
    · simp only [h2]; exact .inl trivial
    · exact .inr ⟨trivial, h2⟩

/-- An engine step of any command commutes with the host's service of the ports, or holds until it (R17; spec/20_memory.md
R76). -/
theorem commandStep_service (i : Instr) {s : State} (h : a.fits s) : a.commutes (commandStep i) s := by
  cases i
  case nop => exact a.commutes_atStart rfl
  case clrFreq => exact a.commutes_atStart rfl
  case build => exact a.commutes_atStart rfl
  case codes => exact Service.commutes_atStart (by
    unfold needTree; rw [a.on_treeValid]; split
    · exact a.on_withCodes fun _ => rfl
    · rfl)
  case ser =>
    unfold Service.commutes
    simp only [commandStep, serStep, a.on_phase]
    split
    · refine .inl ?_; unfold needTree; rw [a.on_treeValid]; split <;> rfl
    · exact a.commutes_writeBit h (g := goTo _) (fun _ => rfl) _
    all_goals exact .inl rfl
  case magicWr =>
    unfold Service.commutes
    simp only [commandStep, magicWrStep, a.on_phase]
    split
    · exact .inl rfl
    · exact .inl rfl
    · exact a.commutes_writeBit h (g := goTo _) (fun _ => rfl) _
    · exact .inl rfl
  case deser =>
    unfold Service.commutes
    simp only [commandStep, deserStep, a.on_phase]
    split
    · exact .inl rfl
    · exact a.commutes_deserFlag h _ _ _
    · refine .inl ?_; unfold deserLeaf; split <;> rfl
    · exact a.commutes_readBit h rfl fun _ _ => rfl
    · refine .inl ?_; unfold deserReturn; split <;> rfl
    · exact .inl rfl
  case enc =>
    unfold Service.commutes
    simp only [commandStep, encStep, a.on_phase]
    split
    · refine .inl ?_
      unfold needTree; rw [a.on_treeValid]; split
      · refine a.on_withCodes fun t => ?_
        unfold encBegin; rw [a.on_code]; split <;> rfl
      · rfl
    · exact a.commutes_writeBit h (g := goTo _) (fun _ => rfl) _
    · exact a.commutes_encNext h
    · exact .inl rfl
    · refine .inl ?_; unfold encLookup; rw [a.on_code]; split <;> rfl
    · exact .inl rfl
  case dec =>
    unfold Service.commutes
    simp only [commandStep, decStep, a.on_phase]
    split
    · exact a.commutes_needTree (.inl (by
        unfold decBegin; rw [a.on_arena, a.on_root]; split
        · split <;> rfl
        · rfl))
    · exact a.commutes_decWalk h _
    · exact .inl rfl
  case magicChk =>
    unfold Service.commutes
    simp only [commandStep, magicChkStep, a.on_phase]
    split
    · exact .inl rfl
    · refine .inl ?_; rw [a.on_magic]; split <;> rfl
    · exact a.commutes_readBit h rfl fun _ _ => rfl
    · exact .inl rfl

/-- The service that only sets the order of steps. -/
def Service.reorder (s : State) (ts cy : List Turn) : Service := ⟨[], false, [], false, 0, 0, s.depths, ts, cy, []⟩

theorem Service.reorder_on {s t : State} (h : t.depths = s.depths) (ts cy : List Turn) :
    (Service.reorder s ts cy).on t = { t with turns := ts, cycle := cy } := by
  simp [Service.on, Service.reorder, ← h]

theorem commandStep_reorder (i : Instr) (s : State) (ts cy : List Turn) :
    commandStep i ((Service.reorder s ts cy).on s) = (Service.reorder s ts cy).on (commandStep i s) := by
  rcases commandStep_service (a := Service.reorder s ts cy) i (s := s)
    ⟨fun _ => rfl, fun _ => rfl, Nat.zero_le _, Nat.zero_le _, id, id⟩ with h | ⟨-, h⟩
  · exact h
  · simp [Service.serves, Service.reorder] at h

/-- No engine step changes the capacities. -/
@[simp] theorem commandStep_depths (i : Instr) (s : State) : (commandStep i s).depths = s.depths := by
  have h := congrArg State.depths (commandStep_reorder i s s.turns s.cycle)
  rw [Service.reorder_on rfl] at h
  exact h

/-- No engine step reads the order of steps. -/
theorem commandStep_setOrder (i : Instr) (s : State) (ts cy : List Turn) :
    commandStep i { s with turns := ts, cycle := cy } = { commandStep i s with turns := ts, cycle := cy } := by
  have h := commandStep_reorder i s ts cy
  rwa [Service.reorder_on rfl, Service.reorder_on (commandStep_depths i s)] at h

/-- No engine step changes the order of steps. -/
@[simp] theorem commandStep_turns (i : Instr) (s : State) : (commandStep i s).turns = s.turns := by
  have h := congrArg State.turns (commandStep_setOrder i s s.turns s.cycle)
  exact h

@[simp] theorem commandStep_cycle (i : Instr) (s : State) : (commandStep i s).cycle = s.cycle := by
  have h := congrArg State.cycle (commandStep_setOrder i s s.turns s.cycle)
  exact h

theorem commandStep_setTurns (i : Instr) (s : State) (ts : List Turn) :
    commandStep i { s with turns := ts } = { commandStep i s with turns := ts } := by
  have h := commandStep_setOrder i s ts s.cycle
  rw [← commandStep_cycle i s] at h
  simpa using h

theorem repeatStep_setTurns (i : Instr) (k : Nat) (s : State) (ts : List Turn) :
    repeatStep k (commandStep i) { s with turns := ts } = { repeatStep k (commandStep i) s with turns := ts } := by
  induction k generalizing s with
  | zero => rfl
  | succ k ih => rw [repeatStep, commandStep_setTurns, ih]; rfl

end Sys2Proof.Machine
end

