-- ==== Sys2Proof/Laws/Fairness.lean ====
section
/-! SUPPORT. Runs of steps, and weak fairness (spec/70_reset_and_hazards.md R247): the engine's turn always comes again. -/

namespace Sys2Proof.Machine

/-! ### Runs -/

theorem run_succ {n : Nat} {s t : State} (h : step s = .next t) : core.run (n + 1) s = core.run n t := by
  have e : core.step s = .next t := h
  simp only [Host.Core.run, e]

/-- The first of `n + 1` steps of a run that answers a next state. -/
theorem run_succ_next {n : Nat} {s t : State} (h : core.run (n + 1) s = .next t) :
    ∃ u, step s = .next u ∧ core.run n u = .next t := by
  rcases hs : step s with u | r | r
  · exact ⟨u, rfl, by rw [← run_succ hs]; exact h⟩
  all_goals
    have e : core.step s = _ := hs
    simp [Host.Core.run, e] at h

theorem run_add {m n : Nat} {s t : State} (h : core.run m s = .next t) : core.run (m + n) s = core.run n t := by
  induction m generalizing s with
  | zero => cases h; rw [Nat.zero_add]
  | succ m ih =>
    obtain ⟨u, hu, hr⟩ := run_succ_next h
    rw [Nat.succ_add, run_succ hu]
    exact ih hr

/-- What every step keeps, and lets go on, holds after any number of steps. -/
theorem run_keeps {P : State → Prop} (h : ∀ s, P s → ∃ t, step s = .next t ∧ P t) (n : Nat) {s : State} (hs : P s) :
    ∃ t, core.run n s = .next t ∧ P t := by
  induction n generalizing s with
  | zero => exact ⟨s, rfl, hs⟩
  | succ n ih =>
    obtain ⟨u, hu, hp⟩ := h s hs
    rw [run_succ hu]
    exact ih hp

theorem step_host {s : State} {a : HostAction} {rest : List Turn} (h : s.order = .host a :: rest) :
    step s = hostStep a { s with turns := rest } := by simp [step, h]

/-- A step in which the engine, busy with command `i`, takes `k` engine steps. -/
theorem step_engine {s : State} {i : Instr} {c : Cont} {k : Nat} {rest : List Turn} (h : s.order = .engine k :: rest)
    (hp : s.phase = .busy (encode i) c) (hc : c.belongsTo i = true) :
    step s = .next (dropTurn (repeatStep k (commandStep i) s)) := by
  have hx : exec i s = .next (repeatStep k (commandStep i) s) :=
    exec_next.mpr ⟨by rw [hp]; exact hc, by rw [grant_of_order h]⟩
  have hd : decode (encode i) = .command i := by cases i <;> decide
  simp only [step, h, engineTurn, hp, runWord, hd, hx, mapNext]

/-! ### The order of steps in a run -/

@[simp] theorem regRead_turns (off : Offset) (s : State) : (regRead off s).turns = s.turns := by
  obtain ⟨x, d, h⟩ := regRead_eq off s
  rw [h]

theorem accept_turns (v : Word) (s : State) : (accept v s).turns = s.turns := by
  unfold accept
  rcases decode v with i | _ | _ | _
  · cases i <;> rfl
  all_goals rfl

theorem protectedWrite_turns {f : State → State} (h : ∀ s, (f s).turns = s.turns) (s : State) :
    (protectedWrite f s).turns = s.turns := by
  unfold protectedWrite
  split
  · rfl
  · exact h s

theorem writeReg_turns (r : Reg) (v : Word) (s : State) : (writeReg r v s).turns = s.turns := by
  cases r
  case cmd => exact protectedWrite_turns (accept_turns v) s
  case magic => exact protectedWrite_turns (f := fun s => { s with magic := v }) (fun _ => rfl) s
  case freq b => exact protectedWrite_turns (f := fun s => { s with freq := freqSet s.freq b v }) (fun _ => rfl) s
  case status => simp only [writeReg, writeStatus]; split <;> split <;> split <;> rfl
  case ctrl =>
    have bi := protectedWrite_turns clearBi_turns
    have yi := protectedWrite_turns clearYi_turns
    simp only [writeReg, writeCtrl]
    cases v.getLsbD 0 <;> cases v.getLsbD 1 <;> cases v.getLsbD 2 <;> simp [bi, yi]
  all_goals rfl

theorem regWrite_turns (off : Offset) (v : Word) (s : State) : (regWrite off v s).turns = s.turns := by
  unfold regWrite
  split
  · rfl
  · exact writeReg_turns ..

/-- No host step changes the order of the steps after it. -/
theorem hostStep_turns {a : HostAction} {s t : State} (h : hostStep a s = .next t) : t.turns = s.turns := by
  rcases hostStep_next_cases h with ⟨_, _, rfl⟩ | ⟨_, _, _, rfl⟩ | ⟨_, _, rfl⟩ | ⟨_, rfl⟩ | ⟨_, _, rfl⟩ | ⟨_, rfl⟩ | ⟨_, rfl⟩ |
    ⟨_, rfl⟩ | ⟨_, rfl⟩
  · exact regRead_turns ..
  · exact regWrite_turns ..
  · unfold pushBit; split <;> rfl
  · unfold pushBiEod; split <;> rfl
  · unfold pushByte; split <;> rfl
  · unfold pushYiEod; split <;> rfl
  · unfold popBit; split <;> rfl
  · unfold popByte; split <;> rfl
  · rfl

theorem illegalStep_order (w : Word) (s : State) :
    (illegalStep w s).turns = s.turns ∧ (illegalStep w s).cycle = s.cycle := by
  rcases illegalStep_cases w s with ⟨_, _, h⟩ | h <;> rw [h] <;> exact ⟨rfl, rfl⟩

/-- Every step takes one entry off the order. -/
theorem step_turns {s t : State} (h : step s = .next t) : t.turns = s.order.tail := by
  rcases step_next_cases h with ⟨a, rest, ho, hh⟩ | ⟨-, ⟨-, rfl⟩ | ⟨w, c, i, u, -, -, he, rfl⟩ | ⟨w, c, -, -, rfl⟩⟩
  · rw [hostStep_turns hh, ho]; rfl
  · rfl
  · obtain ⟨-, rfl⟩ := exec_next.mp he
    exact congrArg List.tail (repeatStep_keeps (P := fun u => u.order = s.order)
      (fun u hu => (order_congr (commandStep_turns i u) (commandStep_cycle i u)).trans hu) _ rfl)
  · exact congrArg List.tail (repeatStep_keeps (P := fun u => u.order = s.order)
      (fun u hu => (order_congr (illegalStep_order w u).1 (illegalStep_order w u).2).trans hu) _ rfl)

/-! ### Weak fairness -/

/-- With an engine's turn in the order, the engine's turn comes. -/
theorem engineTurn_of_order {pre post : List Turn} {k : Nat} {s : State} (h : s.order = pre ++ .engine (k + 1) :: post) :
    ∃ m, (∃ u, core.run m s = .next u ∧ EngineTurn u) ∨ ∀ u, core.run m s ≠ .next u := by
  induction pre generalizing s with
  | nil => exact ⟨0, .inl ⟨s, rfl, k, post, h⟩⟩
  | cons x pre ih =>
    rcases hs : step s with t | r | r
    · have ho : t.order = pre ++ .engine (k + 1) :: post := by
        have ht : t.turns = pre ++ .engine (k + 1) :: post := by rw [step_turns hs, h]; rfl
        cases pre <;> exact order_of_turns ht
      obtain ⟨m, hm⟩ := ih ho
      exact ⟨m + 1, by rw [run_succ hs]; exact hm⟩
    all_goals exact ⟨1, .inr fun u hu => by obtain ⟨v, hv, -⟩ := run_succ_next hu; rw [hs] at hv; cases hv⟩

/-- The engine's turn comes from every state, unless the run stops before. -/
theorem engineTurn_comes (s : State) : ∃ m, (∃ u, core.run m s = .next u ∧ EngineTurn u) ∨ ∀ u, core.run m s ≠ .next u := by
  suffices h : ∀ (ts : List Turn) (s : State), s.turns = ts →
      ∃ m, (∃ u, core.run m s = .next u ∧ EngineTurn u) ∨ ∀ u, core.run m s ≠ .next u from h _ s rfl
  intro ts
  induction ts with
  | nil => exact fun s hs => engineTurn_of_order (order_of_cycle hs)
  | cons x ts ih =>
    intro s hs
    rcases hst : step s with t | r | r
    · obtain ⟨m, hm⟩ := ih t (by rw [step_turns hst, order_of_turns hs]; rfl)
      exact ⟨m + 1, by rw [run_succ hst]; exact hm⟩
    all_goals exact ⟨1, .inr fun u hu => by obtain ⟨v, hv, -⟩ := run_succ_next hu; rw [hst] at hv; cases hv⟩

/-- Every run is weakly fair (R247). -/
theorem weaklyFair (s : State) : WeaklyFair s := fun _ t _ => engineTurn_comes t

end Sys2Proof.Machine
end

