-- ==== Sys2Proof/Laws/Drain.lean ====
section
/-! SUPPORT. A host that drains BO and YO sees every command end that ends on ports that never fill, whatever the capacities
(spec/70_reset_and_hazards.md R241, R248; spec/92_eei_decisions.md D11). -/

namespace Sys2Proof.Machine

/-! ### What an engine step does to the phase and the output ports -/

/-- From `s` to `t` an engine step of command `i` has kept its position, ended, or gone to another position of `i`, and has put
out one item at most at each port. -/
structure Moves (i : Instr) (s t : State) : Prop where
  phase : t.phase = s.phase ∨ t.phase = .idle ∨ ∃ c, c.belongsTo i = true ∧ t.phase = s.phase.moveTo c
  bo : t.boBits = s.boBits ∨ ∃ b, t.boBits = s.boBits ++ [b]
  yo : t.yoBytes = s.yoBytes ∨ ∃ b, t.yoBytes = s.yoBytes ++ [b]

theorem Moves.refl (i : Instr) (s : State) : Moves i s s := ⟨.inl rfl, .inl rfl, .inl rfl⟩

theorem Moves.ends {i : Instr} {s t : State} (hp : t.phase = .idle) (hb : t.boBits = s.boBits) (hy : t.yoBytes = s.yoBytes) :
    Moves i s t := ⟨.inr (.inl hp), .inl hb, .inl hy⟩

theorem Moves.goTo {i : Instr} {s t : State} {c : Cont} (hc : c.belongsTo i = true) (hp : t.phase = s.phase)
    (hb : t.boBits = s.boBits) (hy : t.yoBytes = s.yoBytes) : Moves i s (goTo c t) :=
  ⟨.inr (.inr ⟨c, hc, congrArg (Phase.moveTo c) hp⟩), .inl hb, .inl hy⟩

theorem Moves.readBit {i : Instr} {s t : State} {b : Bool} {c : Cont} (h : readBit s = .item b t)
    (hc : c.belongsTo i = true) : Moves i s (Machine.goTo c t) := by
  obtain ⟨_, _, rfl⟩ := readBit_item.mp h
  exact .goTo hc rfl rfl rfl

theorem Moves.readByte {i : Instr} {s t : State} {b : Byte} {c : Cont} (h : readByte s = .item b t)
    (hc : c.belongsTo i = true) : Moves i s (Machine.goTo c t) := by
  obtain ⟨_, _, rfl⟩ := readByte_item.mp h
  exact .goTo hc rfl rfl rfl

theorem Moves.writeBit {i : Instr} {s t : State} {b : Bool} {c : Cont} (h : writeBit b s = some t)
    (hc : c.belongsTo i = true) : Moves i s (Machine.goTo c t) := by
  obtain ⟨_, rfl⟩ := writeBit_some.mp h
  exact ⟨.inr (.inr ⟨c, hc, rfl⟩), .inr ⟨b, rfl⟩, .inl rfl⟩

theorem Moves.writeByte {i : Instr} {s t : State} {b : Byte} {c : Cont} (h : writeByte b s = some t)
    (hc : c.belongsTo i = true) : Moves i s (Machine.goTo c t) := by
  obtain ⟨_, rfl⟩ := writeByte_some.mp h
  exact ⟨.inr (.inr ⟨c, hc, rfl⟩), .inl rfl, .inr ⟨b, rfl⟩⟩

theorem Moves.atStart {i : Instr} {f : State → State} {s : State} (h : Moves i s (f s)) : Moves i s (atStart f s) := by
  rcases atStart_cases f s with ⟨_, _, e⟩ | e <;> rw [e]
  · exact h
  · exact .refl i s

theorem Moves.needTree {i : Instr} {f : State → State} {s : State} (h : Moves i s (f s)) : Moves i s (needTree f s) := by
  rcases needTree_cases f s with ⟨_, e⟩ | ⟨_, e⟩ <;> rw [e]
  · exact h
  · exact .ends rfl rfl rfl

theorem Moves.withCodes {i : Instr} {f : State → State} {s : State}
    (h : ∀ c, Moves i s (f { s with code := c, codesValid := true })) : Moves i s (withCodes f s) := by
  rcases withCodes_cases f s with ⟨c, _, e⟩ | ⟨_, e⟩ <;> rw [e]
  · exact h c
  · exact .refl i s

theorem commandStep_moves (i : Instr) (s : State) : Moves i s (commandStep i s) := by
  cases i
  case nop => exact Moves.atStart (f := complete) (.ends rfl rfl rfl)
  case clrFreq => exact Moves.atStart (f := fun s => complete { s with freq := freqZero }) (.ends rfl rfl rfl)
  case build => exact Moves.atStart (f := fun s => complete (storeTree s)) (.ends rfl rfl rfl)
  case codes => exact .atStart (.needTree (.withCodes fun _ => .ends rfl rfl rfl))
  case ser =>
    simp only [commandStep, serStep]
    split
    · exact .needTree (.goTo rfl rfl rfl rfl)
    · split
      · rename_i h; exact .writeBit h rfl
      · exact .refl ..
    · exact .goTo rfl rfl rfl rfl
    · exact .ends rfl rfl rfl
    · exact .refl ..
  case magicWr =>
    simp only [commandStep, magicWrStep]
    split
    · exact .goTo rfl rfl rfl rfl
    · exact .ends rfl rfl rfl
    · split
      · rename_i h; exact .writeBit h rfl
      · exact .refl ..
    · exact .refl ..
  case magicChk =>
    simp only [commandStep, magicChkStep]
    split
    · exact .goTo rfl rfl rfl rfl
    · split <;> exact .ends rfl rfl rfl
    · split
      · rename_i h; exact .readBit h rfl
      · exact .ends rfl rfl rfl
      · exact .refl ..
    · exact .refl ..
  case deser =>
    simp only [commandStep, deserStep]
    split
    · exact .goTo rfl rfl rfl rfl
    · unfold deserFlag; split
      · exact .ends rfl rfl rfl
      · split
        · rename_i h; exact .readBit h rfl
        · rename_i h; exact .readBit h rfl
        · exact .ends rfl rfl rfl
        · exact .refl ..
    · unfold deserLeaf; split
      · exact .ends rfl rfl rfl
      · exact .goTo rfl rfl rfl rfl
    · unfold deserField; split
      · rename_i h; exact .readBit h rfl
      · exact .ends rfl rfl rfl
      · exact .refl ..
    · unfold deserReturn; split
      · exact .ends rfl rfl rfl
      all_goals exact .goTo rfl rfl rfl rfl
    · exact .refl ..
  case enc =>
    simp only [commandStep, encStep]
    split
    · refine .needTree (.withCodes fun c => ?_)
      unfold encBegin; split
      · exact .goTo rfl rfl rfl rfl
      · exact .ends rfl rfl rfl
    · split
      · rename_i h; exact .writeBit h rfl
      · exact .refl ..
    · unfold encNext; split
      · rename_i h; exact .readByte h rfl
      · exact .goTo rfl rfl rfl rfl
      · exact .refl ..
    · exact .ends rfl rfl rfl
    · unfold encLookup; split
      · exact .goTo rfl rfl rfl rfl
      · exact .ends rfl rfl rfl
    · exact .refl ..
  case dec =>
    simp only [commandStep, decStep]
    split
    · refine .needTree ?_
      unfold decBegin; split
      · split <;> exact .ends rfl rfl rfl
      · exact .goTo rfl rfl rfl rfl
    · unfold decWalk; split
      · split
        · rename_i h; exact .readBit h rfl
        · rename_i h; exact .readBit h rfl
        · exact .ends rfl rfl rfl
        · exact .refl ..
      · split
        · exact .ends rfl rfl rfl
        · split
          · rename_i h; exact .writeByte h rfl
          · exact .refl ..
    · exact .refl ..

/-! ### The drained machine -/

/-- The service `a` of a host that has only taken items from BO and YO, told it so, and drains both again in every round; on `s`,
whose ports hold all that was put out. -/
structure Service.drains (a : Service) (s : State) : Prop where
  input : a.bits = [] ∧ a.biEnd = false ∧ a.bytes = [] ∧ a.yiEnd = false
  bo : a.boTaken ≤ s.boBits.length
  yo : a.yoTaken ≤ s.yoBytes.length
  boHeld : s.boBits.length - a.boTaken ≤ a.depths.bo
  yoHeld : s.yoBytes.length - a.yoTaken ≤ a.depths.yo
  boCap : 1 ≤ a.depths.bo
  yoCap : 1 ≤ a.depths.yo
  bits : toldBits a.told = s.boBits.take a.boTaken
  bytes : toldBytes a.told = s.yoBytes.take a.yoTaken
  cycle : a.cycle = drainCycle

@[simp] theorem toldBits_append (p q : List Seen) : toldBits (p ++ q) = toldBits p ++ toldBits q := List.filterMap_append
@[simp] theorem toldBytes_append (p q : List Seen) : toldBytes (p ++ q) = toldBytes p ++ toldBytes q := List.filterMap_append

@[simp] theorem toldBits_bit (b : Bool) : toldBits [.bit b] = [b] := rfl
@[simp] theorem toldBits_byte (x : Byte) : toldBits [.byte x] = [] := rfl
@[simp] theorem toldBits_nothing : toldBits [.nothing] = [] := rfl
@[simp] theorem toldBytes_bit (b : Bool) : toldBytes [.bit b] = [] := rfl
@[simp] theorem toldBytes_byte (x : Byte) : toldBytes [.byte x] = [x] := rfl
@[simp] theorem toldBytes_nothing : toldBytes [.nothing] = [] := rfl

theorem take_succ_of_drop {α : Type} {l q : List α} {n : Nat} {b : α} (h : l.drop n = b :: q) :
    l.take (n + 1) = l.take n ++ [b] ∧ l.drop (n + 1) = q ∧ n + 1 ≤ l.length := by
  have hl : n < l.length := by
    rcases Nat.lt_or_ge n l.length with h' | h'
    · exact h'
    · rw [List.drop_eq_nil_of_le h'] at h; cases h
  rw [List.drop_eq_getElem_cons hl, List.cons.injEq] at h
  exact ⟨by rw [List.take_succ_eq_append_getElem hl, h.1], h.2, hl⟩

/-- A pop of a bit in the drained machine: the service with one item more taken, or nothing, and room in BO after it. -/
theorem Service.drains.popsBit {a : Service} {s : State} (h : a.drains s) (ts : List Turn) :
    ∃ a' : Service, hostStep HostAction.popBit { a.on s with turns := ts } = .next (a'.on s) ∧ a'.drains s ∧ a'.turns = ts ∧
      a'.depths = a.depths ∧ a'.yoTaken = a.yoTaken ∧ s.boBits.length - a'.boTaken < a'.depths.bo := by
  have hd : (a.on s).boBits = s.boBits.drop a.boTaken := rfl
  rcases hb : s.boBits.drop a.boTaken with _ | ⟨b, q⟩
  · refine ⟨{ a with turns := ts, told := a.told ++ [.nothing] }, ?_, ?_, rfl, rfl, rfl, ?_⟩
    · simp [hostStep, popBit, hd, hb, inform, Service.on]
    · exact { h with bits := by simp [h.bits], bytes := by simp [h.bytes] }
    · have := List.length_drop (i := a.boTaken) (l := s.boBits)
      rw [hb] at this
      have := h.boCap
      simp only [List.length_nil] at *
      omega
  · obtain ⟨h1, h2, h3⟩ := take_succ_of_drop hb
    refine ⟨{ a with turns := ts, boTaken := a.boTaken + 1, told := a.told ++ [.bit b] }, ?_, ?_, rfl, rfl, rfl, ?_⟩
    · simp [hostStep, popBit, hd, hb, inform, Service.on, h2]
    · exact { h with
        bo := h3, boHeld := by have := h.boHeld; show s.boBits.length - (a.boTaken + 1) ≤ a.depths.bo; omega,
        bits := by simp [h.bits, h1], bytes := by simp [h.bytes] }
    · have := h.boHeld
      have := h.boCap
      show s.boBits.length - (a.boTaken + 1) < a.depths.bo
      omega

theorem Service.drains.popsByte {a : Service} {s : State} (h : a.drains s) (ts : List Turn) :
    ∃ a' : Service, hostStep HostAction.popByte { a.on s with turns := ts } = .next (a'.on s) ∧ a'.drains s ∧ a'.turns = ts ∧
      a'.depths = a.depths ∧ a'.boTaken = a.boTaken ∧ s.yoBytes.length - a'.yoTaken < a'.depths.yo := by
  have hd : (a.on s).yoBytes = s.yoBytes.drop a.yoTaken := rfl
  rcases hb : s.yoBytes.drop a.yoTaken with _ | ⟨b, q⟩
  · refine ⟨{ a with turns := ts, told := a.told ++ [.nothing] }, ?_, ?_, rfl, rfl, rfl, ?_⟩
    · simp [hostStep, popByte, hd, hb, inform, Service.on]
    · exact { h with bits := by simp [h.bits], bytes := by simp [h.bytes] }
    · have := List.length_drop (i := a.yoTaken) (l := s.yoBytes)
      rw [hb] at this
      have := h.yoCap
      simp only [List.length_nil] at *
      omega
  · obtain ⟨h1, h2, h3⟩ := take_succ_of_drop hb
    refine ⟨{ a with turns := ts, yoTaken := a.yoTaken + 1, told := a.told ++ [.byte b] }, ?_, ?_, rfl, rfl, rfl, ?_⟩
    · simp [hostStep, popByte, hd, hb, inform, Service.on, h2]
    · exact { h with
        yo := h3, yoHeld := by have := h.yoHeld; show s.yoBytes.length - (a.yoTaken + 1) ≤ a.depths.yo; omega,
        bits := by simp [h.bits], bytes := by simp [h.bytes, h1] }
    · have := h.yoHeld
      have := h.yoCap
      show s.yoBytes.length - (a.yoTaken + 1) < a.depths.yo
      omega

/-- One round of the drained machine is one engine step of the machine whose ports hold everything, unless that one holds. -/
theorem Service.drains.round {a : Service} {s : State} {i : Instr} {c : Cont} (h : a.drains s) (ht : a.turns = [])
    (hp : s.phase = .busy (encode i) c) (hc : c.belongsTo i = true) (hs : commandStep i s ≠ s) :
    ∃ a' : Service, core.run 3 (a.on s) = .next (a'.on (commandStep i s)) ∧ a'.drains (commandStep i s) ∧ a'.turns = [] ∧
      a'.depths = a.depths := by
  obtain ⟨b, hb, db, tb, eb, yb, rb⟩ := h.popsBit [.host .popByte, .engine 1]
  obtain ⟨d, hd, dd, td, ed, bd, rd⟩ := db.popsByte [.engine 1]
  have o1 : (a.on s).order = .host .popBit :: [.host .popByte, .engine 1] := by
    rw [order_of_cycle ht, show (a.on s).cycle = a.cycle from rfl, h.cycle]; rfl
  have o2 : (b.on s).order = .host .popByte :: [.engine 1] := order_of_turns tb
  have o3 : (d.on s).order = .engine 1 :: [] := order_of_turns td
  have hcom : commandStep i (d.on s) = d.on (commandStep i s) := by
    rcases commandStep_service (a := d) i (s := s)
      ⟨fun _ => dd.input.1, fun _ => dd.input.2.2.1, dd.bo, dd.yo, fun _ => by rw [bd, ed]; exact rb, fun _ => rd⟩ with e | ⟨e, -⟩
    · exact e
    · exact absurd e hs
  have hm := commandStep_moves i s
  refine ⟨{ d with turns := [] }, ?_, ?_, rfl, by rw [← eb, ← ed]⟩
  · rw [run_succ ((step_host o1).trans hb), run_succ ((step_host o2).trans hd),
      run_succ (step_engine o3 (by rw [show (d.on s).phase = s.phase from rfl]; exact hp) hc)]
    have : repeatStep 1 (commandStep i) (d.on s) = d.on (commandStep i s) := hcom
    rw [this]
    have o4 : (d.on (commandStep i s)).order = .engine 1 :: [] := order_of_turns td
    simp only [dropTurn, o4]
    rfl
  · have rb' : s.boBits.length - d.boTaken < d.depths.bo := by rw [bd, ed]; exact rb
    have e1 : d.boTaken ≤ (commandStep i s).boBits.length ∧ (commandStep i s).boBits.length - d.boTaken ≤ d.depths.bo ∧
        (commandStep i s).boBits.take d.boTaken = s.boBits.take d.boTaken := by
      have := dd.bo
      rcases hm.bo with e | ⟨x, e⟩ <;> rw [e]
      · exact ⟨this, dd.boHeld, rfl⟩
      · rw [List.length_append, List.length_singleton, List.take_append_of_le_length this]
        exact ⟨by omega, by omega, rfl⟩
    have e2 : d.yoTaken ≤ (commandStep i s).yoBytes.length ∧ (commandStep i s).yoBytes.length - d.yoTaken ≤ d.depths.yo ∧
        (commandStep i s).yoBytes.take d.yoTaken = s.yoBytes.take d.yoTaken := by
      have := dd.yo
      rcases hm.yo with e | ⟨x, e⟩ <;> rw [e]
      · exact ⟨this, dd.yoHeld, rfl⟩
      · rw [List.length_append, List.length_singleton, List.take_append_of_le_length this]
        exact ⟨by omega, by omega, rfl⟩
    exact ⟨dd.input, e1.1, e2.1, e1.2.1, e2.2.1, dd.boCap, dd.yoCap, by rw [e1.2.2]; exact dd.bits,
      by rw [e2.2.2]; exact dd.bytes, dd.cycle⟩

/-- The drained machine reaches the end that the machine whose ports hold everything reaches in `k` engine steps. -/
theorem Service.drains.ends {i : Instr} (k : Nat) {a : Service} {s : State} {c : Cont} (h : a.drains s) (ht : a.turns = [])
    (hp : s.phase = .busy (encode i) c) (hc : c.belongsTo i = true)
    (hk : (repeatStep k (commandStep i) s).phase = .idle) :
    ∃ (n : Nat) (a' : Service), core.run n (a.on s) = .next (a'.on (repeatStep k (commandStep i) s)) ∧
      a'.drains (repeatStep k (commandStep i) s) ∧ a'.turns = [] ∧ a'.depths = a.depths := by
  induction k generalizing a s c with
  | zero => rw [repeatStep, hp] at hk; cases hk
  | succ k ih =>
    have hs : commandStep i s ≠ s := fun e => by rw [repeatStep_fixed e, hp] at hk; cases hk
    obtain ⟨b, hb, db, tb, eb⟩ := h.round ht hp hc hs
    have idle (hi : (commandStep i s).phase = .idle) : repeatStep (k + 1) (commandStep i) s = commandStep i s :=
      repeatStep_fixed (commandStep_idle hi i) k
    have busy (c' : Cont) (hp' : (commandStep i s).phase = .busy (encode i) c') (hc' : c'.belongsTo i = true) :
        ∃ (n : Nat) (a' : Service), core.run n (a.on s) = .next (a'.on (repeatStep (k + 1) (commandStep i) s)) ∧
          a'.drains (repeatStep (k + 1) (commandStep i) s) ∧ a'.turns = [] ∧ a'.depths = a.depths := by
      obtain ⟨n, a', hr, hd, ht', e⟩ := ih db tb hp' hc' hk
      exact ⟨3 + n, a', by rw [run_add hb]; exact hr, hd, ht', e.trans eb⟩
    rcases (commandStep_moves i s).phase with e | e | ⟨c', hc', e⟩
    · exact busy c (e.trans hp) hc
    · rw [idle e]; exact ⟨3, b, hb, db, tb, eb⟩
    · rw [hp] at e; exact busy c' e hc'

/-- The run of a machine with capacities of at least 1 and a host that drains BO and YO in every round reaches the end of a
command that ends, in the engine steps of one turn, on ports with any capacities: the same state, and what is left in BO and YO
is what the host has not been given yet. -/
theorem drained_ends {i : Instr} {s u : State} {c : Cont} {d : Depths} {k : Nat} {rest : List Turn}
    (hp : s.phase = .busy (encode i) c) (ht : s.turns = []) (hcy : s.cycle = drainCycle) (hb : 1 ≤ s.depths.bo)
    (hy : 1 ≤ s.depths.yo) (hbo : s.boBits.length ≤ s.depths.bo) (hyo : s.yoBytes.length ≤ s.depths.yo)
    (hx : exec i { s with depths := d, turns := .engine k :: rest } = .next u) (hu : u.phase = .idle) :
    ∃ (n : Nat) (told : List Seen) (t : State), core.run n s = .next t ∧
      t = { u with depths := s.depths, turns := [], boBits := t.boBits, yoBytes := t.yoBytes, seen := u.seen ++ told } ∧
      u.boBits = toldBits told ++ t.boBits ∧ u.yoBytes = toldBytes told ++ t.yoBytes := by
  obtain ⟨hr, rfl⟩ := exec_next.mp hx
  have hc : c.belongsTo i = true := by simpa [hp, Phase.runs] using hr
  let a : Service := ⟨[], false, [], false, 0, 0, s.depths, [], s.cycle, []⟩
  have hd : a.drains { s with depths := d, turns := .engine k :: rest } :=
    ⟨⟨rfl, rfl, rfl, rfl⟩, Nat.zero_le _, Nat.zero_le _, hbo, hyo, hb, hy, rfl, rfl, hcy⟩
  have ha : a.on { s with depths := d, turns := .engine k :: rest } = s := by simp [a, Service.on, ← ht]
  have hcyc : ∀ m (s : State), (repeatStep m (commandStep i) s).cycle = s.cycle := fun m s =>
    repeatStep_keeps (P := fun u => u.cycle = s.cycle) (fun u hu => (commandStep_cycle i u).trans hu) m rfl
  obtain ⟨n, a', hrun, da, ta, ea⟩ := Service.drains.ends _ hd rfl hp hc hu
  rw [ha] at hrun
  have e := hcyc ({ s with depths := d, turns := .engine k :: rest } : State).grant
    { s with depths := d, turns := .engine k :: rest }
  generalize repeatStep _ (commandStep i) _ = u at *
  refine ⟨n, a'.told, _, hrun, ?_, ?_, ?_⟩
  · obtain ⟨h1, h2, h3, h4⟩ := da.input
    have e' : a'.cycle = u.cycle := (da.cycle.trans hcy.symm).trans e.symm
    simp only [Service.on, h1, h2, h3, h4, ta, ea, e', List.append_nil, Bool.or_false]
    rfl
  · rw [da.bits]; exact (List.take_append_drop ..).symm
  · rw [da.bytes]; exact (List.take_append_drop ..).symm

end Sys2Proof.Machine
end

