-- ==== Sys2Proof/Laws/Trees.lean ====
section
/-! SUPPORT. Trees: their sizes, their paths and codewords, the table `BuildCodes()` makes of them, the decoder's walk along a path,
and a preorder block of the arena as a tree. -/

namespace Sys2Proof.Machine

theorem Shape.count_pos (T : Shape) : 1 ≤ T.count := by cases T <;> simp [Shape.count]; omega

/-- A path with d choices needs 2d + 1 nodes. -/
theorem Shape.depth_lt_count (T : Shape) : 2 * T.depth + 1 ≤ T.count := by
  induction T with
  | leaf => simp [Shape.depth, Shape.count]
  | node l r hl hr => simp only [Shape.depth, Shape.count]; have := Shape.count_pos l; have := Shape.count_pos r; omega

theorem Shape.leafCount_le (T : Shape) : 1 ≤ T.leafCount ∧ T.leafCount ≤ T.count := by
  induction T with
  | leaf => simp [Shape.leafCount, Shape.symbols, Shape.count]
  | node l r hl hr => simp only [Shape.leafCount, Shape.symbols, Shape.count, List.length_append] at *; omega

theorem Shape.entries_length {a : Arena} {i : Idx} {T : Shape} (h : T.heldAt a i) : (T.entries a i).length = T.count := by
  induction T generalizing i with
  | leaf => simp [Shape.entries, Shape.count]
  | node l r hl hr =>
    obtain ⟨x, y, w, h1, h2, h3⟩ := h
    simp [Shape.entries, Shape.count, h1, hl h2, hr h3]; omega

theorem Shape.entry_mem_entries {a : Arena} {i : Idx} {T : Shape} : i.toNat ∈ T.entries a i := by
  cases T with
  | leaf => simp [Shape.entries]
  | node l r => simp only [Shape.entries]; split <;> simp

/-- The tree of R51 has NODES nodes. -/
theorem treeIs_count {s : State} {T : Shape} (h : s.treeIs T) : T.count = s.nodes.toNat := by
  obtain ⟨h1, h2, _⟩ := h
  have := h2.length_eq
  rw [Shape.entries_length h1] at this; simpa using this

/-- The code table with a list of entries written in order. -/
def codeSetAll (c : CodeTable) (es : List (Sys2Proof.Symbol × BitSeq)) : CodeTable := es.foldl (fun c e => codeSet c e.1 (some e.2)) c

/-- `Visit(i, p)` writes the paths of the tree at `i`, in preorder (spec/42_symbol_codec.md R160). -/
theorem visit_of_heldAt {a : Arena} {T : Shape} {i : Idx} (h : T.heldAt a i) (k : Nat) (hk : T.depth < k) (p : BitSeq) (c : CodeTable) :
    visit k a i p c = some (codeSetAll c (T.paths p)) := by
  induction T generalizing k i p c with
  | leaf sym =>
    obtain ⟨w, h⟩ := h
    rcases k with _ | k
    · omega
    · simp [visit, h, Shape.paths, codeSetAll]
  | node l r hl hr =>
    obtain ⟨x, y, w, h1, h2, h3⟩ := h
    rcases k with _ | k
    · omega
    · simp only [Shape.depth] at hk
      simp only [visit, h1, hl h2 k (by omega), hr h3 k (by omega), Shape.paths, codeSetAll, List.foldl_append]

/-- The last entry written for a symbol stands. -/
theorem codeAt_codeSetAll (es : List (Sys2Proof.Symbol × BitSeq)) (c : CodeTable) (hes : ∀ e ∈ es, e.1.toNat < Config.nsym) (sym : Sys2Proof.Symbol) :
    codeAt (codeSetAll c es) sym = match (es.filter fun e => e.1 == sym).getLast? with | some e => some e.2 | none => codeAt c sym := by
  induction es generalizing c with
  | nil => simp [codeSetAll]
  | cons e es ih =>
    have h1 : codeSetAll c (e :: es) = codeSetAll (codeSet c e.1 (some e.2)) es := rfl
    rw [h1, ih _ (fun x hx => hes x (by simp [hx]))]
    rw [List.filter_cons]
    by_cases he : e.1 = sym
    · subst he
      simp only [beq_self_eq_true, if_true]
      generalize hl : (es.filter fun x => x.1 == e.1) = L
      have hcs : codeAt (codeSet c e.1 (some e.2)) e.1 = some e.2 := by simp [codeAt_codeSet _ _ _ _ (hes e (by simp))]
      rw [hcs]
      rcases L with _ | ⟨q, qs⟩
      · rfl
      · rw [List.getLast?_cons_cons, List.getLast?_eq_some_getLast (List.cons_ne_nil q qs)]
    · have : (e.1 == sym) = false := by simpa using he
      simp only [this]
      have : codeAt (codeSet c e.1 (some e.2)) sym = codeAt c sym := by
        rw [codeAt_codeSet _ _ _ _ (hes e (by simp))]; rw [if_neg (fun h => he h.symm)]
      simp only [this]; rfl

theorem Shape.paths_symbols (T : Shape) (p : BitSeq) : (T.paths p).map Prod.fst = T.symbols := by
  induction T generalizing p with
  | leaf => rfl
  | node l r hl hr => simp [Shape.paths, Shape.symbols, hl, hr]

theorem Shape.paths_symbol_lt {T : Shape} (h : ∀ sym ∈ T.symbols, sym ≤ Config.endSymbol) : ∀ e ∈ T.paths [], e.1.toNat < Config.nsym := by
  intro e he
  have h1 : e.1 ∈ (T.paths []).map Prod.fst := List.mem_map_of_mem he
  rw [Shape.paths_symbols] at h1
  have h2 : e.1.toNat ≤ 256 := BitVec.le_def.mp (h _ h1)
  show e.1.toNat < 257
  omega

/-- What `BuildCodes()` makes of the tree of R51. -/
theorem codeTableOf_of_treeIs {s : State} {T : Shape} (h : s.treeIs T) :
    ∃ c, codeTableOf s.arena s.root = some c ∧ (∀ sym, codeAt c sym = T.codeOf sym) ∧ c = T.codeTable := by
  have hc := treeIs_count h
  obtain ⟨h1, h2, h3, h4, h5⟩ := h
  have hd := Shape.depth_lt_count T
  have h3' : s.nodes.toNat ≤ 513 := h3
  have hv := visit_of_heldAt h1 Config.nodeCap (show T.depth < 513 by omega) [] codeNone
  have hcode : ∀ sym, codeAt (codeSetAll codeNone (T.paths [])) sym = T.codeOf sym := by
    intro sym
    rw [codeAt_codeSetAll _ _ (Shape.paths_symbol_lt h5)]
    unfold Shape.codeOf
    generalize ((T.paths []).filter fun e => e.1 == sym).getLast? = o
    cases o <;> simp
  refine ⟨_, hv, hcode, ?_⟩
  refine Vector.ext fun k hk => ?_
  have hk' : k < 257 := hk
  have e := hcode (BitVec.ofNat 9 k)
  have hm : (BitVec.ofNat 9 k).toNat = k := by simp; omega
  unfold codeAt at e
  rw [hm] at e
  rw [Vector.getElem?_eq_getElem hk, Option.getD_some] at e
  rw [e]
  simp [Shape.codeTable]

theorem Shape.paths_prefix {T : Shape} {p : BitSeq} {e} (h : e ∈ T.paths p) : p <+: e.2 := by
  induction T generalizing p with
  | leaf => simp [Shape.paths] at h; subst h; exact List.prefix_refl _
  | node l r hl hr =>
    simp only [Shape.paths, List.mem_append] at h
    rcases h with h | h
    · exact (List.prefix_append p _).trans (hl h)
    · exact (List.prefix_append p _).trans (hr h)

theorem Shape.paths_length_le {T : Shape} {p : BitSeq} {e} (h : e ∈ T.paths p) : e.2.length ≤ p.length + T.depth := by
  induction T generalizing p with
  | leaf => simp [Shape.paths] at h; subst h; simp
  | node l r hl hr =>
    simp only [Shape.paths, List.mem_append] at h
    simp only [Shape.depth]
    rcases h with h | h
    · have := hl h; simp at this; omega
    · have := hr h; simp at this; omega

/-- No path to a leaf is a prefix of another one. -/
theorem Shape.paths_prefix_eq {T : Shape} {p : BitSeq} {e f} (he : e ∈ T.paths p) (hf : f ∈ T.paths p) (h : e.2 <+: f.2) : e = f := by
  induction T generalizing p with
  | leaf => simp [Shape.paths] at he hf; rw [he, hf]
  | node l r hl hr =>
    simp only [Shape.paths, List.mem_append] at he hf
    rcases he with he | he <;> rcases hf with hf | hf
    · exact hl he hf
    · exfalso
      have h1 := (Shape.paths_prefix he).trans h
      have h2 := Shape.paths_prefix hf
      have := List.prefix_of_prefix_length_le h1 h2 (by simp)
      simpa using (List.prefix_append_right_inj p).mp this
    · exfalso
      have h1 := (Shape.paths_prefix he).trans h
      have h2 := Shape.paths_prefix hf
      have := List.prefix_of_prefix_length_le h1 h2 (by simp)
      simpa using (List.prefix_append_right_inj p).mp this
    · exact hr he hf

theorem Shape.codeOf_mem_paths {T : Shape} {sym p} (h : T.codeOf sym = some p) : (sym, p) ∈ T.paths [] := by
  unfold Shape.codeOf at h
  rw [Option.map_eq_some_iff] at h
  obtain ⟨e, h1, h2⟩ := h
  have := List.mem_of_getLast? h1
  rw [List.mem_filter] at this
  obtain ⟨h3, h4⟩ := this
  have h4 : e.1 = sym := by simpa using h4
  rw [← h2, ← h4]; exact h3

/-- The decoder's walk along the rest of a path to a leaf (spec/42_symbol_codec.md R175). -/
theorem Shape.decodeFrom_of_path {t : Shape} {T : Shape} {e} {p : BitSeq} (he : e ∈ T.paths p) (hn : ∀ sym, T ≠ .leaf sym) (z : BitSeq) :
    ∃ q, e.2 = p ++ q ∧ t.decodeFrom T (q ++ z) = if e.1 = Config.endSymbol then { bytes := [], atEnd := true, rest := z }
      else (t.decodeFrom t z).cons (byteOfSymbol e.1) := by
  induction T generalizing p with
  | leaf sym => exact absurd rfl (hn sym)
  | node l r hl hr =>
    have main : ∀ (b : Bool) (X : Shape), X = (if b then r else l) → e ∈ X.paths (p ++ [b]) →
        ((∀ sym, X ≠ .leaf sym) → ∃ q, e.2 = (p ++ [b]) ++ q ∧ t.decodeFrom X (q ++ z) = if e.1 = Config.endSymbol then { bytes := [], atEnd := true, rest := z }
      else (t.decodeFrom t z).cons (byteOfSymbol e.1)) →
        ∃ q, e.2 = p ++ q ∧ t.decodeFrom (.node l r) (q ++ z) = if e.1 = Config.endSymbol then { bytes := [], atEnd := true, rest := z }
      else (t.decodeFrom t z).cons (byteOfSymbol e.1) := by
      intro b X hX hmem hrec
      cases X with
      | leaf sym =>
        simp [Shape.paths] at hmem
        subst hmem
        refine ⟨[b], rfl, ?_⟩
        simp only [List.singleton_append, Shape.decodeFrom, ← hX]
      | node l' r' =>
        obtain ⟨q, h1, h2⟩ := hrec nofun
        refine ⟨b :: q, by simp [h1], ?_⟩
        simp only [List.cons_append, Shape.decodeFrom, ← hX]
        exact h2
    simp only [Shape.paths, List.mem_append] at he
    rcases he with he | he
    · exact main false l rfl he (fun h => hl he h)
    · exact main true r rfl he (fun h => hr he h)

theorem symbolOfByte_ne_end (b : Byte) : symbolOfByte b ≠ Config.endSymbol := by revert b; decide

theorem byteOfSymbol_symbolOfByte (b : Byte) : byteOfSymbol (symbolOfByte b) = b := by revert b; decide

theorem codeAt_codeTable {s : State} {T : Shape} (hT : s.treeIs T) : ∀ sym, codeAt T.codeTable sym = T.codeOf sym := by
  obtain ⟨c, h1, h2, h3⟩ := codeTableOf_of_treeIs hT
  rw [← h3]; exact h2

theorem Shape.preorder_length (T : Shape) (i : Nat) : (T.preorder i).length = T.count := by
  induction T generalizing i with
  | leaf => rfl
  | node l r hl hr => simp [Shape.preorder, Shape.count, hl, hr]; omega

theorem arenaBlock_congr {a b : Arena} {i : Nat} {ns : List Node} (h : arenaBlock a i ns) (hc : ∀ k, i ≤ k → k < i + ns.length → b[k]? = a[k]?) : arenaBlock b i ns := by
  intro k hk; rw [hc (i + k) (by omega) (by omega)]; exact h k hk

theorem arenaBlock_append {a : Arena} {i : Nat} {xs ys : List Node} (h : arenaBlock a i (xs ++ ys)) : arenaBlock a i xs ∧ arenaBlock a (i + xs.length) ys := by
  constructor
  · intro k hk
    rw [h k (by simp; omega), List.getElem_append_left]
  · intro k hk
    have := h (xs.length + k) (by simp; omega)
    rw [List.getElem_append_right (by omega)] at this
    simp only [Nat.add_sub_cancel_left] at this
    rw [Nat.add_assoc]; exact this

/-- A preorder block holds its tree, on its entries in order. -/
theorem heldAt_of_arenaBlock {a : Arena} {T : Shape} {i : Nat} (h : arenaBlock a i (T.preorder i)) (hi : i + T.count ≤ 513) :
    T.heldAt a (BitVec.ofNat 10 i) ∧ T.entries a (BitVec.ofNat 10 i) = List.range' i T.count := by
  have hm : i % 1024 = i := by have := Shape.count_pos T; omega
  induction T generalizing i with
  | leaf sym =>
    have := h 0 (by simp [Shape.preorder])
    simp [Shape.preorder] at this
    refine ⟨⟨0, by simp [arenaAt, hm, this]⟩, by simp [Shape.entries, Shape.count, hm]⟩
  | node l r hl hr =>
    simp only [Shape.count] at hi
    have h0 := h 0 (by simp [Shape.preorder])
    simp [Shape.preorder] at h0
    have h' : arenaBlock a (i+1) (l.preorder (i + 1) ++ r.preorder (i + 1 + l.count)) := by
      intro k hk
      have := h (k + 1) (by simp [Shape.preorder]; simpa using hk)
      simp only [Shape.preorder, List.getElem_cons_succ] at this
      rw [← this]; congr 1; omega
    obtain ⟨h1, h2⟩ := arenaBlock_append h'
    rw [Shape.preorder_length] at h2
    have := Shape.count_pos l; have := Shape.count_pos r
    obtain ⟨a1, a2⟩ := hl h1 (by omega) (by omega)
    obtain ⟨b1, b2⟩ := hr h2 (by omega) (by omega)
    have ha : arenaAt a (BitVec.ofNat 10 i) = .internal (BitVec.ofNat 10 (i + 1)) (BitVec.ofNat 10 (i + 1 + l.count)) 0 := by
      simp [arenaAt, hm, h0]
    refine ⟨⟨_, _, _, ha, a1, b1⟩, ?_⟩
    simp only [Shape.entries, ha, a2, b2, Shape.count, hm, BitVec.toNat_ofNat]
    rw [Nat.add_assoc 1, Nat.add_comm 1, List.range'_succ, ← List.range'_append_1]

theorem treeIs_of_arenaBlock {s : State} {T : Shape} (h : arenaBlock s.arena 0 (T.preorder 0)) (hc : T.count ≤ 513) (hs : ∀ sym ∈ T.symbols, sym ≤ 256#9)
    (hr : s.root = 0) (hn : s.nodes = BitVec.ofNat 10 T.count) (hl : s.leaves = BitVec.ofNat 10 T.leafCount) : s.treeIs T := by
  obtain ⟨h1, h2⟩ := heldAt_of_arenaBlock h (by omega)
  have := T.leafCount_le
  have hm : T.count % 1024 = T.count := by omega
  have hm' : T.leafCount % 1024 = T.leafCount := by omega
  refine ⟨by rw [hr]; exact h1, ?_, ?_, ?_, hs⟩
  · rw [hr, hn]; have : (0 : Idx) = BitVec.ofNat 10 0 := rfl
    rw [this, h2]; simp [hm, List.range_eq_range']
  · rw [hn]; simp [hm, Config.nodeCap]; omega
  · rw [hl]; simp [hm']

end Sys2Proof.Machine
end

