-- ==== Sys2Proof/Laws/Runs.lean ====
section
/-! SUPPORT. Runs of engine steps: how many steps a command's loops take and what they do. -/

namespace Sys2Proof.Machine

/-- `f` takes `s` to `t` in at most `n` steps. -/
def Reach (f : State → State) (n : Nat) (s t : State) : Prop := ∃ m, m ≤ n ∧ repeatStep m f s = t

theorem Reach.refl {f s} : Reach f 0 s s := ⟨0, le_refl _, rfl⟩

theorem Reach.trans {f n m s t u} (h : Reach f n s t) (k : Reach f m t u) : Reach f (n + m) s u := by
  obtain ⟨a, ha, h⟩ := h; obtain ⟨b, hb, k⟩ := k
  exact ⟨a + b, by omega, by rw [repeatStep_add, h, k]⟩

theorem Reach.mono {f n m s t} (h : Reach f n s t) (hnm : n ≤ m) : Reach f m s t := by
  obtain ⟨a, ha, h⟩ := h; exact ⟨a, by omega, h⟩

theorem Reach.one {f s t} (h : f s = t) : Reach f 1 s t := ⟨1, le_refl _, h⟩

/-- A command that reaches its end within the steps granted. -/
theorem exec_of_reach {i : Instr} {s t : State} {w : Word} {m : Nat} (hs : s.phase = .busy w .start)
    (hr : Reach (commandStep i) m s t) (ht : t.phase = .idle) (hm : m ≤ s.grant) : exec i s = .next t := by
  obtain ⟨k, hk, hr⟩ := hr
  exact exec_of_run hs hr ht (by omega)

theorem count_append {α} (p q : List α) (c : BitVec 32) : c + BitVec.ofNat 32 p.length + BitVec.ofNat 32 q.length = c + BitVec.ofNat 32 (p ++ q).length := by
  simp [BitVec.ofNat_add, BitVec.add_assoc]

theorem count_cons {α} (c : BitVec 32) (b : α) (p : List α) : c + 1 + BitVec.ofNat 32 p.length = c + BitVec.ofNat 32 (b :: p).length := by
  exact count_append [b] p c

theorem count_sub_cons (c : BitVec 32) (b : Bool) (bits rest : BitSeq) (h : rest.length ≤ bits.length) :
   c + 1 + BitVec.ofNat 32 (bits.length - rest.length) = c + BitVec.ofNat 32 ((b :: bits).length - rest.length) := by
  have : (b :: bits).length - rest.length = 1 + (bits.length - rest.length) := by simp; omega
  rw [this, BitVec.ofNat_add, BitVec.add_assoc]; rfl

theorem count_sub_trans (c : BitVec 32) (x y z : Nat) (h : y ≤ x) (h' : z ≤ y) : c + BitVec.ofNat 32 (x - y) + BitVec.ofNat 32 (y - z) = c + BitVec.ofNat 32 (x - z) := by
  rw [BitVec.add_assoc, ← BitVec.ofNat_add]; congr 2; omega

theorem bitsMsb_eq_range {n : Nat} (v : BitVec n) : bitsMsb v = (List.range n).map (fun k => v.getLsbD (n - 1 - k)) := by
  refine List.ext_getElem (by simp) fun k h1 h2 => ?_
  have : k < n := by simpa using h1
  rw [bitsMsb_getElem]; simp [BitVec.getMsbD, this]

/-- MAGIC_WR's write of the bits `p`. -/
theorem magicWrStep_bits (p : BitSeq) (s : State) (w : Word) (hp : s.phase = .busy w (.magicWr p)) (hd : s.boBits.length + p.length ≤ s.depths.bo) :
    repeatStep p.length magicWrStep s = { s with phase := .busy w (.magicWr []), boBits := s.boBits ++ p, boCount := s.boCount + BitVec.ofNat 32 p.length } := by
  induction p generalizing s with
  | nil => simp [repeatStep, ← hp]
  | cons b p ih =>
    simp at hd
    have hw : writeBit b s = some _ := writeBit_some.mpr ⟨by omega, rfl⟩
    have h1 : magicWrStep s = { s with phase := .busy w (.magicWr p), boBits := s.boBits ++ [b], boCount := s.boCount + 1 } := by
      simp [magicWrStep, hp, hw, goTo, Phase.moveTo]
    rw [List.length_cons, repeatStep, h1, ih _ rfl (by simp; omega)]
    simp only [List.append_assoc, List.singleton_append, State.mk.injEq, true_and, and_true]
    have := count_append [b] p s.boCount
    exact this

/-- MAGIC_CHK's read of the bits `p`. -/
theorem magicChkStep_bits (p rest : BitSeq) (s : State) (w : Word) (v : Word) (k : Nat) (hp : s.phase = .busy w (.magicChk v (p.length + k))) (hd : s.biBits = p ++ rest) :
    repeatStep p.length magicChkStep s = { s with phase := .busy w (.magicChk (p.foldl shiftIn v) k), biBits := rest, biCount := s.biCount + BitVec.ofNat 32 p.length } := by
  induction p generalizing s v with
  | nil => simp at hd; simp at hp; simp [repeatStep, ← hp, ← hd]
  | cons b p ih =>
    have hr : readBit s = .item b _ := readBit_item.mpr ⟨p ++ rest, hd, rfl⟩
    have e : (b :: p).length + k = (p.length + k) + 1 := by simp; omega
    rw [e] at hp
    have h1 : magicChkStep s = { s with phase := .busy w (.magicChk (shiftIn v b) (p.length + k)), biBits := p ++ rest, biCount := s.biCount + 1 } := by
      simp [magicChkStep, hp, hr, goTo, Phase.moveTo]
    rw [List.length_cons, repeatStep, h1, ih _ (shiftIn v b) rfl rfl]
    simp only [List.foldl_cons, State.mk.injEq, true_and, and_true]
    exact count_append [b] p s.biCount

/-- ENC's write of one codeword. -/
theorem encStep_bits (p : BitSeq) (l : Bool) (s : State) (w : Word) (hp : s.phase = .busy w (.enc p l)) (hd : s.boBits.length + p.length ≤ s.depths.bo) :
    Reach encStep p.length s { s with phase := .busy w (.enc [] l), boBits := s.boBits ++ p, boCount := s.boCount + BitVec.ofNat 32 p.length } := by
  induction p generalizing s with
  | nil => convert Reach.refl using 1 <;> simp [← hp]
  | cons b p ih =>
    simp at hd
    have hw : writeBit b s = some _ := writeBit_some.mpr ⟨by omega, rfl⟩
    have h1 : encStep s = { s with phase := .busy w (.enc p l), boBits := s.boBits ++ [b], boCount := s.boCount + 1 } := by
      simp [encStep, hp, hw, goTo, Phase.moveTo]
    have := (Reach.one h1).trans (ih _ rfl (by simp; omega))
    convert this.mono (m := (b :: p).length) (by simp; omega) using 1
    simp only [List.append_assoc, List.singleton_append, State.mk.injEq, true_and, and_true]
    exact (count_cons _ _ _).symm

/-- ENC's encoding of the bytes `bs`. -/
theorem encStep_bytes {T : Shape} (bs rest : List Byte) (p : BitSeq) (s : State) (w : Word) (hT : ∀ sym, codeAt s.code sym = T.codeOf sym)
    (hp : s.phase = .busy w (.enc [] false)) (hy : s.yiBytes = bs ++ rest) (he : T.encode bs = some p) (hd : s.boBits.length + p.length ≤ s.depths.bo) :
    Reach encStep (2 * bs.length + p.length) s { s with
      phase := .busy w (.enc [] false), boBits := s.boBits ++ p, boCount := s.boCount + BitVec.ofNat 32 p.length,
      yiBytes := rest, yiCount := s.yiCount + BitVec.ofNat 32 bs.length } := by
  induction bs generalizing s p with
  | nil => 
    simp [Shape.encode] at he; subst he
    simp at hy
    convert Reach.refl using 1 <;> simp [← hp, ← hy]
  | cons b bs ih =>
    simp only [Shape.encode] at he
    split at he
    · rename_i p1 q1 hc hrest
      simp at he; subst he
      simp at hd
      have hr : readByte s = .item b _ := readByte_item.mpr ⟨bs ++ rest, hy, rfl⟩
      have h1 : encStep s = { s with phase := .busy w (.encByte b), yiBytes := bs ++ rest, yiCount := s.yiCount + 1 } := by
        simp [encStep, hp, encNext, hr, goTo, Phase.moveTo]
      have h1' : encStep { s with phase := .busy w (.encByte b), yiBytes := bs ++ rest, yiCount := s.yiCount + 1 } =
          { s with phase := .busy w (.enc p1 false), yiBytes := bs ++ rest, yiCount := s.yiCount + 1 } := by
        simp [encStep, encLookup, hT, hc, goTo, Phase.moveTo]
      have h2 := ((Reach.one h1).trans (Reach.one h1')).trans (encStep_bits p1 false _ w rfl (by simp; omega))
      have h3 := h2.trans (ih q1 _ hT rfl rfl hrest (by simp; omega))
      convert h3.mono (m := 2 * (b :: bs).length + (p1 ++ q1).length) (by simp; omega) using 1
      simp only [List.append_assoc, State.mk.injEq, true_and, and_true]
      exact ⟨(count_append _ _ _).symm, (count_cons _ _ _).symm⟩
    · cases he

theorem encStep_start {s : State} {w : Word} {T : Shape} {e} (hp : s.phase = .busy w .start) (ht : s.treeValid = true) (hT : s.treeIs T) (hE : T.codeOf 256#9 = some e) :
    encStep s = { s with phase := .busy w (.enc [] false), code := T.codeTable, codesValid := true } := by
  obtain ⟨c, h1, h2, h3⟩ := codeTableOf_of_treeIs hT
  have : codeAt c Config.endSymbol = some e := by rw [h2]; exact hE
  simp [encStep, hp, needTree, ht, withCodes, h1, encBegin, this, h3, goTo, Phase.moveTo]
  rw [← h3, this]

/-- DEC's walks, from a subtree with a choice to the end of the command. -/
theorem decStep_walks {T : Shape} {w : Word} (n : Nat) : ∀ (cur : Shape) (i : Idx) (s : State),
    s.phase = .busy w (.dec i) → T.heldAt s.arena s.root → cur.heldAt s.arena i → (∀ sym, cur ≠ .leaf sym) → (∀ sym, T ≠ .leaf sym) →
    s.biBits.length ≤ n →
    ((T.decodeFrom cur s.biBits).atEnd = true ∨ s.biEod = true) → s.yoBytes.length + (T.decodeFrom cur s.biBits).bytes.length ≤ s.depths.yo →
    (T.decodeFrom cur s.biBits).rest.length ≤ s.biBits.length ∧ 
    Reach decStep (2 * (s.biBits.length - (T.decodeFrom cur s.biBits).rest.length) + 2) s { s with
      phase := .idle, done := true, endSeen := s.endSeen || (T.decodeFrom cur s.biBits).atEnd, biBits := (T.decodeFrom cur s.biBits).rest,
      biCount := s.biCount + BitVec.ofNat 32 (s.biBits.length - (T.decodeFrom cur s.biBits).rest.length),
      yoBytes := s.yoBytes ++ (T.decodeFrom cur s.biBits).bytes,
      yoCount := s.yoCount + BitVec.ofNat 32 (T.decodeFrom cur s.biBits).bytes.length } := by
  induction n with
  | zero =>
    intro cur i s hp hT hcur hn hTn hl h1 h2
    have hb : s.biBits = [] := List.length_eq_zero_iff.mp (by omega)
    rcases cur with sym | ⟨l, r⟩
    · exact absurd rfl (hn sym)
    obtain ⟨x, y, wt, ha, hl', hr'⟩ := hcur
    simp only [hb, Shape.decodeFrom] at h1 ⊢
    have he : s.biEod = true := by simpa using h1
    refine ⟨by simp, (Reach.one (f := decStep) ?_).mono (by simp)⟩
    simp [decStep, hp, decWalk, ha, readBit, hb, he, complete]
  | succ n ih =>
    intro cur i s hp hT hcur hn hTn hl h1 h2
    rcases cur with sym | ⟨l, r⟩
    · exact absurd rfl (hn sym)
    obtain ⟨x, y, wt, ha, hl', hr'⟩ := hcur
    rcases hb : s.biBits with _ | ⟨b, bits⟩
    · simp only [hb, Shape.decodeFrom] at h1 ⊢
      have he : s.biEod = true := by simpa using h1
      refine ⟨by simp, (Reach.one (f := decStep) ?_).mono (by simp)⟩
      simp [decStep, hp, decWalk, ha, readBit, hb, he, complete]
    · have hstep : decStep s = { s with phase := .busy w (.dec (if b then y else x)), biBits := bits, biCount := s.biCount + 1 } := by
        cases b <;> simp [decStep, hp, decWalk, ha, readBit, hb, goTo, Phase.moveTo]
      have hsub : (if b then r else l).heldAt s.arena (if b then y else x) := by cases b <;> assumption
      rw [hb] at h1 h2 hl
      simp only [Shape.decodeFrom] at h1 h2 ⊢
      rcases hX : (if b then r else l) with sym | ⟨l', r'⟩
      · rw [hX] at hsub
        obtain ⟨wt', ha'⟩ := hsub
        simp only [hX] at h1 h2 ⊢
        by_cases hE : sym = Config.endSymbol
        · simp only [hE, if_true]
          refine ⟨by simp, ?_⟩
          have := (Reach.one hstep).trans (Reach.one (f := decStep) rfl)
          convert this.mono (m := 2 * ((b :: bits).length - bits.length) + 2) (by simp) using 1
          simp [decStep, decWalk, ha', hE, decEnd, complete]
        · simp only [hE, if_false, Decoding.cons] at h1 h2 ⊢
          have hw : writeByte (byteOfSymbol sym) { s with phase := .busy w (.dec (if b then y else x)), biBits := bits, biCount := s.biCount + 1 } = some _ :=
            writeByte_some.mpr ⟨by simp at h2 ⊢; omega, rfl⟩
          have h3 : decStep { s with phase := .busy w (.dec (if b then y else x)), biBits := bits, biCount := s.biCount + 1 } =
             { s with phase := .busy w (.dec s.root), biBits := bits, biCount := s.biCount + 1, yoBytes := s.yoBytes ++ [byteOfSymbol sym], yoCount := s.yoCount + 1 } := by
            simp only [decStep, decWalk, ha', if_neg hE, hw]; rfl
          have key := ih T s.root { s with phase := .busy w (.dec s.root), biBits := bits, biCount := s.biCount + 1, yoBytes := s.yoBytes ++ [byteOfSymbol sym], yoCount := s.yoCount + 1 }
            rfl hT hT hTn hTn (by simp at hl ⊢; omega) h1 (by simp at h2 ⊢; omega)
          obtain ⟨k1, k2⟩ := key
          simp only at k1
          refine ⟨by simp; omega, ?_⟩
          have := ((Reach.one hstep).trans (Reach.one h3)).trans k2
          have hlen : (b :: bits).length - (T.decodeFrom T bits).rest.length = (bits.length - (T.decodeFrom T bits).rest.length) + 1 := by simp; omega
          rw [hlen]
          convert this.mono (m := 2 * (bits.length - (T.decodeFrom T bits).rest.length + 1) + 2) (by simp; omega) using 1
          simp only [List.append_assoc, List.singleton_append, State.mk.injEq, true_and, and_true]
          refine ⟨?_, (count_cons _ _ _).symm⟩
          rw [BitVec.ofNat_add, BitVec.add_comm (BitVec.ofNat 32 _), BitVec.add_assoc]; rfl
      · rw [hX] at hsub
        simp only [hX] at h1 h2 ⊢
        have key := ih (.node l' r') (if b then y else x) { s with phase := .busy w (.dec (if b then y else x)), biBits := bits, biCount := s.biCount + 1 }
            rfl hT hsub nofun hTn (by simp at hl ⊢; omega) h1 h2
        obtain ⟨k1, k2⟩ := key
        simp only at k1
        refine ⟨by simp; omega, ?_⟩
        have := (Reach.one hstep).trans k2
        have hlen : (b :: bits).length - (T.decodeFrom (.node l' r') bits).rest.length = (bits.length - (T.decodeFrom (.node l' r') bits).rest.length) + 1 := by simp; omega
        rw [hlen]
        convert this.mono (m := 2 * (bits.length - (T.decodeFrom (.node l' r') bits).rest.length + 1) + 2) (by simp; omega) using 1
        simp only [State.mk.injEq, true_and, and_true]
        rw [BitVec.ofNat_add, BitVec.add_comm (BitVec.ofNat 32 _), BitVec.add_assoc]; rfl

/-- SER's write of one token. -/
theorem serStep_bits (p : BitSeq) (st : List Idx) (s : State) (w : Word) (hp : s.phase = .busy w (.ser p st)) (hd : s.boBits.length + p.length ≤ s.depths.bo) :
    Reach serStep p.length s { s with phase := .busy w (.ser [] st), boBits := s.boBits ++ p, boCount := s.boCount + BitVec.ofNat 32 p.length } := by
  induction p generalizing s with
  | nil => convert Reach.refl using 1 <;> simp [← hp]
  | cons b p ih =>
    simp at hd
    have hw : writeBit b s = some _ := writeBit_some.mpr ⟨by omega, rfl⟩
    have h1 : serStep s = { s with phase := .busy w (.ser p st), boBits := s.boBits ++ [b], boCount := s.boCount + 1 } := by
      simp [serStep, hp, hw, goTo, Phase.moveTo]
    have := (Reach.one h1).trans (ih _ rfl (by simp; omega))
    convert this.mono (m := (b :: p).length) (by simp; omega) using 1
    simp only [List.append_assoc, List.singleton_append, State.mk.injEq, true_and, and_true]
    exact (count_cons _ _ _).symm

/-- SER's write of one subtree. -/
theorem serStep_tree {T : Shape} (i : Idx) (st : List Idx) (s : State) (w : Word) (hp : s.phase = .busy w (.ser [] (i :: st))) (hT : T.heldAt s.arena i)
    (hd : s.boBits.length + T.bits.length ≤ s.depths.bo) :
    Reach serStep (T.bits.length + T.count) s { s with phase := .busy w (.ser [] st), boBits := s.boBits ++ T.bits, boCount := s.boCount + BitVec.ofNat 32 T.bits.length } := by
  induction T generalizing i st s with
  | leaf sym =>
    obtain ⟨wt, ha⟩ := hT
    have h1 : serStep s = { s with phase := .busy w (.ser (false :: bitsMsb sym) st) } := by
      simp [serStep, hp, ha, nodeToken, nodeChildren, goTo, Phase.moveTo]
    have := (Reach.one h1).trans (serStep_bits _ st _ w rfl hd)
    exact this.mono (by simp [Shape.bits, Shape.count])
  | node l r hl hr =>
    obtain ⟨x, y, wt, ha, h1, h2⟩ := hT
    simp [Shape.bits] at hd
    have e1 : serStep s = { s with phase := .busy w (.ser [true] (x :: y :: st)) } := by
      simp [serStep, hp, ha, nodeToken, nodeChildren, goTo, Phase.moveTo]
    have r1 := (Reach.one e1).trans (serStep_bits _ _ _ w rfl (by simp; omega))
    have r2 := r1.trans (hl x (y :: st) _ rfl h1 (by simp; omega))
    have r3 := r2.trans (hr y st _ rfl h2 (by simp; omega))
    convert r3.mono (m := (Shape.node l r).bits.length + (Shape.node l r).count) (by simp [Shape.bits, Shape.count]; omega) using 1
    simp only [Shape.bits, List.append_assoc, List.cons_append, List.nil_append, State.mk.injEq, true_and, and_true]
    rw [BitVec.add_assoc, BitVec.add_assoc, ← BitVec.ofNat_add, ← BitVec.ofNat_add]
    congr 2; simp; omega

theorem shiftIn_ofNat {n : Nat} (x : Nat) (b : Bool) : shiftIn (BitVec.ofNat n x) b = BitVec.ofNat n (2 * x + b.toNat) := by
  refine BitVec.eq_of_getLsbD_eq fun k hk => ?_
  rw [shiftIn_getLsbD, BitVec.getLsbD_ofNat, BitVec.getLsbD_ofNat]
  rcases k with _ | k
  · cases b <;> simp only [hk, Nat.testBit_zero] <;> simp [Nat.mul_add_mod]
  · have : (2 * x + b.toNat) / 2 = x := by cases b <;> simp <;> omega
    simp only [hk, Nat.testBit_succ, this, Nat.add_sub_cancel, show k < n by omega]; simp

theorem foldl_shiftIn_ofNat {n : Nat} (p : BitSeq) (x : Nat) : p.foldl shiftIn (BitVec.ofNat n x) = BitVec.ofNat n (p.foldl (fun v b => 2 * v + b.toNat) x) := by
  induction p generalizing x with
  | nil => rfl
  | cons b p ih => simp only [List.foldl_cons, shiftIn_ofNat, ih]

theorem valueMsb_lt (p : BitSeq) : valueMsb p < 2 ^ p.length := by
  suffices ∀ x, p.foldl (fun v b => 2 * v + b.toNat) x < (x + 1) * 2 ^ p.length by simpa [valueMsb] using this 0
  induction p with
  | nil => simp
  | cons b p ih =>
    intro x
    have := ih (2 * x + b.toNat)
    simp only [List.foldl_cons, List.length_cons, Nat.pow_succ]
    refine this.trans_le ?_
    have hb : b.toNat ≤ 1 := Bool.toNat_le b
    calc (2 * x + b.toNat + 1) * 2 ^ p.length ≤ (2 * (x + 1)) * 2 ^ p.length := Nat.mul_le_mul_right _ (by omega)
      _ = _ := by ring

/-- DESER's read of `p`, bits of a leaf's field. -/
theorem deserStep_field (p rest : BitSeq) (n lv i : Idx) (v : Sys2Proof.Symbol) (k : Nat) (st : List DeserFrame) (s : State) (w : Word)
    (hp : s.phase = .busy w (.deser n lv (.field i v (p.length + k)) st)) (hb : s.biBits = p ++ rest) :
    Reach deserStep p.length s { s with
      phase := .busy w (.deser n lv (.field i (p.foldl shiftIn v) k) st), biBits := rest, biCount := s.biCount + BitVec.ofNat 32 p.length } := by
  induction p generalizing s v with
  | nil => simp at hb; simp at hp; convert Reach.refl using 1 <;> simp [← hp, ← hb]
  | cons b p ih =>
    have hr : readBit s = .item b _ := readBit_item.mpr ⟨p ++ rest, hb, rfl⟩
    have e : (b :: p).length + k = (p.length + k) + 1 := by simp; omega
    rw [e] at hp
    have h1 : deserStep s = { s with phase := .busy w (.deser n lv (.field i (shiftIn v b) (p.length + k)) st), biBits := p ++ rest, biCount := s.biCount + 1 } := by
      simp [deserStep, deserField, hp, hr, goTo, Phase.moveTo]
    have := (Reach.one h1).trans (ih (shiftIn v b) _ rfl rfl)
    convert this.mono (m := (b :: p).length) (by simp; omega) using 1
    simp only [List.foldl_cons, State.mk.injEq, true_and, and_true]
    exact (count_cons _ _ _).symm

/-- The state in which a failing DESER ends. -/
def deserFailed (s : State) (a : Arena) (e : ErrCode) (info : BitVec 9) (rest : BitSeq) : State :=
  { s with
    phase := .idle, done := true, err := true, errcode := e.number, errinfo := info, biBits := rest,
    biCount := s.biCount + BitVec.ofNat 32 (s.biBits.length - rest.length), arena := a, root := 0, nodes := 0, leaves := 0 }

/-- The state in which DESER's `ReadNode` returns entry `n`. -/
def deserReturning (s : State) (w : Word) (a : Arena) (n : Nat) (n' lv : Idx) (T : Shape) (st : List DeserFrame) (rest : BitSeq) : State :=
  { s with
    phase := .busy w (.deser n' (lv + BitVec.ofNat 10 T.leafCount) (.ret (BitVec.ofNat 10 n)) st), biBits := rest,
    biCount := s.biCount + BitVec.ofNat 32 (s.biBits.length - rest.length), arena := a }

/-- DESER's engine steps and the recursion `ReadNode`: the same answer, within the steps named. -/
theorem deserStep_readNode {w : Word} (k : Nat) : ∀ (n : Nat) (lv : Idx) (st : List DeserFrame) (s : State),
    s.phase = .busy w (.deser (BitVec.ofNat 10 n) lv .flag st) → n ≤ 513 → 514 ≤ k + n →
    (s.biEod = true ∨ ∀ rest, readNode k n s.biBits ≠ .failed .truncated 0 rest) →
    (readNode k n s.biBits).rest.length ≤ s.biBits.length ∧
    match readNode k n s.biBits with
    | .ok T n' rest => n' = n + T.count ∧ n' ≤ 513 ∧ (∀ sym ∈ T.symbols, sym ≤ 256#9) ∧ ∃ a : Arena, arenaBlock a n (T.preorder n) ∧ (∀ j, j < n → a[j]? = s.arena[j]?) ∧
        Reach deserStep (s.biBits.length - rest.length + 2 * (n' - n)) s (deserReturning s w a n (BitVec.ofNat 10 n') lv T st rest)
    | .failed e info rest => ∃ a : Arena, Reach deserStep (s.biBits.length - rest.length + 2 * (513 - n) + 1) s (deserFailed s a e info rest) := by
  induction k with
  | zero => intro n lv st s hp hn hk; omega
  | succ k ih =>
    intro n lv st s hp hn hk heod
    unfold readNode at heod ⊢
    by_cases h513 : n = Config.nodeCap
    · simp only [h513, if_true, ReadResult.rest]
      refine ⟨le_refl _, s.arena, (Reach.one (f := deserStep) ?_).mono (by omega)⟩
      have : BitVec.ofNat 10 n = 513 := by rw [h513]; rfl
      rw [this] at hp
      simp [deserStep, hp, deserFlag, deserFail, raiseError, deserFailed]
    · simp only [if_neg h513] at heod ⊢
      have hn' : n < 513 := lt_of_le_of_ne hn h513
      have hne : BitVec.ofNat 10 n ≠ 513 := by
        intro h; have := congrArg BitVec.toNat h; simp at this; omega
      have hsucc : BitVec.ofNat 10 n + 1 = BitVec.ofNat 10 (n + 1) := by rw [BitVec.ofNat_add]; rfl
      rcases hb : s.biBits with _ | ⟨_ | _, bits⟩
      · -- eod
        simp only [hb, ReadResult.rest] at heod ⊢
        have he : s.biEod = true := by
          rcases heod with h | h
          · exact h
          · exact absurd rfl (h [])
        refine ⟨le_refl _, s.arena, (Reach.one (f := deserStep) ?_).mono (by simp)⟩
        simp only [deserStep, hp, deserFlag, if_neg hne]
        simp [readBit, hb, he, deserFail, raiseError, deserFailed]
      · -- leaf
        simp only [hb] at heod ⊢
        have hr : readBit s = .item false _ := readBit_item.mpr ⟨bits, hb, rfl⟩
        have h1 : deserStep s = { s with
            phase := .busy w (.deser (BitVec.ofNat 10 (n + 1)) lv (.field (BitVec.ofNat 10 n) 0 9) st), biBits := bits, biCount := s.biCount + 1 } := by
          simp only [deserStep, hp, deserFlag, if_neg hne, hr, hsucc]; simp [goTo, Phase.moveTo]
        by_cases hlen : bits.length < 9
        · simp only [hlen, if_true, ReadResult.rest] at heod ⊢
          have he : s.biEod = true := by
            rcases heod with h | h
            · exact h
            · exact absurd rfl (h [])
          refine ⟨by simp, s.arena, ?_⟩
          obtain ⟨j, hj⟩ : ∃ j, 9 = bits.length + (j + 1) := ⟨8 - bits.length, by omega⟩
          have h2 := (Reach.one h1).trans (deserStep_field bits [] _ _ _ _ (j + 1) st _ w (by rw [← hj]) (by simp))
          refine (h2.trans (Reach.one (f := deserStep) ?_)).mono (by simp; omega)
          simp [deserStep, deserField, readBit, he, deserFail, raiseError, deserFailed, hb]
          rw [BitVec.add_assoc, ← BitVec.ofNat_add]
          congr 2; omega
        · simp only [hlen, if_false] at heod ⊢
          have hl9 : (bits.take 9).length = 9 := by simp; omega
          have h2 := (Reach.one h1).trans (deserStep_field (bits.take 9) (bits.drop 9) _ _ _ _ 0 st _ w (by rw [hl9]) (by simp))
          have hv : (bits.take 9).foldl shiftIn (0 : Sys2Proof.Symbol) = BitVec.ofNat 9 (valueMsb (bits.take 9)) := foldl_shiftIn_ofNat (n := 9) (bits.take 9) 0
          have hvlt : valueMsb (bits.take 9) < 512 := by have := valueMsb_lt (bits.take 9); rwa [hl9] at this
          rw [hv, hl9] at h2
          generalize valueMsb (bits.take 9) = x at *
          have hcmp : (Config.endSymbol < BitVec.ofNat 9 x) ↔ 256 < x := by
            rw [BitVec.lt_def]; simp [Config.endSymbol]; omega
          have hcount : s.biCount + 1 + BitVec.ofNat 32 9 = s.biCount + BitVec.ofNat 32 (bits.length + 1 - (bits.length - 9)) := by
            rw [BitVec.add_assoc]; 
            have : bits.length + 1 - (bits.length - 9) = 1 + 9 := by omega
            rw [this]; rfl
          by_cases hx : 256 < x
          · simp only [hx, if_true, ReadResult.rest] at heod ⊢
            refine ⟨by simp; omega, s.arena, ?_⟩
            refine (h2.trans (Reach.one (f := deserStep) ?_)).mono (by simp; omega)
            simp only [deserStep, deserLeaf, if_pos (hcmp.mpr hx), deserFail, raiseError, deserFailed, hb, List.length_cons, List.length_drop]
            rw [hcount]
          · simp only [hx, if_false, ReadResult.rest] at heod ⊢
            refine ⟨by simp; omega, rfl, by omega, ?_, arenaSet s.arena (BitVec.ofNat 10 n) (.leaf (BitVec.ofNat 9 x) 0), ?_, ?_, ?_⟩
            · intro sym hs; simp [Shape.symbols] at hs; subst hs
              rw [BitVec.le_def]; simp; omega
            · have hm : n % 1024 = n := by omega
              intro j hj
              simp [Shape.preorder] at hj; subst hj
              simp [Shape.preorder, arenaSet, hm, hn']
            · have hm : n % 1024 = n := by omega
              intro j hj
              simp [arenaSet, hm]
              rw [Vector.getElem?_setIfInBounds_ne (by omega)]
            · refine (h2.trans (Reach.one (f := deserStep) ?_)).mono (by simp; omega)
              simp only [deserStep, deserLeaf, if_neg (fun h => hx (hcmp.mp h)), goTo, Phase.moveTo, deserReturning, hb, List.length_cons, List.length_drop]
              rw [hcount]; rfl
      · -- node
        simp only [hb] at heod ⊢
        have hr : readBit s = .item true _ := readBit_item.mpr ⟨bits, hb, rfl⟩
        have h1 : deserStep s = { s with
            phase := .busy w (.deser (BitVec.ofNat 10 (n + 1)) lv .flag (.inLeft (BitVec.ofNat 10 n) :: st)), biBits := bits, biCount := s.biCount + 1 } := by
          simp only [deserStep, hp, deserFlag, if_neg hne, hr, hsucc]; simp [goTo, Phase.moveTo]
        have IHl := ih (n + 1) lv (.inLeft (BitVec.ofNat 10 n) :: st) { s with
            phase := .busy w (.deser (BitVec.ofNat 10 (n + 1)) lv .flag (.inLeft (BitVec.ofNat 10 n) :: st)), biBits := bits, biCount := s.biCount + 1 } rfl (by omega) (by omega) (by
              rcases heod with h | h
              · exact .inl h
              · right; intro rest hh; apply h rest; simp only at hh; rw [hh])
        simp only at IHl
        rcases hL : readNode k (n + 1) bits with ⟨l, n1, rest1⟩ | ⟨e, info, rest1⟩
        · rw [hL] at IHl heod
          simp only [ReadResult.rest] at IHl heod ⊢
          obtain ⟨hle1, hn1, hn1', hsym1, a1, hblk1, hkeep1, hreach1⟩ := IHl
          have h3 : deserStep (deserReturning { s with
            phase := .busy w (.deser (BitVec.ofNat 10 (n + 1)) lv .flag (.inLeft (BitVec.ofNat 10 n) :: st)), biBits := bits, biCount := s.biCount + 1 } w a1 (n+1) (BitVec.ofNat 10 n1) lv l (.inLeft (BitVec.ofNat 10 n) :: st) rest1) =
            { s with
              phase := .busy w (.deser (BitVec.ofNat 10 n1) (lv + BitVec.ofNat 10 l.leafCount) .flag (.inRight (BitVec.ofNat 10 n) (BitVec.ofNat 10 (n+1)) :: st)),
              biBits := rest1, biCount := s.biCount + 1 + BitVec.ofNat 32 (bits.length - rest1.length), arena := a1 } := by
            simp [deserStep, deserReturning, deserReturn, goTo, Phase.moveTo]
          have R1 := ((Reach.one h1).trans hreach1).trans (Reach.one h3)
          have IHr := ih n1 (lv + BitVec.ofNat 10 l.leafCount) (.inRight (BitVec.ofNat 10 n) (BitVec.ofNat 10 (n+1)) :: st) { s with
              phase := .busy w (.deser (BitVec.ofNat 10 n1) (lv + BitVec.ofNat 10 l.leafCount) .flag (.inRight (BitVec.ofNat 10 n) (BitVec.ofNat 10 (n+1)) :: st)),
              biBits := rest1, biCount := s.biCount + 1 + BitVec.ofNat 32 (bits.length - rest1.length), arena := a1 } rfl (by omega) (by omega) (by
                rcases heod with h | h
                · exact .inl h
                · right; intro rest hh; apply h rest; simp only at hh; rw [hh])
          simp only at IHr
          rcases hR : readNode k n1 rest1 with ⟨r, n2, rest2⟩ | ⟨e, info, rest2⟩
          · rw [hR] at IHr
            simp only [ReadResult.rest] at IHr ⊢
            obtain ⟨hle2, hn2, hn2', hsym2, a2, hblk2, hkeep2, hreach2⟩ := IHr
            have hm : n % 1024 = n := by omega
            refine ⟨by simp; omega, by simp [Shape.count]; omega, hn2', ?_, arenaSet a2 (BitVec.ofNat 10 n) (.internal (BitVec.ofNat 10 (n + 1)) (BitVec.ofNat 10 n1) 0), ?_, ?_, ?_⟩
            · intro sym hs; simp only [Shape.symbols, List.mem_append] at hs
              rcases hs with hs | hs
              · exact hsym1 _ hs
              · exact hsym2 _ hs
            · have hset : ∀ j, j ≠ n → (arenaSet a2 (BitVec.ofNat 10 n) (.internal (BitVec.ofNat 10 (n + 1)) (BitVec.ofNat 10 n1) 0))[j]? = a2[j]? := by
                intro j hj; simp only [arenaSet, BitVec.toNat_ofNat, hm]; rw [Vector.getElem?_setIfInBounds_ne (by omega)]
              intro j hj
              simp only [Shape.preorder, List.length_cons, List.length_append, Shape.preorder_length] at hj
              rcases j with _ | j
              · simp [Shape.preorder, arenaSet, hm, hn', hn1, Config.nodeCap]
              · rw [hset _ (by omega)]
                simp only [Shape.preorder, List.getElem_cons_succ]
                by_cases hjl : j < l.count
                · rw [List.getElem_append_left (by rw [Shape.preorder_length]; exact hjl)]
                  have := hblk1 j (by rw [Shape.preorder_length]; exact hjl)
                  rw [← this, ← hkeep2 (n + 1 + j) (by omega)]
                  congr 1; omega
                · rw [List.getElem_append_right (by rw [Shape.preorder_length]; omega)]
                  have := hblk2 (j - l.count) (by rw [Shape.preorder_length]; omega)
                  have e1 : n1 + (j - l.count) = n + (j + 1) := by omega
                  rw [e1] at this
                  simp only [Shape.preorder_length]
                  rw [this]
                  simp only [hn1]
            · intro j hj
              simp only [arenaSet, BitVec.toNat_ofNat, hm]; rw [Vector.getElem?_setIfInBounds_ne (by omega)]
              rw [hkeep2 j (by omega), ]
              exact hkeep1 j (by omega)
            · have R2 := (R1.trans hreach2).trans (Reach.one (f := deserStep) rfl)
              convert R2.mono (m := (true :: bits).length - rest2.length + 2 * (n2 - n)) (by simp; omega) using 1
              simp [deserStep, deserReturning, deserReturn, goTo, Phase.moveTo, hb, Shape.leafCount, Shape.symbols, BitVec.ofNat_add, BitVec.add_assoc]
              rw [show (1#32) = BitVec.ofNat 32 1 from rfl, ← BitVec.ofNat_add, ← BitVec.ofNat_add]
              congr 1; omega
          · rw [hR] at IHr
            simp only [ReadResult.rest] at IHr ⊢
            obtain ⟨hle2, a2, hreach2⟩ := IHr
            refine ⟨by simp; omega, a2, ?_⟩
            convert (R1.trans hreach2).mono (m := (true :: bits).length - rest2.length + 2 * (513 - n) + 1) (by simp; omega) using 1
            simp only [deserFailed, hb, State.mk.injEq, true_and, and_true]
            have := count_sub_trans (s.biCount + 1) _ _ _ hle1 hle2
            rw [this, count_sub_cons]
            omega
        · rw [hL] at IHl heod
          simp only [ReadResult.rest] at IHl heod ⊢
          obtain ⟨hle1, a1, hreach1⟩ := IHl
          refine ⟨by simp; omega, a1, ?_⟩
          convert ((Reach.one h1).trans hreach1).mono (m := (true :: bits).length - rest1.length + 2 * (513 - n) + 1) (by simp; omega) using 1
          simp only [deserFailed, hb, State.mk.injEq, true_and, and_true]
          rw [count_sub_cons]; exact hle1

end Sys2Proof.Machine
end

