-- ==== Sys2Proof/Laws/Hang.lean ====
section
/-! SUPPORT. Runs that never end (spec/60_exceptions.md R211, the hang): ENC and DEC with a host that feeds them for ever, a
host whose steps are in `cycle` (log 1). -/

namespace Sys2Proof.Machine

/-! ### ENC on bytes without end -/

/-- The host's turns for one byte `x` with codeword `p`: the byte in, the engine's steps, the codeword out. -/
def encFeed (x : Byte) (p : BitSeq) : List Turn :=
  .host (.pushByte x) :: .engine (p.length + 2) :: List.replicate p.length (.host .popBit)

/-- ENC in its second phase on a machine whose host feeds it the byte `x` for ever. -/
structure EncFed (x : Byte) (p : BitSeq) (s : State) : Prop where
  phase : s.phase = .busy (encode .enc) (.enc [] false)
  code : codeAt s.code (symbolOfByte x) = some p
  yiEod : s.yiEod = false
  yiRoom : 1 ≤ s.depths.yi
  boRoom : p.length ≤ s.depths.bo
  cycle : s.cycle = encFeed x p
  /-- all is popped, or codeword bits are being popped, or the byte has just been pushed -/
  turn : (s.yiBytes = [] ∧ s.boBits = [] ∧ s.turns = []) ∨
    (s.yiBytes = [] ∧ s.turns = List.replicate s.boBits.length (.host .popBit) ++ [.engine 1]) ∨
    (s.yiBytes = [x] ∧ s.boBits = [] ∧ s.turns = (encFeed x p).tail ++ [.engine 1])

/-- How many steps are left before the engine has a byte to read. -/
def encWait (s : State) : Nat := s.boBits.length + s.turns.length + if s.yiBytes = [] then 1 else 0

/-- ENC's steps with one byte to read. -/
theorem encStep_byte {x : Byte} {p : BitSeq} {s : State} (h : EncFed x p s) (hy : s.yiBytes = [x]) (hb : s.boBits = []) :
    repeatStep (p.length + 2) encStep s =
      { s with yiBytes := [], yiCount := s.yiCount + 1, boBits := p, boCount := s.boCount + BitVec.ofNat 32 p.length } := by
  have h1 : encStep s = { s with phase := .busy (encode .enc) (.encByte x), yiBytes := [], yiCount := s.yiCount + 1 } := by
    have e : readByte s = .item x { s with yiBytes := [], yiCount := s.yiCount + 1 } := readByte_item.mpr ⟨[], hy, rfl⟩
    simp only [encStep, h.phase, encNext, e]
    exact goTo_busy (w := encode .enc) (c := .enc [] false) rfl _
  have h2 : encStep { s with phase := .busy (encode .enc) (.encByte x), yiBytes := [], yiCount := s.yiCount + 1 } =
      { s with phase := .busy (encode .enc) (.enc p false), yiBytes := [], yiCount := s.yiCount + 1 } := by
    simp only [encStep, encLookup, h.code]
    exact goTo_busy (w := encode .enc) (c := .encByte x) rfl _
  rw [repeatStep, h1, repeatStep, h2]
  obtain ⟨m, hm, hr⟩ := encStep_bits p false
    { s with phase := .busy (encode .enc) (.enc p false), yiBytes := [], yiCount := s.yiCount + 1 } (encode .enc) rfl
    (by simpa [hb] using h.boRoom)
  rw [repeatStep_reached hr (by simp [encStep, encNext, readByte, h.yiEod]) hm]
  simp [hb, h.phase]

/-- Every step of the fed machine answers a next state, and it is fed on; until the next byte is there, it comes nearer. -/
theorem EncFed.step {x : Byte} {p : BitSeq} {s : State} (h : EncFed x p s) :
    ∃ t, step s = .next t ∧ EncFed x p t ∧ (s.yiBytes = [] → t.yiBytes = [x] ∨ encWait t < encWait s) := by
  rcases h.turn with ⟨hy, hb, ht⟩ | ⟨hy, ht⟩ | ⟨hy, hb, ht⟩
  · have ho : s.order = .host (.pushByte x) :: ((encFeed x p).tail ++ [.engine 1]) := by
      rw [order_of_cycle ht, h.cycle]; rfl
    have hr : 0 < s.depths.yi := h.yiRoom
    refine ⟨inform .accepted { s with turns := (encFeed x p).tail ++ [.engine 1], yiBytes := [x] }, ?_, ?_⟩
    · rw [step_host ho]; simp [hostStep, pushByte, h.yiEod, hy, hr]
    · exact ⟨⟨h.phase, h.code, h.yiEod, h.yiRoom, h.boRoom, h.cycle, .inr (.inr ⟨rfl, hb, rfl⟩)⟩, fun _ => .inl rfl⟩
  · rcases hb : s.boBits with _ | ⟨b, q⟩
    · have ho : s.order = .engine 1 :: [] := order_of_turns (by rw [ht, hb]; rfl)
      have e : repeatStep 1 encStep s = s := by simp [repeatStep, encStep, h.phase, encNext, readByte, hy, h.yiEod]
      refine ⟨_, step_engine ho h.phase rfl, ?_⟩
      rw [show commandStep .enc = encStep from rfl, e]
      refine ⟨⟨h.phase, h.code, h.yiEod, h.yiRoom, h.boRoom, h.cycle, .inl ⟨hy, hb, by simp [dropTurn, ho]⟩⟩, fun _ => ?_⟩
      exact .inr (by simp [encWait, dropTurn, ho, ht, hb])
    · have ho : s.order = .host .popBit :: (List.replicate q.length (.host .popBit) ++ [.engine 1]) :=
        order_of_turns (by rw [ht, hb]; rfl)
      refine ⟨inform (.bit b) { s with turns := List.replicate q.length (.host .popBit) ++ [.engine 1], boBits := q }, ?_, ?_⟩
      · rw [step_host ho]; simp [hostStep, popBit, hb]
      · exact ⟨⟨h.phase, h.code, h.yiEod, h.yiRoom, h.boRoom, h.cycle, .inr (.inl ⟨hy, rfl⟩)⟩,
          fun _ => .inr (by simp [encWait, ht, hb, hy]; omega)⟩
  · have ho : s.order = .engine (p.length + 2) :: (List.replicate p.length (.host .popBit) ++ [.engine 1]) :=
      order_of_turns ht
    refine ⟨_, step_engine ho h.phase rfl, ?_⟩
    rw [show commandStep .enc = encStep from rfl, encStep_byte h hy hb]
    refine ⟨⟨h.phase, h.code, h.yiEod, h.yiRoom, h.boRoom, h.cycle, .inr (.inl ⟨rfl, ?_⟩)⟩, fun e => by rw [hy] at e; cases e⟩
    simp [dropTurn, State.order, ht, encFeed]

theorem EncFed.bytes {x : Byte} {p : BitSeq} {s : State} (h : EncFed x p s) : s.yiBytes = [] ∨ s.yiBytes = [x] := by
  rcases h.turn with ⟨hy, -⟩ | ⟨hy, -⟩ | ⟨hy, -⟩
  · exact .inl hy
  · exact .inl hy
  · exact .inr hy

/-- The fed machine comes to a state in which the engine's next step reads a byte. -/
theorem EncFed.reads {x : Byte} {p : BitSeq} (k : Nat) {s : State} (h : EncFed x p s) (hk : encWait s ≤ k) :
    ∃ m t, core.run m s = .next t ∧ EncFed x p t ∧ t.yiBytes = [x] := by
  induction k generalizing s with
  | zero =>
    refine ⟨0, s, rfl, h, h.bytes.resolve_left fun hy => ?_⟩
    simp [encWait, hy] at hk
  | succ k ih =>
    rcases h.bytes with hy | hy
    · obtain ⟨t, ht, hf, hd⟩ := h.step
      rcases hd hy with hx | hlt
      · exact ⟨1, t, by rw [run_succ ht]; rfl, hf, hx⟩
      · obtain ⟨m, v, hv, hw⟩ := ih hf (by omega)
        exact ⟨m + 1, v, by rw [run_succ ht]; exact hv, hw⟩
    · exact ⟨0, s, rfl, h, hy⟩

/-- The hang of ENC (R211): after any number of steps the engine is still busy with ENC, and it goes on to read bytes. -/
theorem enc_never_ends {x : Byte} {p : BitSeq} {s : State} (h : EncFed x p s) (n : Nat) :
    (∃ t, core.run n s = .next t ∧ t.phase = .busy (encode .enc) (.enc [] false)) ∧
      ∃ m t, n ≤ m ∧ core.run m s = .next t ∧ t.yiBytes = [x] ∧ EngineTurn t := by
  obtain ⟨t, ht, hf⟩ := run_keeps (P := EncFed x p) (fun _ hs => let ⟨t, h1, h2, _⟩ := hs.step; ⟨t, h1, h2⟩) n h
  obtain ⟨m, u, hu, hg, hx⟩ := hf.reads _ (le_refl _)
  refine ⟨⟨t, ht, hf.phase⟩, n + m, u, Nat.le_add_right n m, by rw [run_add ht]; exact hu, hx, ?_⟩
  rcases hg.turn with ⟨hy, -⟩ | ⟨hy, -⟩ | ⟨-, -, hts⟩
  · rw [hx] at hy; cases hy
  · rw [hx] at hy; cases hy
  · exact ⟨_, _, order_of_turns hts⟩

/-! ### DEC on bits without end -/

/-- The host's turns for one bit and its byte. -/
def decFeed : List Turn := [.host (.pushBit true), .engine 2, .host .popByte]

/-- DEC at the root of a tree whose right child is a literal leaf, on a machine whose host feeds it the bit 1 for ever. -/
structure DecFed (sym : Symbol) (s : State) : Prop where
  phase : s.phase = .busy (encode .dec) (.dec s.root)
  root : ∃ l r w w', arenaAt s.arena s.root = .internal l r w ∧ arenaAt s.arena r = .leaf sym w'
  literal : sym ≠ Config.endSymbol
  biEod : s.biEod = false
  biRoom : 1 ≤ s.depths.bi
  yoRoom : 1 ≤ s.depths.yo
  cycle : s.cycle = decFeed
  turn : (s.biBits = [] ∧ s.yoBytes = [] ∧ (s.turns = [] ∨ s.turns = [.engine 1])) ∨
    (s.biBits = [true] ∧ s.yoBytes = [] ∧ s.turns = decFeed.tail ++ [.engine 1]) ∨
    (s.biBits = [] ∧ s.yoBytes = [byteOfSymbol sym] ∧ s.turns = [.host .popByte, .engine 1])

/-- DEC's two steps with the bit 1 to read. -/
theorem decStep_bit {sym : Symbol} {s : State} (h : DecFed sym s) (hb : s.biBits = [true]) (hy : s.yoBytes = []) :
    repeatStep 2 decStep s =
      { s with biBits := [], biCount := s.biCount + 1, yoBytes := [byteOfSymbol sym], yoCount := s.yoCount + 1 } := by
  obtain ⟨l, r, w, w', h1, h2⟩ := h.root
  have e : readBit s = .item true { s with biBits := [], biCount := s.biCount + 1 } := readBit_item.mpr ⟨[], hb, rfl⟩
  have s1 : decStep s = { s with phase := .busy (encode .dec) (.dec r), biBits := [], biCount := s.biCount + 1 } := by
    simp only [decStep, h.phase, decWalk, h1, e]
    exact goTo_busy (w := encode .dec) (c := .dec s.root) rfl _
  have hw : 0 < s.depths.yo := h.yoRoom
  simp only [repeatStep, s1]
  simp [decStep, decWalk, h2, h.literal, writeByte, hy, hw, goTo, Phase.moveTo, h.phase]

theorem DecFed.step {sym : Symbol} {s : State} (h : DecFed sym s) : ∃ t, step s = .next t ∧ DecFed sym t := by
  rcases h.turn with ⟨hb, hy, ht | ht⟩ | ⟨hb, hy, ht⟩ | ⟨hb, hy, ht⟩
  · have ho : s.order = .host (.pushBit true) :: (decFeed.tail ++ [.engine 1]) := by
      rw [order_of_cycle ht, h.cycle]; rfl
    have hr : 0 < s.depths.bi := h.biRoom
    refine ⟨inform .accepted { s with turns := decFeed.tail ++ [.engine 1], biBits := [true] }, ?_, ?_⟩
    · rw [step_host ho]; simp [hostStep, pushBit, h.biEod, hb, hr]
    · exact ⟨h.phase, h.root, h.literal, h.biEod, h.biRoom, h.yoRoom, h.cycle, .inr (.inl ⟨rfl, hy, rfl⟩)⟩
  · have ho : s.order = .engine 1 :: [] := order_of_turns ht
    obtain ⟨l, r, w, w', h1, -⟩ := h.root
    have e : repeatStep 1 decStep s = s := by simp [repeatStep, decStep, h.phase, decWalk, h1, readBit, hb, h.biEod]
    refine ⟨_, step_engine ho h.phase rfl, ?_⟩
    rw [show commandStep .dec = decStep from rfl, e]
    exact ⟨h.phase, h.root, h.literal, h.biEod, h.biRoom, h.yoRoom, h.cycle, .inl ⟨hb, hy, .inl (by simp [dropTurn, ho])⟩⟩
  · have ho : s.order = .engine 2 :: [.host .popByte, .engine 1] := order_of_turns ht
    refine ⟨_, step_engine ho h.phase rfl, ?_⟩
    rw [show commandStep .dec = decStep from rfl, decStep_bit h hb hy]
    refine ⟨h.phase, h.root, h.literal, h.biEod, h.biRoom, h.yoRoom, h.cycle, .inr (.inr ⟨rfl, rfl, ?_⟩)⟩
    simp [dropTurn, State.order, ht, decFeed]
  · have ho : s.order = .host .popByte :: [.engine 1] := order_of_turns ht
    refine ⟨inform (.byte (byteOfSymbol sym)) { s with turns := [.engine 1], yoBytes := [] }, ?_, ?_⟩
    · rw [step_host ho]; simp [hostStep, popByte, hy]
    · exact ⟨h.phase, h.root, h.literal, h.biEod, h.biRoom, h.yoRoom, h.cycle, .inl ⟨hb, rfl, .inr rfl⟩⟩

/-- The hang of DEC (R211): after any number of steps the engine is still busy with DEC. -/
theorem dec_never_ends {sym : Symbol} {s : State} (h : DecFed sym s) (n : Nat) :
    ∃ t, core.run n s = .next t ∧ t.phase = .busy (encode .dec) (.dec t.root) := by
  obtain ⟨t, ht, hf⟩ := run_keeps (P := DecFed sym) (fun _ hs => hs.step) n h
  exact ⟨t, ht, hf.phase⟩

end Sys2Proof.Machine
end

