-- ==== Sys2Proof/Laws/PerInstr.lean ====
section
/-! SUPPORT. What holds of every command as syntax (spec/30_encoding.md R91 to R93): one lemma per constructor. -/

/-- The command's word has a zero reserved field and the command's opcode, and is a legal command word. -/
def Sys2Proof.Laws.CommandWord.Statement (i : Sys2Proof.Instr) : Prop :=
  i.wellFormed = true ∧ Sys2Proof.commandWordWellFormed (Sys2Proof.encode i) = true ∧
    Sys2Proof.opField (Sys2Proof.encode i) = Sys2Proof.opcode i ∧ Sys2Proof.rsvField (Sys2Proof.encode i) = 0

namespace Sys2Proof.Laws.CommandWord

theorem nop : Statement .nop := ⟨rfl, by decide, by decide, by decide⟩
theorem clrFreq : Statement .clrFreq := ⟨rfl, by decide, by decide, by decide⟩
theorem build : Statement .build := ⟨rfl, by decide, by decide, by decide⟩
theorem ser : Statement .ser := ⟨rfl, by decide, by decide, by decide⟩
theorem deser : Statement .deser := ⟨rfl, by decide, by decide, by decide⟩
theorem codes : Statement .codes := ⟨rfl, by decide, by decide, by decide⟩
theorem enc : Statement .enc := ⟨rfl, by decide, by decide, by decide⟩
theorem dec : Statement .dec := ⟨rfl, by decide, by decide, by decide⟩
theorem magicWr : Statement .magicWr := ⟨rfl, by decide, by decide, by decide⟩
theorem magicChk : Statement .magicChk := ⟨rfl, by decide, by decide, by decide⟩

end Sys2Proof.Laws.CommandWord
end

