-- ==== Sys2Proof/Tests/Slice0.lean ====
section
/-! SUPPORT. The model's own tests. Expected results are from spec/95_test_vectors.md (the vector is named) or from the rule
named; the theorems `test_meets_<Name>` show states and operands that meet all hypotheses of `Obligations.<Name>`. -/

open Sys2Proof Sys2Proof.Machine

namespace Sys2Proof.Tests

set_option Elab.async false

/-! ### Helpers -/

/-- The outcome is a next state with the property. -/
def nextSat (o : Host.Outcome State Fault Refusal) (p : State → Bool) : Bool :=
  match o with
  | .next t => p t
  | _ => false

theorem next_of_nextSat {o : Host.Outcome State Fault Refusal} {p : State → Bool} (h : nextSat o p = true) :
    ∃ t, o = .next t ∧ p t = true := by
  cases o with
  | next t => exact ⟨t, rfl, h⟩
  | fault r => cases h
  | refused r => cases h

/-- The outcome is the refusal of an undefined access. -/
def refusesAccess (o : Host.Outcome State Fault Refusal) : Bool :=
  match o with
  | .refused .undefinedAccess => true
  | _ => false

/-- A small machine with room for 4096 items in each port. -/
def m0 : State := State.powerOn { bi := 4096, yi := 4096, bo := 4096, yo := 4096 }

/-- The command is accepted and `g` engine steps are granted. -/
def ready (i : Instr) (g : Nat) (s : State) : State := { accept (encode i) s with turns := [.engine g] }

/-- `s` with host step `a` next. -/
def hostNext (a : HostAction) (s : State) : State := { s with turns := [.host a] }

/-- The first entries of an arena. -/
def arenaOf (ns : List Node) : Arena := arenaStore (Vector.replicate 513 Node.blank) 0 ns

/-- `s` with a tree placed in the arena. -/
def placed (root nodes leaves : Nat) (ns : List Node) (s : State) : State :=
  { s with arena := arenaOf ns, root := BitVec.ofNat 10 root, nodes := BitVec.ofNat 10 nodes,
           leaves := BitVec.ofNat 10 leaves, treeValid := true }

/-- T-aaa (BUILD tree). -/
def sAaa : State := placed 2 3 2 [.leaf 97 3, .leaf 256 1, .internal 1 0 4] m0

/-- T-aaa's shape. -/
def tAaa : Shape := .node (.leaf 256) (.leaf 97)

/-- T-empty. -/
def sEmpty : State := placed 0 1 1 [.leaf 256 1] m0

/-- The tree of V-D-14: a leaf root that is not END. -/
def sLone : State := placed 0 1 1 [.leaf 97 0] m0

/-- T-noend (V-D-15). -/
def sNoEnd : State := placed 0 3 2 [.internal 1 2 0, .leaf 97 0, .leaf 98 0] m0

/-- T-noend's shape. -/
def tNoEnd : Shape := .node (.leaf 97) (.leaf 98)

/-- T-dup (V-D-16). -/
def sDup : State :=
  placed 0 5 3 [.internal 1 4 0, .internal 2 3 0, .leaf 97 0, .leaf 256 0, .leaf 97 0] m0

/-- FREQ[97] = 3. -/
def sFreq : State := { m0 with freq := freqSet m0.freq 97 3 }

theorem sAaa_treeIs : sAaa.treeIs tAaa :=
  ⟨⟨1, 0, 4, by decide +kernel, ⟨1, by decide +kernel⟩, ⟨3, by decide +kernel⟩⟩, by decide +kernel, by decide +kernel,
    by decide +kernel, by decide +kernel⟩

theorem sNoEnd_treeIs : sNoEnd.treeIs tNoEnd :=
  ⟨⟨1, 2, 0, by decide +kernel, ⟨0, by decide +kernel⟩, ⟨0, by decide +kernel⟩⟩, by decide +kernel, by decide +kernel,
    by decide +kernel, by decide +kernel⟩

/-! ### WellFormed: each check refuses an ill-formed word (R91, R93) -/

theorem test_reserved_bit_4_refused : reservedBitsZero 0x00000010#32 = false := by decide
theorem test_reserved_bit_31_refused : commandWordWellFormed 0x80000002#32 = false := by decide
theorem test_opcode_A_refused : opcodeAssigned 0x0000000A#32 = false := by decide
theorem test_opcode_F_refused : commandWordWellFormed 0x0000000F#32 = false := by decide
theorem test_opcode_9_well_formed : commandWordWellFormed 0x00000009#32 = true := by decide
theorem test_commands_well_formed :
    Instr.wellFormed .nop = true ∧ Instr.wellFormed .build = true ∧ Instr.wellFormed .magicChk = true := by decide

/-! ### Decode: words written out from the table of R93 -/

theorem test_decode_nop : decode 0b00000000000000000000000000000000#32 = .command .nop := by decide
theorem test_decode_clrFreq : decode 0b00000000000000000000000000000001#32 = .command .clrFreq := by decide
theorem test_decode_build : decode 0b00000000000000000000000000000010#32 = .command .build := by decide
theorem test_decode_ser : decode 0b00000000000000000000000000000011#32 = .command .ser := by decide
theorem test_decode_deser : decode 0b00000000000000000000000000000100#32 = .command .deser := by decide
theorem test_decode_codes : decode 0b00000000000000000000000000000101#32 = .command .codes := by decide
theorem test_decode_enc : decode 0b00000000000000000000000000000110#32 = .command .enc := by decide
theorem test_decode_dec : decode 0b00000000000000000000000000000111#32 = .command .dec := by decide
theorem test_decode_magicWr : decode 0b00000000000000000000000000001000#32 = .command .magicWr := by decide
theorem test_decode_magicChk : decode 0b00000000000000000000000000001001#32 = .command .magicChk := by decide
theorem test_decode_reserved :
    decode 0x0000000A#32 = .reservedOpcode ∧ decode 0x0000000F#32 = .reservedOpcode ∧
      decode 0x00000010#32 = .reservedBits ∧ decode 0x80000001#32 = .reservedBits := by decide
/-- R72: lane 0 is the least significant byte; R94: a command word is four bytes. -/
theorem test_decode_bytes :
    decodeBytes [0x06, 0x00, 0x00, 0x00] = .command .enc ∧ decodeBytes [0x00, 0x00, 0x00, 0x06] = .reservedBits ∧
      decodeBytes [0x06, 0x00, 0x00] = .wrongLength ∧ decodeBytes [] = .wrongLength := by decide
theorem test_decode_table_word : decodeTableWord 32 0x7 = some .dec ∧ decodeTableWord 32 0xB = none := by decide

/-! ### One command each (spec/95_test_vectors.md) -/

/-- A fetched word runs as the very next step. -/
theorem test_fetched_nop_ends :
    nextSat (step (State.reset.withFetchWord 32 0)) (fun t => t.done && !t.busy && t.turns.isEmpty) = true := by
  decide +kernel
/-- V-N-2: with IRQ_EN the end of NOP raises the interrupt. -/
theorem test_nop_irq : nextSat (exec .nop (ready .nop 1 { m0 with irqEn := true })) (fun t => t.irq) = true := by
  decide +kernel
/-- V-CF-1. -/
theorem test_clrFreq_keeps_tree :
    nextSat (exec .clrFreq (ready .clrFreq 1 { sAaa with freq := freqSet m0.freq 97 3 })) (fun t =>
      freqAt t.freq 97 == 0 && readReg .status t == 0x0A && t.nodes == 3) = true := by decide +kernel
/-- V-B-1, V-B-2: T-aaa. -/
theorem test_build_aaa :
    nextSat (exec .build (ready .build 1 sFreq)) (fun t =>
      readReg .status t == 0x0A && t.root == 2 && t.nodes == 3 && t.leaves == 2 &&
        arenaAt t.arena 0 == .leaf 97 3 && arenaAt t.arena 1 == .leaf 256 1 && arenaAt t.arena 2 == .internal 1 0 4 &&
        readReg .nodeInfo { t with nodeSel := 2 } == 0x80000001) = true := by decide +kernel
/-- V-B-6: a tie is decided by the index, so the byte is the left child. -/
theorem test_build_tie :
    nextSat (exec .build (ready .build 1 { m0 with freq := freqSet m0.freq 5 1 })) (fun t =>
      arenaAt t.arena 2 == .internal 0 1 2) = true := by decide +kernel
/-- V-S-1: the 21 bits of T-aaa. -/
theorem test_ser_aaa :
    nextSat (exec .ser (ready .ser 40 sAaa)) (fun t =>
      t.boBits == bitsMsb 0b101000000000001100001#21 && t.boCount == 21 && readReg .status t == 0x0A) = true := by
  decide +kernel
/-- V-S-8. -/
theorem test_ser_no_tree :
    nextSat (exec .ser (ready .ser 40 m0)) (fun t => readReg .status t == 0x06 && t.errcode == 2 && t.boCount == 0) =
      true := by decide +kernel
/-- V-D-2: the bits after the tree stay in BI. -/
theorem test_deser_aaa :
    nextSat (exec .deser (ready .deser 60 { m0 with biBits := bitsMsb 0b1010000000000011000011110#25 })) (fun t =>
      arenaAt t.arena 0 == .internal 1 2 0 && arenaAt t.arena 1 == .leaf 256 0 && arenaAt t.arena 2 == .leaf 97 0 && t.root == 0 &&
        t.nodes == 3 && t.leaves == 2 && t.biCount == 21 && t.biBits == [true, true, true, false] &&
        readReg .status t == 0x0A) = true := by decide +kernel
/-- V-D-12. -/
theorem test_deser_bad_symbol :
    nextSat (exec .deser (ready .deser 60 { m0 with biBits := bitsMsb 0b10100000001#11 })) (fun t =>
      t.errcode == 5 && t.errinfo == 0x101 && t.biCount == 11 && !t.treeValid) = true := by decide +kernel
/-- V-C-7: the last leaf in preorder gives the codeword. -/
theorem test_codes_dup :
    nextSat (exec .codes (ready .codes 1 sDup)) (fun t =>
      readReg .codeLen { t with codeSel := 97 } == 0x80000001 && readReg (.codeBits 0) { t with codeSel := 97 } == 1 &&
        readReg .codeLen { t with codeSel := 256 } == 0x80000002 &&
        readReg (.codeBits 0) { t with codeSel := 256 } == 2) = true := by decide +kernel
/-- V-E-1. -/
theorem test_enc_aaa :
    nextSat (exec .enc (ready .enc 20 { sAaa with yiBytes := [0x61, 0x61, 0x61], yiEod := true })) (fun t =>
      t.boBits == [true, true, true, false] && t.yiCount == 3 && t.boCount == 4 && readReg .status t == 0x11A) = true := by
  decide +kernel
/-- R82: ENC's read of a byte without a codeword is a step of its own; with YI_DEPTH 1 a push is accepted before the end in
NO_CODE. -/
theorem test_enc_push_before_no_code :
    nextSat (step { sAaa with
        turns := [.engine 1], phase := .busy 6 (.enc [] false), depths := ⟨1, 1, 1, 1⟩, yiBytes := [0x62] }) (fun t =>
      t.phase == .busy 6 (.encByte 0x62) && t.busy && t.yiCount == 1 &&
        nextSat (step (hostNext (.pushByte 0x63) t)) (fun u => u.seen == [.accepted] && u.busy && u.yiBytes == [0x63] &&
          nextSat (step { u with turns := [.engine 1] }) (fun v =>
            !v.busy && v.errcode == 7 && v.errinfo == 0x62 && v.yiBytes == [0x63]))) = true := by decide +kernel
/-- V-E-9: NO_CODE after one codeword. -/
theorem test_enc_no_code :
    nextSat (exec .enc (ready .enc 20 { sAaa with yiBytes := [0x61, 0x62], yiEod := true })) (fun t =>
      t.boBits == [true] && t.errcode == 7 && t.errinfo == 0x62 && t.yiCount == 2 && readReg .status t == 0x11E) =
      true := by decide +kernel
/-- V-X-1, on the tree V-D-1 leaves. -/
theorem test_dec_aaa :
    nextSat (exec .dec (ready .dec 20
      { placed 0 3 2 [.internal 1 2 0, .leaf 256 0, .leaf 97 0] m0 with biBits := bitsMsb 0b11100000#8 })) (fun t =>
      t.yoBytes == [0x61, 0x61, 0x61] && t.biCount == 4 && t.yoCount == 3 && t.biBits == [false, false, false, false] &&
        readReg .status t == 0x2A) = true := by decide +kernel
/-- V-X-5. -/
theorem test_dec_bad_root :
    nextSat (exec .dec (ready .dec 20 sLone)) (fun t => t.errcode == 9 && t.errinfo == 0x61 && t.biCount == 0) = true := by
  decide +kernel
/-- V-MW-2: most significant bit first. -/
theorem test_magicWr :
    nextSat (exec .magicWr (ready .magicWr 40 { m0 with magic := 0xDEADBEEF })) (fun t =>
      t.boBits == bitsMsb 0b11011110101011011011111011101111#32 && t.boCount == 32) = true := by decide +kernel
/-- MAGIC_WR with one engine step granted has written nothing yet and is busy (R192, R82). -/
theorem test_magicWr_one_step :
    nextSat (step (State.reset.withFetchWord 32 8)) (fun t => t.busy && t.boBits.isEmpty && !t.done) = true := by
  decide +kernel
/-- The example of R194: one bit differs. -/
theorem test_magicChk_mismatch :
    nextSat (exec .magicChk (ready .magicChk 40 { m0 with biBits := bitsMsb 0x00000737#32 ++ [true] })) (fun t =>
      t.errcode == 3 && t.biCount == 32 && t.biBits == [true] && readReg .status t == 0x06) = true := by decide +kernel
/-- The example of R194: the reset MAGIC. -/
theorem test_magicChk_match :
    nextSat (exec .magicChk (ready .magicChk 40 { m0 with biBits := bitsMsb 0x00000736#32 ++ [true] })) (fun t =>
      !t.err && t.done && t.biCount == 32) = true := by decide +kernel

/-! ### Host steps -/

/-- R22: ID; R20: FREQ[255] at 0x7FC. -/
theorem test_reg_map :
    regAt 0x000 = some .id ∧ regAt 0x7FC = some (.freq 255) ∧ regAt 0x05C = some (.codeBits 7) ∧ regAt 0x070 = none ∧
      regAt 0xFFC = none := by decide
/-- R42: a FREQ write while busy is dropped and sets OVR. -/
theorem test_busy_freq_write_dropped :
    nextSat (step (hostNext (.regWrite 0x584 4 5) (ready .build 1 sFreq))) (fun t =>
      t.ovr && freqAt t.freq 97 == 3 && t.busy) = true := by decide +kernel
/-- R71. -/
theorem test_narrow_access_refused :
    refusesAccess (step (hostNext (.regRead 0x00C 1) m0)) = true ∧
      refusesAccess (step (hostNext (.regWrite 0x00E 4 0) m0)) = true := by decide +kernel
/-- R60: BI_CLR empties BI; R23. -/
theorem test_bi_clr :
    nextSat (step (hostNext (.regWrite 0x004 4 2) { m0 with biBits := [true], biEod := true })) (fun t =>
      t.biBits.isEmpty && !t.biEod) = true := by decide +kernel

/-! ### Every obligation's hypotheses are met -/

theorem test_meets_ResetGivesTableValues :
    ∃ s : State, s.busy = true ∧ s.treeValid = true ∧ s.order = [.host (.regWrite Reg.ctrl.offset 4 1)] ∧
      (1#32 : Word).getLsbD 0 = true := ⟨hostNext (.regWrite 0x004 4 1) (ready .ser 1 sAaa), by decide +kernel⟩
theorem test_meets_ResetGivesTableValues_input : ∃ s : State, s.order = [.host .hardReset] := ⟨hostNext .hardReset m0, rfl⟩
/-- The host's turn in the repeated order. -/
theorem test_meets_ResetGivesTableValues_cycle : ∃ s : State, s.turns = [] ∧ s.order = .host .hardReset :: [.engine 1] :=
  ⟨{ m0 with cycle := [.host .hardReset] }, rfl, rfl⟩
theorem test_meets_CmdWriteWhileIdleIsAccepted :
    ∃ s : State, s.phase = .idle ∧ s.order = [.host (.regWrite Reg.cmd.offset 4 3)] ∧
      (3#32 : Word) ≠ 0x2#32 ∧ (3#32 : Word) ≠ 0x4#32 := ⟨hostNext (.regWrite 0x008 4 3) m0, by decide +kernel⟩
theorem test_meets_CmdWriteWhileIdleIsAccepted_tree :
    ∃ s : State, s.phase = .idle ∧ s.order = [.host (.regWrite Reg.cmd.offset 4 4)] :=
  ⟨hostNext (.regWrite 0x008 4 4) m0, by decide +kernel⟩
theorem test_meets_BusyProtectedWritesAreDropped :
    (ready .ser 1 m0).busy = true ∧ ((4#32 : Word).getLsbD 0 = false ∧ (4#32 : Word).getLsbD 2 = true) ∧
      ((0x100#32 : Word).getLsbD 0 = false ∧ (0x100#32 : Word).getLsbD 1 = false ∧ (0x100#32 : Word).getLsbD 2 = false) ∧
      (7#32 : Word).getLsbD 0 = true := by decide +kernel
theorem test_meets_IdleRegisterWritesTakeEffect : m0.phase = .idle ∧ (6#32 : Word).getLsbD 0 = false := by decide +kernel
theorem test_meets_RegisterMapAndReservedOffsets :
    (regAt 0x06C = some .yoCount ∧ regAt 0x070 = none ∧ regAt 0x3FC = none ∧ regAt 0x400 = some (.freq 0)) ∧
      regAt 0x800 = none ∧ (0x3FC#12).toNat % 4 = 0 := by decide
theorem test_meets_UndefinedAccessIsRefused :
    ((hostNext (.regRead 0x000 2) m0).order = .host (.regRead 0x000 2) :: [] ∧ (2 ≠ 4 ∨ (0x000#12).toNat % 4 ≠ 0)) ∧
      ((hostNext (.regWrite 0xFFF 4 0) m0).order = .host (.regWrite 0xFFF 4 0) :: [] ∧
        (4 ≠ 4 ∨ (0xFFF#12).toNat % 4 ≠ 0)) ∧
      ((hostNext (.regRead 0xFFC 4) m0).order = .host (.regRead 0xFFC 4) :: [] ∧ 4 = 4 ∧ (0xFFC#12).toNat % 4 = 0) := by
  decide +kernel
theorem test_meets_ReadsAreExactOrFreeDraws :
    m0.busy = false ∧ Reg.status.unspecifiedWhileBusy = false ∧ (ready .ser 1 m0).busy = true ∧
      Reg.root.unspecifiedWhileBusy = true ∧ regAt 0x070 = none := by decide +kernel
theorem test_meets_NodeViewShowsArenaEntry :
    ({ sAaa with nodeSel := 3 } : State).nodes.toNat ≤ ({ sAaa with nodeSel := 3 } : State).nodeSel.toNat ∧
      arenaAt sAaa.arena 0 = .leaf 97 3 ∧ arenaAt sAaa.arena 2 = .internal 1 0 4 ∧ (2#10).toNat < sAaa.nodes.toNat := by
  decide +kernel
theorem test_meets_CodeViewShowsCodeword :
    codeAt (codeSet codeNone 256 (some (List.replicate 256 true))) 256 = some (List.replicate 256 true) ∧
      (List.replicate 256 true).length ≤ 256 ∧ codeAt codeNone 97 = none ∧ 256 < (257#9).toNat := by decide +kernel
theorem test_meets_PushesAndPops :
    (m0.biEod = false ∧ m0.biBits.length < m0.depths.bi ∧ m0.yiEod = false ∧ m0.yiBytes.length < m0.depths.yi) ∧
      (State.powerOn ⟨0, 0, 0, 0⟩).depths.bi ≤ (State.powerOn ⟨0, 0, 0, 0⟩).biBits.length ∧ m0.boBits = [] ∧
      ({ m0 with boBits := [true] } : State).boBits = true :: [] := by decide +kernel
theorem test_meets_StepRunsDecodedCommand :
    (hostNext .popBit m0).order = .host .popBit :: [] ∧ (∀ a rest, m0.order ≠ .host a :: rest) ∧
      (ready .ser 5 m0).phase = .busy (encode .ser) .start ∧ decode (encode .ser) = .command .ser := by
  refine ⟨rfl, by simp [m0, State.powerOn, State.order], by decide +kernel, by decide⟩
theorem test_meets_IllegalWordEndsInError :
    (accept 0x0000000A m0).phase = .busy 0x0000000A .start ∧ (∀ a rest, (accept 0x0000000A m0).order ≠ .host a :: rest) ∧
      1 ≤ (accept 0x0000000A m0).grant ∧
      10 ≤ ((0x0000000A#32 : Word).extractLsb' 0 4).toNat ∧ (0x00000010#32 : Word).extractLsb' 4 28 ≠ 0 :=
  ⟨by decide +kernel, nofun, by decide +kernel⟩
theorem test_meets_ExecFaultsWhenNotRunning :
    m0.phase = .idle ∧ (Cont.dec 0).belongsTo .enc = false ∧ (Cont.dec 0).belongsTo .dec = true := by decide +kernel
/-- The engine at position `c` of word `w`, on the tree T-aaa. -/
def busyAt (w : Word) (c : Cont) (s : State) : State :=
  { s with arena := sAaa.arena, root := 2, nodes := 3, leaves := 2, treeValid := true, phase := .busy w c }

/-- A machine whose output ports are full. -/
def full : State := { State.powerOn ⟨1, 1, 1, 1⟩ with boBits := [true], yoBytes := [0x61] }

theorem test_meets_EngineHolds_input :
    ((busyAt 9 (.magicChk 0 1) m0).phase = .busy 9 (.magicChk 0 (0 + 1)) ∧ (busyAt 9 (.magicChk 0 1) m0).biBits = [] ∧
        (busyAt 9 (.magicChk 0 1) m0).biEod = false) ∧
      ((busyAt 4 (.deser 512 0 .flag []) m0).phase = .busy 4 (.deser 512 0 .flag []) ∧ (512#10) ≠ 513#10) ∧
      (busyAt 4 (.deser 1 0 (.field 0 0 9) []) m0).phase = .busy 4 (.deser 1 0 (.field 0 0 (8 + 1)) []) ∧
      ((busyAt 7 (.dec 2) m0).phase = .busy 7 (.dec 2) ∧ arenaAt (busyAt 7 (.dec 2) m0).arena 2 = .internal 1 0 4) ∧
      ((busyAt 6 (.enc [] false) m0).phase = .busy 6 (.enc [] false) ∧ (busyAt 6 (.enc [] false) m0).yiBytes = [] ∧
        (busyAt 6 (.enc [] false) m0).yiEod = false) := by decide +kernel
theorem test_meets_EngineHolds_output :
    ((busyAt 8 (.magicWr [true]) full).phase = .busy 8 (.magicWr (true :: [])) ∧
        (busyAt 8 (.magicWr [true]) full).depths.bo ≤ (busyAt 8 (.magicWr [true]) full).boBits.length) ∧
      (busyAt 3 (.ser [true] []) full).phase = .busy 3 (.ser (true :: []) []) ∧
      (busyAt 6 (.enc [true] true) full).phase = .busy 6 (.enc (true :: []) true) ∧
      ((busyAt 7 (.dec 0) full).phase = .busy 7 (.dec 0) ∧ arenaAt (busyAt 7 (.dec 0) full).arena 0 = .leaf 97 3 ∧
        (97#9) ≠ 256#9 ∧ (busyAt 7 (.dec 0) full).depths.yo ≤ (busyAt 7 (.dec 0) full).yoBytes.length) := by decide +kernel
/-- DESER waits at an empty BI; the pushed bits or the end mark let it go on. -/
theorem test_meets_PushCommutesWithEngineStep :
    (m0.biEod = false ∧ ((∃ b, HostAction.pushBit true = .pushBit b) ∧ m0.biBits.length < m0.depths.bi)) ∧
      (m0.yiEod = false ∧ ((∃ x, HostAction.pushByte 0x61 = .pushByte x) ∧ m0.yiBytes.length < m0.depths.yi)) ∧
      (ready .deser 5 m0).biEod = false ∧ ∃ t t' u, exec .deser (ready .deser 5 m0) = .next t ∧
        hostStep .pushBiEod t = .next t' ∧ exec .deser { t' with turns := .engine 1 :: [] } = .next u ∧
        u.phase = .idle := by
  refine ⟨⟨rfl, ⟨true, rfl⟩, by decide +kernel⟩, ⟨rfl, ⟨0x61, rfl⟩, by decide +kernel⟩, rfl, _, _, _,
    exec_next.mpr ⟨by decide +kernel, rfl⟩, rfl, exec_next.mpr ⟨by decide +kernel, rfl⟩, by decide +kernel⟩
/-- A bit and a byte are there to be popped. -/
theorem test_meets_PushCommutesWithEngineStep_pop :
    (full.boBits ≠ [] ∧ ∃ t, exec .magicWr (ready .magicWr 5 full) = .next t) ∧
      full.yoBytes ≠ [] ∧ ∃ t, exec .dec (ready .dec 5 full) = .next t :=
  ⟨⟨by decide, _, exec_next.mpr ⟨by decide +kernel, rfl⟩⟩, by decide, _, exec_next.mpr ⟨by decide +kernel, rfl⟩⟩
/-- MAGIC_WR on capacities of 1 with a host that drains BO and YO. -/
theorem test_meets_PushCommutesWithEngineStep_drained :
    ∃ s u : State, s.phase = .busy (encode .magicWr) .start ∧ s.turns = [] ∧ s.cycle = drainCycle ∧
      s.depths = ⟨1, 1, 1, 1⟩ ∧ s.boBits.length ≤ s.depths.bo ∧ s.yoBytes.length ≤ s.depths.yo ∧
      exec .magicWr { s with depths := ⟨1, 1, 40, 1⟩, turns := .engine 34 :: [] } = .next u ∧ u.phase = .idle := by
  refine ⟨{ accept (encode .magicWr) full with cycle := drainCycle }, _, by decide +kernel, rfl, rfl, rfl, by decide +kernel,
    by decide +kernel, exec_next.mpr ⟨by decide +kernel, rfl⟩, by decide +kernel⟩
theorem test_meets_NopCompletes : (ready .nop 1 m0).phase = .busy 0 .start ∧ 1 ≤ (ready .nop 1 m0).grant := by
  decide +kernel
theorem test_meets_MagicWrWritesMagic :
    (ready .magicWr 34 m0).phase = .busy 8 .start ∧ m0.boBits.length + 32 ≤ m0.depths.bo ∧
      34 ≤ (ready .magicWr 34 m0).grant := by decide +kernel
theorem test_meets_MagicChkAcceptsMagic :
    ∃ s : State, s.phase = .busy 9 .start ∧ 34 ≤ s.grant ∧
      s.biBits = (List.range 32).map (fun k => s.magic.getLsbD (31 - k)) ++ [true] :=
  ⟨ready .magicChk 34 { m0 with biBits := bitsMsb 0x00000736#32 ++ [true] }, by decide +kernel⟩
theorem test_meets_MagicChkRejectsOtherInput :
    (ready .magicChk 34 m0).phase = .busy 9 .start ∧ 34 ≤ (ready .magicChk 34 m0).grant ∧
      ((List.replicate 32 true).length = 32 ∧
        List.replicate 32 true ≠ (List.range 32).map (fun k => m0.magic.getLsbD (31 - k))) ∧
      (List.replicate 31 true).length < 32 := by decide +kernel
theorem test_meets_ClrFreqClears :
    (ready .clrFreq 1 sFreq).phase = .busy 1 .start ∧ 1 ≤ (ready .clrFreq 1 sFreq).grant := by decide +kernel
theorem test_meets_BuildCompletes :
    (ready .build 1 sFreq).phase = .busy 2 .start ∧ 1 ≤ (ready .build 1 sFreq).grant := by decide +kernel
/-- The hypotheses of BuildLeavesAscend, BuildMergesTwoLeast, BuildWeightsAreExactSums, BuildMakesTreeOfLeafSet and
BuildIsRepeatable, with an internal entry for their clauses. -/
theorem test_meets_BuildMergesTwoLeast :
    ((ready .build 1 sFreq).phase = .busy 2 .start ∧ 1 ≤ (ready .build 1 sFreq).grant) ∧
      0 < (leafSymbols (ready .build 1 sFreq).freq).length ∧
      nextSat (exec .build (ready .build 1 sFreq)) (fun t =>
        decide (2 < t.nodes.toNat) && t.arena[2]? == some (.internal 1 0 4)) = true :=
  ⟨by decide +kernel, by simp [leafSymbols], by decide +kernel⟩
theorem test_meets_NoTreeIsAnError :
    Instr.enc ∈ [Instr.ser, .codes, .enc, .dec] ∧ (ready .enc 1 m0).phase = .busy 6 .start ∧
      1 ≤ (ready .enc 1 m0).grant ∧ (ready .enc 1 m0).treeValid = false := by decide +kernel
theorem test_meets_SerWritesTree :
    (ready .ser 26 sAaa).phase = .busy 3 .start ∧ (ready .ser 26 sAaa).treeValid = true ∧
      tAaa.heldAt (ready .ser 26 sAaa).arena (ready .ser 26 sAaa).root ∧
      (ready .ser 26 sAaa).boBits.length + tAaa.bits.length ≤ (ready .ser 26 sAaa).depths.bo ∧
      tAaa.bits.length + tAaa.count + 2 ≤ (ready .ser 26 sAaa).grant :=
  ⟨by decide +kernel, by decide +kernel, sAaa_treeIs.1, by decide +kernel, by decide +kernel⟩
theorem test_meets_SerializedLength : sAaa.treeIs tAaa := sAaa_treeIs
/-- The hypotheses of DeserFollowsReadNode, with an end mark and without. -/
theorem test_meets_DeserFollowsReadNode :
    (∃ s : State, s.phase = .busy 4 .start ∧ s.biEod = true ∧
      s.biBits.length - (readNode 514 0 s.biBits).rest.length + 1030 ≤ s.grant) ∧
    ∃ s : State, s.phase = .busy 4 .start ∧ readNode 514 0 s.biBits = .ok tAaa 3 [] ∧
      s.biBits.length - (readNode 514 0 s.biBits).rest.length + 1030 ≤ s.grant :=
  ⟨⟨ready .deser 1032 { m0 with biBits := [true], biEod := true }, by decide +kernel⟩,
    ⟨ready .deser 1051 { m0 with biBits := bitsMsb 0b101000000000001100001#21 }, by decide +kernel⟩⟩
theorem test_meets_DeserReadsSerializedTree :
    ∃ s : State, s.phase = .busy 4 .start ∧ s.biBits = tAaa.bits ++ [true] ∧ tAaa.count ≤ 513 ∧
      (∀ sym ∈ tAaa.symbols, sym ≤ 256#9) ∧ tAaa.bits.length + 1030 ≤ s.grant :=
  ⟨ready .deser 1051 { m0 with biBits := tAaa.bits ++ [true] }, by decide +kernel⟩
theorem test_meets_DeserTruncatedStream :
    ∃ s : State, s.phase = .busy 4 .start ∧ s.biEod = true ∧ ([true] : BitSeq) ≠ [] ∧
      s.biBits ++ [true] = tAaa.bits ∧ tAaa.count ≤ 513 ∧ (∀ sym ∈ tAaa.symbols, sym ≤ 256#9) ∧
      s.biBits.length + 1030 ≤ s.grant :=
  ⟨ready .deser 1050 { m0 with biBits := bitsMsb 0b10100000000000110000#20, biEod := true }, by decide +kernel⟩
theorem test_meets_DeserBadSymbolAndOverflow :
    (∃ s : State, s.phase = .busy 4 .start ∧ 1600 ≤ s.grant ∧ 512 < 513 ∧ 256#9 < 257#9 ∧
      s.biBits = List.replicate 512 true ++ false :: (List.range 9).map (fun j => (257#9).getLsbD (8 - j)) ++ []) ∧
    ∃ s : State, s.phase = .busy 4 .start ∧ 1600 ≤ s.grant ∧ s.biBits = List.replicate 513 true ++ [] :=
  ⟨⟨ready .deser 1600 { m0 with
      biBits := List.replicate 512 true ++ false :: (List.range 9).map (fun j => (257#9).getLsbD (8 - j)) ++ [] },
    by decide +kernel⟩, ⟨ready .deser 1600 { m0 with biBits := List.replicate 513 true ++ [] }, by decide +kernel⟩⟩
theorem test_meets_SerThenDeserRebuildsTree :
    ((ready .ser 4096 sAaa).phase = .busy 3 .start ∧ (ready .ser 4096 sAaa).treeValid = true ∧
        (ready .ser 4096 sAaa).boBits = [] ∧ 2826 ≤ (ready .ser 4096 sAaa).depths.bo ∧
        4096 ≤ (ready .ser 4096 sAaa).grant) ∧
      (ready .ser 4096 sAaa).treeIs tAaa ∧ ∃ t, exec .ser (ready .ser 4096 sAaa) = .next t :=
  ⟨by decide +kernel, sAaa_treeIs, _, exec_next.mpr ⟨by decide +kernel, rfl⟩⟩
theorem test_meets_CodesBuildsTable :
    (ready .codes 1 sAaa).phase = .busy 5 .start ∧ 1 ≤ (ready .codes 1 sAaa).grant ∧
      (ready .codes 1 sAaa).treeValid = true ∧ (ready .codes 1 sAaa).treeIs tAaa :=
  ⟨by decide +kernel, by decide +kernel, by decide +kernel, sAaa_treeIs⟩

/-- T-aaa with its code table, ENC running its second phase. -/
def sCoded : State :=
  { sAaa with code := tAaa.codeTable, codesValid := true, phase := .busy 6 (.enc [] false), cmdLast := 6,
              yiBytes := [0x61] }

theorem sCoded_inv : Inv sCoded := by
  refine ⟨?_, by unfold QueueInv; decide +kernel, fun _ => ⟨tAaa, sAaa_treeIs⟩, ?_, nofun⟩
  · refine ⟨⟨rfl, rfl, rfl, rfl, by decide +kernel, by decide +kernel, fun _ _ _ => rfl, nofun, nofun, nofun⟩,
      fun _ => ⟨rfl, rfl⟩, nofun, fun _ => rfl, nofun, nofun⟩
  · intro _ t ht sym
    obtain ⟨c, h1, h2, _⟩ := codeTableOf_of_treeIs (s := sAaa) (T := t) ht
    obtain ⟨c', h1', _, h3⟩ := codeTableOf_of_treeIs sAaa_treeIs
    rw [h1'] at h1
    cases h1
    rw [← h2]
    exact congrArg (fun c => codeAt c sym) h3.symm

/-- R211: ENC hangs on a YI that the host feeds the byte 0x61 for ever, here after any number of steps. -/
theorem test_enc_hangs (n : Nat) :
    ∃ t, core.run n { sCoded with yiBytes := [], cycle := encFeed 0x61 [true] } = .next t ∧
      t.phase = .busy (encode .enc) (.enc [] false) :=
  (enc_never_ends (x := 0x61) (p := [true])
    ⟨rfl, by decide +kernel, rfl, by decide +kernel, by decide +kernel, rfl, .inl ⟨rfl, rfl, rfl⟩⟩ n).1
/-- R211: DEC hangs on a BI that the host feeds the bit 1 for ever. -/
theorem test_dec_hangs (n : Nat) :
    ∃ t, core.run n { sAaa with phase := .busy (encode .dec) (.dec 2), cycle := decFeed } = .next t ∧
      t.phase = .busy (encode .dec) (.dec t.root) :=
  dec_never_ends (sym := 97)
    ⟨rfl, ⟨1, 0, 4, 3, by decide +kernel, by decide +kernel⟩, by decide, rfl, by decide +kernel, by decide +kernel, rfl,
      .inl ⟨rfl, rfl, .inl rfl⟩⟩ n

theorem test_meets_CodewordsArePrefixFree :
    ControlInv sCoded ∧ TreeInv sCoded ∧ CodesInv sCoded ∧ sCoded.codesValid = true ∧
      codeAt sCoded.code 97 = some [true] ∧ codeAt sCoded.code 256 = some [false] :=
  ⟨sCoded_inv.1, sCoded_inv.2.2.1, sCoded_inv.2.2.2.1, rfl, by decide +kernel, by decide +kernel⟩
theorem test_meets_EncWritesPayload :
    ∃ s : State, s.phase = .busy 6 .start ∧ s.treeValid = true ∧ s.treeIs tAaa ∧ s.yiEod = true ∧
      tAaa.encode s.yiBytes = some [true, true] ∧ tAaa.codeOf 256#9 = some [false] ∧
      s.boBits.length + ([true, true] ++ [false]).length ≤ s.depths.bo ∧
      2 * s.yiBytes.length + ([true, true] ++ [false]).length + 3 ≤ s.grant :=
  ⟨ready .enc 10 { sAaa with yiBytes := [0x61, 0x61], yiEod := true }, by decide +kernel, by decide +kernel, sAaa_treeIs,
    by decide +kernel, by decide +kernel, by decide +kernel, by decide +kernel, by decide +kernel⟩
theorem test_meets_EncNoCode :
    ∃ s : State, s.phase = .busy 6 .start ∧ s.treeValid = true ∧ s.treeIs tAaa ∧ tAaa.codeOf 256#9 = some [false] ∧
      s.yiBytes = [0x61] ++ 0x62 :: [0x63] ∧ tAaa.encode [0x61] = some [true] ∧
      tAaa.codeOf ((0x62#8).setWidth 9) = none ∧ s.boBits.length + 1 ≤ s.depths.bo ∧ 2 * 1 + 1 + 3 ≤ s.grant :=
  ⟨ready .enc 6 { sAaa with yiBytes := [0x61, 0x62, 0x63] }, by decide +kernel, by decide +kernel, sAaa_treeIs,
    by decide +kernel, by decide +kernel, by decide +kernel, by decide +kernel, by decide +kernel, by decide +kernel⟩
theorem test_meets_EncNoEndCode :
    (ready .enc 1 sNoEnd).phase = .busy 6 .start ∧ 1 ≤ (ready .enc 1 sNoEnd).grant ∧
      (ready .enc 1 sNoEnd).treeValid = true ∧ (ready .enc 1 sNoEnd).treeIs tNoEnd ∧ tNoEnd.codeOf 256#9 = none :=
  ⟨by decide +kernel, by decide +kernel, by decide +kernel, sNoEnd_treeIs, by decide +kernel⟩
/-- Both stops: at END with bits left over, and at the end mark. -/
theorem test_meets_DecWritesDecodedBytes :
    (∃ s : State, s.phase = .busy 7 .start ∧ s.treeValid = true ∧ s.treeIs tAaa ∧ (∀ sym, tAaa ≠ .leaf sym) ∧
      tAaa.decode s.biBits = { bytes := [0x61], atEnd := true, rest := [true] } ∧
      s.yoBytes.length + (tAaa.decode s.biBits).bytes.length ≤ s.depths.yo ∧
      2 * (s.biBits.length - (tAaa.decode s.biBits).rest.length) + 3 ≤ s.grant) ∧
    ∃ s : State, s.phase = .busy 7 .start ∧ s.treeIs tAaa ∧ s.biEod = true ∧ (tAaa.decode s.biBits).atEnd = false ∧
      2 * (s.biBits.length - (tAaa.decode s.biBits).rest.length) + 3 ≤ s.grant :=
  ⟨⟨ready .dec 7 { sAaa with biBits := [true, false, true] }, by decide +kernel, by decide +kernel, sAaa_treeIs, nofun,
      by decide +kernel, by decide +kernel, by decide +kernel⟩,
    ⟨ready .dec 5 { sAaa with biBits := [true], biEod := true }, by decide +kernel, sAaa_treeIs, by decide +kernel,
      by decide +kernel, by decide +kernel⟩⟩
theorem test_meets_DecDegenerateRoot :
    (ready .dec 1 sEmpty).phase = .busy 7 .start ∧ (ready .dec 1 sEmpty).treeValid = true ∧
      arenaAt sEmpty.arena sEmpty.root = .leaf 256 1 ∧ arenaAt sLone.arena sLone.root = .leaf 97 0 ∧ (97#9) ≠ 256#9 := by
  decide +kernel
theorem test_meets_DecodeUndoesEncode :
    (∀ sym, tAaa ≠ .leaf sym) ∧ tAaa.encode [0x61] = some [true] ∧ tAaa.codeOf 256#9 = some [false] :=
  ⟨nofun, by decide +kernel, by decide +kernel⟩
theorem test_meets_BuildEncodeDecodeRoundTrip :
    ∃ s : State, s.phase = .idle ∧ (∀ b ∈ ([0x61, 0x61] : List Byte), freqAt s.freq b ≠ 0) ∧ 2826 ≤ s.depths.bo ∧
      256 * (2 + 1) ≤ s.depths.bo ∧ s.yoBytes.length + 2 ≤ s.depths.yo ∧ 5000 + 1000 * 2 ≤ s.grant :=
  ⟨{ sFreq with turns := [.engine 7000] }, by decide +kernel⟩
/-- The hypothesis of the frame statements: `exec` answers a next state. -/
theorem test_meets_CommandsKeepHostRegisters : ∀ i : Instr, ∃ t, exec i (ready i 3 sAaa) = .next t := by
  intro i
  have h : (ready i 3 sAaa).phase.runs i = true := by cases i <;> decide +kernel
  exact ⟨_, exec_next.mpr ⟨h, rfl⟩⟩
theorem test_meets_CommandsEndOnce : ∀ i : Instr, (ready i 3 sAaa).phase = .busy (encode i) .start := by
  intro i; cases i <;> decide +kernel
theorem test_meets_StepNeverFaults : ControlInv sCoded := sCoded_inv.1
theorem test_meets_TreeValidChangesOnlyAsListed :
    (∃ t : State, ControlInv (ready .build 1 sFreq) ∧ step (ready .build 1 sFreq) = .next t ∧
        (ready .build 1 sFreq).treeValid = false ∧ t.treeValid = true) ∧
      ∃ t : State, ControlInv (hostNext .hardReset sCoded) ∧ step (hostNext .hardReset sCoded) = .next t ∧
        sCoded.treeValid = true ∧ t.treeValid = false := by
  constructor
  · obtain ⟨t, h, ht⟩ := next_of_nextSat (o := step (ready .build 1 sFreq)) (p := fun t => t.treeValid) (by decide +kernel)
    refine ⟨t, ?_, h, by decide +kernel, ht⟩
    exact ⟨⟨rfl, rfl, rfl, rfl, by decide +kernel, fun _ => by decide +kernel, nofun, nofun, nofun, nofun⟩,
      fun _ => ⟨rfl, rfl⟩, nofun, nofun, fun _ => rfl, fun _ => ⟨rfl, rfl, rfl⟩⟩
  · obtain ⟨t, h, ht⟩ := next_of_nextSat (o := step (hostNext .hardReset sCoded)) (p := fun t => !t.treeValid)
      (by decide +kernel)
    refine ⟨t, sCoded_inv.1, h, by decide +kernel, by simpa using ht⟩
theorem test_meets_EndSeenOnlyByDec :
    ∃ t : State, ControlInv (ready .dec 1 sEmpty) ∧ step (ready .dec 1 sEmpty) = .next t ∧
      (ready .dec 1 sEmpty).endSeen = false ∧ t.endSeen = true := by
  obtain ⟨t, h, ht⟩ := next_of_nextSat (o := step (ready .dec 1 sEmpty)) (p := fun t => t.endSeen) (by decide +kernel)
  refine ⟨t, ?_, h, by decide +kernel, ht⟩
  exact ⟨⟨rfl, rfl, rfl, rfl, by decide +kernel, by decide +kernel, nofun, nofun, nofun, nofun⟩,
    fun _ => ⟨rfl, rfl⟩, nofun, fun _ => rfl, fun _ => rfl, nofun⟩
theorem test_meets_OvrIsSticky :
    (∃ s t : State, step s = .next t ∧ s.ovr = false ∧ t.ovr = true) ∧
      ∃ s t : State, step s = .next t ∧ s.ovr = true ∧ t.ovr = false := by
  constructor
  · obtain ⟨t, h, ht⟩ := next_of_nextSat (o := step (hostNext (.regWrite 0x008 4 0) (ready .ser 1 m0)))
      (p := fun t => t.ovr) (by decide +kernel)
    exact ⟨_, t, h, by decide +kernel, ht⟩
  · obtain ⟨t, h, ht⟩ := next_of_nextSat (o := step (hostNext (.regWrite 0x00C 4 0x40) { m0 with ovr := true }))
      (p := fun t => !t.ovr) (by decide +kernel)
    exact ⟨_, t, h, by decide +kernel, by simpa using ht⟩
theorem test_meets_FreqAndMagicChangeOnlyAsListed :
    (∃ s t : State, step s = .next t ∧ t.freq ≠ s.freq) ∧ ∃ s t : State, step s = .next t ∧ t.magic ≠ s.magic := by
  constructor
  · obtain ⟨t, h, ht⟩ := next_of_nextSat (o := step (ready .clrFreq 1 sFreq)) (p := fun t => freqAt t.freq 97 == 0)
      (by decide +kernel)
    refine ⟨_, t, h, fun e => ?_⟩
    rw [e] at ht
    exact absurd ht (by decide +kernel)
  · obtain ⟨t, h, ht⟩ := next_of_nextSat (o := step (hostNext (.regWrite 0x018 4 5) m0)) (p := fun t => t.magic == 5)
      (by decide +kernel)
    refine ⟨_, t, h, fun e => ?_⟩
    rw [e] at ht
    exact absurd ht (by decide +kernel)
/-- The hypotheses of StepKeepsControlInv, StepKeepsQueueInv and StepKeepsTreeAndCodeInvariants. -/
theorem test_meets_StepKeepsTreeAndCodeInvariants : ∃ s t : State, Inv s ∧ step s = .next t := by
  obtain ⟨t, h, _⟩ := next_of_nextSat (o := step sCoded) (p := fun _ => true) (by decide +kernel)
  exact ⟨_, t, sCoded_inv, h⟩
theorem test_meets_ResetMeetsInvariants :
    1 ≤ m0.depths.bi ∧ 1 ≤ m0.depths.yi ∧ 1 ≤ m0.depths.bo ∧ 1 ≤ m0.depths.yo := by decide +kernel

end Sys2Proof.Tests
end

/-! ## What an engine step does at the ports, and O20 -/

namespace Sys2Proof.Machine

/-! ### One engine step: at most one transfer, then the engine's own fields -/

/-- The transfer that an engine step of command `i` makes at `s`, if any (spec/20_memory.md R82), at a port of `i`
(spec/30_encoding.md R93). -/
inductive Transfer (i : Instr) (s : State) : State → Prop
  | none : Transfer i s s
  | readBit {b : Bool} {t : State} (hi : i ∈ [Instr.deser, .dec, .magicChk]) (h : readBit s = .item b t) : Transfer i s t
  | readByte {b : Byte} {t : State} (hi : i = .enc) (h : readByte s = .item b t) : Transfer i s t
  | writeBit {b : Bool} {t : State} (hi : i ∈ [Instr.ser, .enc, .magicWr]) (h : writeBit b s = some t) : Transfer i s t
  | writeByte {b : Byte} {t : State} (hi : i = .dec) (h : writeByte b s = some t) : Transfer i s t

/-- Between `s` and `t` only fields change that the engine alone writes while a command runs: no port and no counter, nothing
that the host writes but FREQ, no field of the model's own. -/
def OwnChange (s t : State) : Prop :=
  t = { s with
    phase := t.phase, done := t.done, err := t.err, errcode := t.errcode, errinfo := t.errinfo, endSeen := t.endSeen,
    treeValid := t.treeValid, codesValid := t.codesValid, root := t.root, nodes := t.nodes, leaves := t.leaves,
    arena := t.arena, code := t.code, freq := t.freq }

/-- From `s` to `t` a step of command `i` has made its transfer, if any, and then changed the engine's own fields. -/
def Acts (i : Instr) (s t : State) : Prop := ∃ m, Transfer i s m ∧ OwnChange m t

theorem Acts.own {i : Instr} {s t : State} (h : OwnChange s t) : Acts i s t := ⟨s, .none, h⟩

theorem Acts.needTree {i : Instr} {f : State → State} {s : State} (h : Acts i s (f s)) : Acts i s (needTree f s) := by
  rcases needTree_cases f s with ⟨_, e⟩ | ⟨_, e⟩ <;> rw [e]
  · exact h
  · exact .own rfl

theorem Acts.withCodes {i : Instr} {f : State → State} {s : State}
    (h : ∀ c, Acts i s (f { s with code := c, codesValid := true })) : Acts i s (withCodes f s) := by
  rcases withCodes_cases f s with ⟨c, _, e⟩ | ⟨_, e⟩ <;> rw [e]
  · exact h c
  · exact .own rfl

theorem Acts.atStart {i : Instr} {f : State → State} {s : State} (h : Acts i s (f s)) : Acts i s (atStart f s) := by
  rcases atStart_cases f s with ⟨_, _, e⟩ | e <;> rw [e]
  · exact h
  · exact .own rfl

/-- A step that writes a bit and goes on, or holds. -/
theorem Acts.writesBit {i : Instr} (hi : i ∈ [Instr.ser, .enc, .magicWr]) (b : Bool) (c : Cont) (s : State) :
    Acts i s (match writeBit b s with | some t => goTo c t | none => s) := by
  split
  · next h => exact ⟨_, .writeBit hi h, rfl⟩
  · exact .own rfl

theorem deserStep_acts (s : State) : Acts .deser s (deserStep s) := by
  unfold deserStep
  split
  · exact .own rfl
  · unfold deserFlag; split
    · exact .own rfl
    · split
      · next h => exact ⟨_, .readBit (by decide) h, rfl⟩
      · next h => exact ⟨_, .readBit (by decide) h, rfl⟩
      · exact .own rfl
      · exact .own rfl
  · unfold deserLeaf; split <;> exact .own rfl
  · unfold deserField; split
    · next h => exact ⟨_, .readBit (by decide) h, rfl⟩
    · exact .own rfl
    · exact .own rfl
  · unfold deserReturn; split <;> exact .own rfl
  · exact .own rfl

theorem encStep_acts (s : State) : Acts .enc s (encStep s) := by
  unfold encStep
  split
  · refine .needTree (.withCodes fun c => ?_)
    unfold encBegin; split <;> exact .own rfl
  · exact .writesBit (by decide) ..
  · unfold encNext; split
    · next h => exact ⟨_, .readByte rfl h, rfl⟩
    · exact .own rfl
    · exact .own rfl
  · exact .own rfl
  · unfold encLookup; split <;> exact .own rfl
  · exact .own rfl

theorem decWalk_acts (n : Idx) (s : State) : Acts .dec s (decWalk n s) := by
  unfold decWalk
  split
  · split
    · next h => exact ⟨_, .readBit (by decide) h, rfl⟩
    · next h => exact ⟨_, .readBit (by decide) h, rfl⟩
    · exact .own rfl
    · exact .own rfl
  · split
    · exact .own rfl
    · split
      · next h => exact ⟨_, .writeByte rfl h, rfl⟩
      · exact .own rfl

theorem decStep_acts (s : State) : Acts .dec s (decStep s) := by
  unfold decStep
  split
  · refine .needTree ?_
    unfold decBegin; split
    · split <;> exact .own rfl
    · exact .own rfl
  · exact decWalk_acts _ s
  · exact .own rfl

theorem magicChkStep_acts (s : State) : Acts .magicChk s (magicChkStep s) := by
  unfold magicChkStep
  split
  · exact .own rfl
  · split <;> exact .own rfl
  · split
    · next h => exact ⟨_, .readBit (by decide) h, rfl⟩
    · exact .own rfl
    · exact .own rfl
  · exact .own rfl

/-- Every engine step makes at most one transfer, at a port of its command, and then changes the engine's own fields alone. -/
theorem commandStep_acts (i : Instr) (s : State) : Acts i s (commandStep i s) := by
  cases i with
  | nop => exact Acts.atStart (f := complete) (.own rfl)
  | clrFreq => exact Acts.atStart (f := fun s => complete { s with freq := freqZero }) (.own rfl)
  | build => exact Acts.atStart (f := fun s => complete (storeTree s)) (.own rfl)
  | codes => exact .atStart (.needTree (.withCodes fun _ => .own rfl))
  | ser =>
    simp only [commandStep, serStep]
    split
    · exact .needTree (.own rfl)
    · exact .writesBit (by decide) ..
    all_goals exact .own rfl
  | deser => exact deserStep_acts s
  | enc => exact encStep_acts s
  | dec => exact decStep_acts s
  | magicWr =>
    simp only [commandStep, magicWrStep]
    split
    · exact .own rfl
    · exact .own rfl
    · exact .writesBit (by decide) ..
    · exact .own rfl
  | magicChk => exact magicChkStep_acts s

/-- What a command's steps do at the ports: the end marks and the capacities stay, input is taken from the head, output appended
at the tail. -/
structure PortsAdvance (s t : State) : Prop where
  biEod : t.biEod = s.biEod
  yiEod : t.yiEod = s.yiEod
  depths : t.depths = s.depths
  bi : t.biBits <:+ s.biBits
  yi : t.yiBytes <:+ s.yiBytes
  bo : s.boBits <+: t.boBits
  yo : s.yoBytes <+: t.yoBytes

theorem PortsAdvance.refl (s : State) : PortsAdvance s s :=
  ⟨rfl, rfl, rfl, List.suffix_rfl, List.suffix_rfl, List.prefix_rfl, List.prefix_rfl⟩

theorem Transfer.portsAdvance {i : Instr} {s t : State} (h : Transfer i s t) : PortsAdvance s t := by
  cases h with
  | none => exact .refl s
  | readBit _ h =>
    obtain ⟨rest, hb, rfl⟩ := readBit_item.mp h
    exact { PortsAdvance.refl s with bi := hb ▸ List.suffix_cons .. }
  | readByte _ h =>
    obtain ⟨rest, hb, rfl⟩ := readByte_item.mp h
    exact { PortsAdvance.refl s with yi := hb ▸ List.suffix_cons .. }
  | writeBit _ h =>
    obtain ⟨_, rfl⟩ := writeBit_some.mp h
    exact { PortsAdvance.refl s with bo := List.prefix_append .. }
  | writeByte _ h =>
    obtain ⟨_, rfl⟩ := writeByte_some.mp h
    exact { PortsAdvance.refl s with yo := List.prefix_append .. }

theorem commandStep_portsAdvance (i : Instr) (s : State) : PortsAdvance s (commandStep i s) := by
  obtain ⟨m, hm, hown⟩ := commandStep_acts i s
  rw [hown]
  exact { hm.portsAdvance with }

/-! ### The host's pushes and pops as services -/

/-- The push is accepted at `s` (spec/20_memory.md R74), or the pop is possible there (R75). -/
def HostAction.takesEffect : HostAction → State → Prop
  | .pushBit _, s => s.biEod = false ∧ s.biBits.length < s.depths.bi
  | .pushBiEod, s => s.biEod = false
  | .pushByte _, s => s.yiEod = false ∧ s.yiBytes.length < s.depths.yi
  | .pushYiEod, s => s.yiEod = false
  | .popBit, s => s.boBits ≠ []
  | .popByte, s => s.yoBytes ≠ []
  | _, _ => False

/-- The push or pop `x` at `s`, as what the host does at the ports. -/
def HostAction.service (x : HostAction) (s : State) : Service :=
  let a := Service.reorder s s.turns s.cycle
  match x with
  | .pushBit b => { a with bits := [b], told := [.accepted] }
  | .pushBiEod => { a with biEnd := true, told := [.accepted] }
  | .pushByte b => { a with bytes := [b], told := [.accepted] }
  | .pushYiEod => { a with yiEnd := true, told := [.accepted] }
  | .popBit => { a with boTaken := 1, told := (s.boBits.head?.map Seen.bit).toList }
  | .popByte => { a with yoTaken := 1, told := (s.yoBytes.head?.map Seen.byte).toList }
  | _ => a

/-- An accepted push or a possible pop is its service. -/
theorem hostStep_of_takesEffect {x : HostAction} {s : State} (h : x.takesEffect s) :
    hostStep x s = .next ((x.service s).on s) := by
  cases x with
  | pushBit b =>
    obtain ⟨he, hl⟩ := h
    simp [hostStep, pushBit, he, hl, inform, Service.on, HostAction.service, Service.reorder]
  | pushBiEod =>
    simp [hostStep, pushBiEod, show s.biEod = false from h, inform, Service.on, HostAction.service, Service.reorder]
  | pushByte b =>
    obtain ⟨he, hl⟩ := h
    simp [hostStep, pushByte, he, hl, inform, Service.on, HostAction.service, Service.reorder]
  | pushYiEod =>
    simp [hostStep, pushYiEod, show s.yiEod = false from h, inform, Service.on, HostAction.service, Service.reorder]
  | popBit =>
    obtain ⟨b, q, hb⟩ := List.exists_cons_of_ne_nil h
    simp [hostStep, popBit, hb, inform, Service.on, HostAction.service, Service.reorder]
  | popByte =>
    obtain ⟨b, q, hb⟩ := List.exists_cons_of_ne_nil h
    simp [hostStep, popByte, hb, inform, Service.on, HostAction.service, Service.reorder]
  | _ => exact h.elim

theorem service_fits {x : HostAction} {s : State} (h : x.takesEffect s) : (x.service s).fits s := by
  have hbo : ∀ k, s.boBits.length < s.depths.bo → s.boBits.length - k < s.depths.bo := by omega
  have hyo : ∀ k, s.yoBytes.length < s.depths.yo → s.yoBytes.length - k < s.depths.yo := by omega
  cases x with
  | pushBit b =>
    exact ⟨fun e => absurd (h.1.symm.trans e) (by decide), fun _ => rfl, Nat.zero_le _, Nat.zero_le _, hbo _, hyo _⟩
  | pushByte b =>
    exact ⟨fun _ => rfl, fun e => absurd (h.1.symm.trans e) (by decide), Nat.zero_le _, Nat.zero_le _, hbo _, hyo _⟩
  | pushBiEod | pushYiEod => exact ⟨fun _ => rfl, fun _ => rfl, Nat.zero_le _, Nat.zero_le _, hbo _, hyo _⟩
  | popBit => exact ⟨fun _ => rfl, fun _ => rfl, List.length_pos_of_ne_nil h, Nat.zero_le _, hbo _, hyo _⟩
  | popByte => exact ⟨fun _ => rfl, fun _ => rfl, Nat.zero_le _, List.length_pos_of_ne_nil h, hbo _, hyo _⟩
  | _ => exact h.elim

/-- An accepted push stays accepted and a possible pop possible while the engine runs. -/
theorem PortsAdvance.takesEffect {x : HostAction} {s t : State} (hp : PortsAdvance s t) (h : x.takesEffect s) :
    x.takesEffect t := by
  cases x with
  | pushBit b => exact ⟨hp.biEod.trans h.1, by rw [hp.depths]; exact hp.bi.length_le.trans_lt h.2⟩
  | pushBiEod => exact hp.biEod.trans h
  | pushByte b => exact ⟨hp.yiEod.trans h.1, by rw [hp.depths]; exact hp.yi.length_le.trans_lt h.2⟩
  | pushYiEod => exact hp.yiEod.trans h
  | popBit => exact hp.bo.ne_nil h
  | popByte => exact hp.yo.ne_nil h
  | _ => exact h.elim

/-- And it is the same service: a pop takes the item that was at the head before. -/
theorem PortsAdvance.service {x : HostAction} {s t : State} (hp : PortsAdvance s t) (ht : t.turns = s.turns)
    (hc : t.cycle = s.cycle) (h : x.takesEffect s) : x.service t = x.service s := by
  cases x with
  | popBit =>
    obtain ⟨b, q, hb⟩ := List.exists_cons_of_ne_nil h
    obtain ⟨p, hp'⟩ := hp.bo
    simp [HostAction.service, Service.reorder, hp.depths, ht, hc, ← hp', hb]
  | popByte =>
    obtain ⟨b, q, hb⟩ := List.exists_cons_of_ne_nil h
    obtain ⟨p, hp'⟩ := hp.yo
    simp [HostAction.service, Service.reorder, hp.depths, ht, hc, ← hp', hb]
  | _ => simp [HostAction.service, Service.reorder, hp.depths, ht, hc]

theorem takesEffect_commandStep {x : HostAction} {s : State} (h : x.takesEffect s) (i : Instr) :
    x.takesEffect (commandStep i s) ∧ x.service (commandStep i s) = x.service s :=
  have hp := commandStep_portsAdvance i s
  ⟨hp.takesEffect h, hp.service (commandStep_turns i s) (commandStep_cycle i s) h⟩

/-! ### O20 -/

/-- `k` engine steps and then an accepted push or a possible pop are the push or pop and then `k` engine steps at most: fewer
when the engine held until it (spec/20_memory.md R76). -/
theorem service_commutes {x : HostAction} {s : State} (h : x.takesEffect s) (i : Instr) (k : Nat) :
    hostStep x (repeatStep k (commandStep i) s) = .next ((x.service s).on (repeatStep k (commandStep i) s)) ∧
      ∃ n ≤ k, repeatStep n (commandStep i) ((x.service s).on s) = (x.service s).on (repeatStep k (commandStep i) s) := by
  induction k generalizing s with
  | zero => exact ⟨hostStep_of_takesEffect h, 0, le_rfl, rfl⟩
  | succ k ih =>
    obtain ⟨h', e⟩ := takesEffect_commandStep h i
    obtain ⟨hstep, n, hn, hrun⟩ := ih h'
    rw [e] at hstep hrun
    refine ⟨hstep, ?_⟩
    rcases commandStep_service i (service_fits h) with hc | ⟨hold, -⟩
    · exact ⟨n + 1, Nat.succ_le_succ hn, by rw [repeatStep, hc]; exact hrun⟩
    · exact ⟨0, Nat.zero_le _, by rw [repeatStep_fixed hold]; rfl⟩

/-- Where the command then ends in `m` engine steps more, it ends in the same state when the push or pop comes first: the engine
steps that the hold left unused change nothing after the end. -/
theorem service_sameEnd {x : HostAction} {s : State} (h : x.takesEffect s) {i : Instr} {k m : Nat}
    (hidle : (repeatStep m (commandStep i) ((x.service s).on (repeatStep k (commandStep i) s))).phase = .idle) :
    repeatStep (k + m) (commandStep i) ((x.service s).on s) =
      repeatStep m (commandStep i) ((x.service s).on (repeatStep k (commandStep i) s)) := by
  obtain ⟨-, n, hn, hrun⟩ := service_commutes h i k
  refine repeatStep_reached (m := n + m) ?_ (commandStep_idle hidle i) (Nat.add_le_add_right hn m)
  rw [repeatStep_add, hrun]

/-- `exec` at an engine's turn of `n` steps. -/
theorem exec_engine {i : Instr} {s t : State} {n : Nat} {rest : List Turn} :
    exec i { s with turns := .engine n :: rest } = .next t ↔
      s.phase.runs i = true ∧ t = { repeatStep n (commandStep i) s with turns := .engine n :: rest } := by
  rw [exec_next, grant_engine, repeatStep_setTurns]

/-- Settles O20: the first clause by commuting the push or pop with each engine step, unless that one holds; the second is
`drained_ends`. -/
theorem pushCommutesWithEngineStep : Obligations.PushCommutesWithEngineStep := by
  unfold Obligations.PushCommutesWithEngineStep
  refine ⟨fun i x s t hx ht => ?_, fun _ _ _ _ _ _ _ => drained_ends⟩
  have hs : x.takesEffect s := by
    rcases hx with ⟨he, ⟨⟨b, rfl⟩, hl⟩ | rfl⟩ | ⟨he, ⟨⟨b, rfl⟩, hl⟩ | rfl⟩ | ⟨rfl, hl⟩ | ⟨rfl, hl⟩
    exacts [⟨he, hl⟩, he, ⟨he, hl⟩, he, hl, hl]
  obtain ⟨hr, rfl⟩ := exec_next.mp ht
  obtain ⟨hstep, n, hn, hrun⟩ := service_commutes hs i s.grant
  refine ⟨_, _, hostStep_of_takesEffect hs, hstep, ⟨n, hn, fun rest => ?_⟩, fun m rest u hu hidle => ?_⟩
  · exact exec_engine.mpr ⟨hr, by rw [hrun]⟩
  · obtain ⟨-, rfl⟩ := exec_engine.mp hu
    exact exec_engine.mpr ⟨hr, by rw [service_sameEnd hs hidle]⟩

end Sys2Proof.Machine

/-! ## The control, queue, tree and code-table invariants, and the family of spec/10_state.md -/

namespace Sys2Proof.Machine

/-! ### The accepted word -/

theorem ofOpcode_command {n : Nat} {i : Instr} (h : ofOpcode n = .command i) : n = (opcode i).toNat := by
  unfold ofOpcode at h
  split at h <;> cases h <;> rfl

/-- A word that decodes to a command is that command's word: RSV is 0 and OP its opcode (spec/30_encoding.md R92, R93). -/
theorem eq_encode_of_decode {w : Word} {i : Instr} (h : decode w = .command i) : w = encode i := by
  unfold decode at h
  split at h
  · next hr =>
    have hop := ofOpcode_command h
    have hrsv := congrArg BitVec.toNat hr
    simp only [opField, rsvField, BitVec.extractLsb'_toNat, Nat.shiftRight_eq_div_pow, BitVec.ofNat_eq_ofNat,
      BitVec.toNat_ofNat] at hop hrsv
    refine BitVec.eq_of_toNat_eq ?_
    have hlt := (opcode i).isLt
    simp only [encode, BitVec.toNat_setWidth]
    omega
  · cases h

/-- The engine, if busy, runs command `i`. -/
def State.executes (i : Instr) (s : State) : Prop := ∀ w c, s.phase = .busy w c → decode w = .command i

theorem executes_of_busy {s : State} {w : Word} {c : Cont} {i : Instr} (hp : s.phase = .busy w c)
    (hd : decode w = .command i) : s.executes i := by
  intro w' c' hp'
  cases hp.symm.trans hp'
  exact hd

theorem busy_goTo {s : State} {c c' : Cont} {w : Word} (h : s.phase.moveTo c = .busy w c') :
    c' = c ∧ ∃ c₀, s.phase = .busy w c₀ := by
  rcases hp : s.phase with _ | ⟨w₀, c₀⟩ <;> rw [hp] at h <;> cases h
  exact ⟨rfl, c₀, rfl⟩

theorem commandStep_executes {i : Instr} {s : State} (h : s.executes i) : (commandStep i s).executes i := by
  intro w c hp
  rcases (commandStep_moves i s).phase with e | e | ⟨c', -, e⟩ <;> rw [e] at hp
  · exact h w c hp
  · cases hp
  · obtain ⟨-, c₀, hc⟩ := busy_goTo hp
    exact h w c₀ hc

/-! ### One engine step, by all that it can do -/

/-- What a continuation rests on: the second phase of ENC on a code table, the walks of SER and DEC on a tree. -/
def Cont.ready (s : State) : Cont → Prop
  | .enc _ _ | .encByte _ => s.codesValid = true
  | .dec _ | .ser _ _ => s.treeValid = true
  | _ => True

/-- The last four clauses of `busyInv`. -/
theorem Cont.ready_iff {c : Cont} {s : State} :
    c.ready s ↔ (∀ p last, c = .enc p last → s.codesValid = true) ∧ (∀ x, c = .encByte x → s.codesValid = true) ∧
      (∀ i, c = .dec i → s.treeValid = true) ∧ ∀ p st, c = .ser p st → s.treeValid = true := by
  cases c <;> simp [Cont.ready]

/-- The position of a busy engine has what it rests on. -/
def State.ready (s : State) : Prop := ∀ w c, s.phase = .busy w c → c.ready s

/-- The first part of an engine step of command `i` at `s`: its transfer, the table of `BuildCodes()`, or one arena entry. -/
inductive Prepares (i : Instr) (s : State) : State → Prop
  | transfers {m : State} (h : Transfer i s m) : Prepares i s m
  | buildsCodes (hi : i = .codes ∨ i = .enc) (ht : s.treeValid = true) {c : CodeTable}
      (hc : codeTableOf s.arena s.root = some c) : Prepares i s { s with code := c, codesValid := true }
  | storesNode (hi : i = .deser) (j : Idx) (n : Node) : Prepares i s { s with arena := arenaSet s.arena j n }

/-- The second part of an engine step of command `i` at `s`, which has come to `m`: it stays, goes to another position of the
command, or ends in one of the command's ways. -/
inductive Concludes (i : Instr) (s m : State) : State → Prop
  | stays : Concludes i s m m
  | goesTo {c : Cont} (hc : c.belongsTo i = true) (hr : s.ready → c.ready m) : Concludes i s m (goTo c m)
  | completes : Concludes i s m (complete m)
  | raises (e : ErrCode) (x : BitVec 9) : Concludes i s m (raiseError e x m)
  | clearsFreq (hi : i = .clrFreq) : Concludes i s m (complete { m with freq := freqZero })
  | storesTree (hi : i = .build) (hm : m = s) : Concludes i s m (complete (storeTree m))
  | failsDeser (hi : i = .deser) (e : ErrCode) (x : BitVec 9) : Concludes i s m (deserFail e x m)
  | endsDeser (hi : i = .deser) {w : Word} {r n lv : Idx} (hp : s.phase = .busy w (.deser n lv (.ret r) []))
      (hm : m = s) : Concludes i s m (deserEnd r n lv m)
  | endsDec (hi : i = .dec) : Concludes i s m (decEnd m)

/-- An engine step of command `i` takes `s` to `t`. -/
def Does (i : Instr) (s t : State) : Prop := ∃ m, Prepares i s m ∧ Concludes i s m t

section
variable {i : Instr} {s m t : State} {f : State → State}

/-- A step without a first part. -/
theorem Does.only (h : Concludes i s s t) : Does i s t := ⟨s, .transfers .none, h⟩

theorem Does.stay : Does i s s := .only .stays

theorem Does.atStart (h : Does i s (f s)) : Does i s (atStart f s) := by
  rcases atStart_cases f s with ⟨_, _, e⟩ | e <;> rw [e]
  · exact h
  · exact .stay

theorem Does.needTree (h : s.treeValid = true → Does i s (f s)) : Does i s (needTree f s) := by
  rcases needTree_cases f s with ⟨ht, e⟩ | ⟨_, e⟩ <;> rw [e]
  · exact h ht
  · exact .only (.raises ..)

theorem Does.withCodes (hi : i = .codes ∨ i = .enc) (ht : s.treeValid = true)
    (h : ∀ c, Concludes i s { s with code := c, codesValid := true } (f { s with code := c, codesValid := true })) :
    Does i s (withCodes f s) := by
  rcases withCodes_cases f s with ⟨c, hc, e⟩ | ⟨_, e⟩ <;> rw [e]
  · exact ⟨_, .buildsCodes hi ht hc, h c⟩
  · exact .stay

/-- A step that writes a bit and goes on, or holds. -/
theorem Does.writesBit (hi : i ∈ [Instr.ser, .enc, .magicWr]) (b : Bool) {c : Cont} (hc : c.belongsTo i = true)
    (hr : ∀ m, writeBit b s = some m → s.ready → c.ready m) :
    Does i s (match writeBit b s with | some m => goTo c m | none => s) := by
  split
  · next h => exact ⟨_, .transfers (.writeBit hi h), .goesTo hc (hr _ h)⟩
  · exact .stay

end

theorem serStep_does (s : State) : Does .ser s (serStep s) := by
  unfold serStep
  split
  · exact .needTree fun ht => .only (.goesTo rfl fun _ => ht)
  · next hp =>
    refine .writesBit (by decide) _ rfl fun m hm hr => ?_
    obtain ⟨-, rfl⟩ := writeBit_some.mp hm
    exact hr _ _ hp
  · next hp => exact .only (.goesTo rfl fun hr => (hr _ _ hp :))
  · exact .only .completes
  · exact .stay

theorem deserStep_does (s : State) : Does .deser s (deserStep s) := by
  unfold deserStep
  split
  · exact .only (.goesTo rfl fun _ => trivial)
  · unfold deserFlag; split
    · exact .only (.failsDeser rfl ..)
    · split
      · next h => exact ⟨_, .transfers (.readBit (by decide) h), .goesTo rfl fun _ => trivial⟩
      · next h => exact ⟨_, .transfers (.readBit (by decide) h), .goesTo rfl fun _ => trivial⟩
      · exact .only (.failsDeser rfl ..)
      · exact .stay
  · unfold deserLeaf; split
    · exact .only (.failsDeser rfl ..)
    · exact ⟨_, .storesNode rfl .., .goesTo rfl fun _ => trivial⟩
  · unfold deserField; split
    · next h => exact ⟨_, .transfers (.readBit (by decide) h), .goesTo rfl fun _ => trivial⟩
    · exact .only (.failsDeser rfl ..)
    · exact .stay
  · next hp =>
    unfold deserReturn; split
    · exact .only (.endsDeser rfl hp rfl)
    · exact .only (.goesTo rfl fun _ => trivial)
    · exact ⟨_, .storesNode rfl .., .goesTo rfl fun _ => trivial⟩
  · exact .stay

theorem encStep_does (s : State) : Does .enc s (encStep s) := by
  unfold encStep
  split
  · refine .needTree fun ht => .withCodes (.inr rfl) ht fun c => ?_
    unfold encBegin; split
    · exact .goesTo rfl fun _ => rfl
    · exact .raises ..
  · next hp =>
    refine .writesBit (by decide) _ rfl fun m hm hr => ?_
    obtain ⟨-, rfl⟩ := writeBit_some.mp hm
    exact hr _ _ hp
  · next hp =>
    unfold encNext; split
    · next h =>
      refine ⟨_, .transfers (.readByte rfl h), .goesTo rfl fun hr => ?_⟩
      obtain ⟨_, -, rfl⟩ := readByte_item.mp h
      exact hr _ _ hp
    · exact .only (.goesTo rfl fun hr => (hr _ _ hp :))
    · exact .stay
  · exact .only .completes
  · next hp =>
    unfold encLookup; split
    · exact .only (.goesTo rfl fun hr => (hr _ _ hp :))
    · exact .only (.raises ..)
  · exact .stay

theorem decStep_does (s : State) : Does .dec s (decStep s) := by
  unfold decStep
  split
  · refine .needTree fun ht => ?_
    unfold decBegin; split
    · split
      · exact .only (.endsDec rfl)
      · exact .only (.raises ..)
    · exact .only (.goesTo rfl fun _ => ht)
  · next hp =>
    have item {b : Bool} {m : State} {c : Idx} (h : readBit s = .item b m) : Does .dec s (goTo (.dec c) m) := by
      refine ⟨_, .transfers (.readBit (by decide) h), .goesTo rfl fun hr => ?_⟩
      obtain ⟨_, -, rfl⟩ := readBit_item.mp h
      exact hr _ _ hp
    unfold decWalk; split
    · split
      · next h => exact item h
      · next h => exact item h
      · exact .only .completes
      · exact .stay
    · split
      · exact .only (.endsDec rfl)
      · split
        · next h =>
          refine ⟨_, .transfers (.writeByte rfl h), .goesTo rfl fun hr => ?_⟩
          obtain ⟨-, rfl⟩ := writeByte_some.mp h
          exact hr _ _ hp
        · exact .stay
  · exact .stay

theorem magicWrStep_does (s : State) : Does .magicWr s (magicWrStep s) := by
  unfold magicWrStep
  split
  · exact .only (.goesTo rfl fun _ => trivial)
  · exact .only .completes
  · exact .writesBit (by decide) _ rfl fun _ _ _ => trivial
  · exact .stay

theorem magicChkStep_does (s : State) : Does .magicChk s (magicChkStep s) := by
  unfold magicChkStep
  split
  · exact .only (.goesTo rfl fun _ => trivial)
  · split
    · exact .only .completes
    · exact .only (.raises ..)
  · split
    · next h => exact ⟨_, .transfers (.readBit (by decide) h), .goesTo rfl fun _ => trivial⟩
    · exact .only (.raises ..)
    · exact .stay
  · exact .stay

/-- All that an engine step can do: the lemma that the frames and the invariants below rest on. -/
theorem commandStep_does (i : Instr) (s : State) : Does i s (commandStep i s) := by
  cases i with
  | nop => exact Does.atStart (f := complete) (.only .completes)
  | clrFreq => exact Does.atStart (f := fun s => complete { s with freq := freqZero }) (.only (.clearsFreq rfl))
  | build => exact Does.atStart (f := fun s => complete (storeTree s)) (.only (.storesTree rfl rfl))
  | codes => exact .atStart (.needTree fun ht => .withCodes (.inl rfl) ht fun _ => .completes)
  | ser => exact serStep_does s
  | deser => exact deserStep_does s
  | enc => exact encStep_does s
  | dec => exact decStep_does s
  | magicWr => exact magicWrStep_does s
  | magicChk => exact magicChkStep_does s

/-- A transfer changes the queues and the counters alone. -/
theorem Transfer.ports {i : Instr} {s m : State} (h : Transfer i s m) :
    ∃ bi bic yi yic bo boc yo yoc, m = { s with
      biBits := bi, biCount := bic, yiBytes := yi, yiCount := yic, boBits := bo, boCount := boc, yoBytes := yo,
      yoCount := yoc } := by
  cases h with
  | none => exact ⟨_, _, _, _, _, _, _, _, rfl⟩
  | readBit _ h => obtain ⟨_, _, rfl⟩ := readBit_item.mp h; exact ⟨_, _, _, _, _, _, _, _, rfl⟩
  | readByte _ h => obtain ⟨_, _, rfl⟩ := readByte_item.mp h; exact ⟨_, _, _, _, _, _, _, _, rfl⟩
  | writeBit _ h => obtain ⟨_, rfl⟩ := writeBit_some.mp h; exact ⟨_, _, _, _, _, _, _, _, rfl⟩
  | writeByte _ h => obtain ⟨_, rfl⟩ := writeByte_some.mp h; exact ⟨_, _, _, _, _, _, _, _, rfl⟩

/-! ### What an engine step leaves unchanged -/

/-- The phase, FREQ and the flags are the same, CODES_VALID left out. -/
structure KeepsFlags (s m : State) : Prop where
  phase : m.phase = s.phase
  freq : m.freq = s.freq
  treeValid : m.treeValid = s.treeValid
  endSeen : m.endSeen = s.endSeen
  err : m.err = s.err

theorem Prepares.keepsFlags {i : Instr} {s m : State} (h : Prepares i s m) : KeepsFlags s m := by
  cases h with
  | transfers k => obtain ⟨_, _, _, _, _, _, _, _, rfl⟩ := k.ports; exact ⟨rfl, rfl, rfl, rfl, rfl⟩
  | _ => exact ⟨rfl, rfl, rfl, rfl, rfl⟩

/-- The registers only the host writes but FREQ, OVR, CMD's readback, the end marks and the model's own fields are the same. -/
structure KeepsHostFields (s t : State) : Prop where
  irqEn : t.irqEn = s.irqEn
  cmdLast : t.cmdLast = s.cmdLast
  ovr : t.ovr = s.ovr
  magic : t.magic = s.magic
  nodeSel : t.nodeSel = s.nodeSel
  codeSel : t.codeSel = s.codeSel
  biEod : t.biEod = s.biEod
  yiEod : t.yiEod = s.yiEod
  depths : t.depths = s.depths
  turns : t.turns = s.turns
  cycle : t.cycle = s.cycle
  seen : t.seen = s.seen
  draws : t.draws = s.draws

theorem KeepsHostFields.refl (s : State) : KeepsHostFields s s :=
  ⟨rfl, rfl, rfl, rfl, rfl, rfl, rfl, rfl, rfl, rfl, rfl, rfl, rfl⟩

theorem KeepsHostFields.trans {s t u : State} (h : KeepsHostFields s t) (k : KeepsHostFields t u) : KeepsHostFields s u :=
  ⟨k.irqEn.trans h.irqEn, k.cmdLast.trans h.cmdLast, k.ovr.trans h.ovr, k.magic.trans h.magic, k.nodeSel.trans h.nodeSel,
    k.codeSel.trans h.codeSel, k.biEod.trans h.biEod, k.yiEod.trans h.yiEod, k.depths.trans h.depths, k.turns.trans h.turns,
    k.cycle.trans h.cycle, k.seen.trans h.seen, k.draws.trans h.draws⟩

theorem commandStep_keepsHostFields (i : Instr) (s : State) : KeepsHostFields s (commandStep i s) := by
  obtain ⟨m, hm, hown⟩ := commandStep_acts i s
  obtain ⟨_, _, _, _, _, _, _, _, rfl⟩ := hm.ports
  rw [hown]
  exact { KeepsHostFields.refl s with }

/-- An engine step that changes FREQ is CLR_FREQ's, and ends it (spec/40_tree_build.md R120). -/
theorem Does.freq {i : Instr} {s t : State} (h : Does i s t) :
    t.freq = s.freq ∨ (i = .clrFreq ∧ t.phase = .idle ∧ t.done = true) := by
  obtain ⟨m, hm, hc⟩ := h
  cases hc with
  | clearsFreq hi => exact .inr ⟨hi, rfl, rfl⟩
  | _ => exact .inl hm.keepsFlags.freq

/-- The arena, ROOT, NODES, LEAVES and TREE_VALID are the same. -/
structure KeepsTree (s t : State) : Prop where
  arena : t.arena = s.arena
  root : t.root = s.root
  nodes : t.nodes = s.nodes
  leaves : t.leaves = s.leaves
  treeValid : t.treeValid = s.treeValid

theorem KeepsTree.refl (s : State) : KeepsTree s s := ⟨rfl, rfl, rfl, rfl, rfl⟩

theorem KeepsTree.trans {s t u : State} (h : KeepsTree s t) (k : KeepsTree t u) : KeepsTree s u :=
  ⟨k.arena.trans h.arena, k.root.trans h.root, k.nodes.trans h.nodes, k.leaves.trans h.leaves,
    k.treeValid.trans h.treeValid⟩

theorem KeepsTree.treeIs_iff {s t : State} (h : KeepsTree s t) (T : Shape) : t.treeIs T ↔ s.treeIs T := by
  simp only [State.treeIs, h.arena, h.root, h.nodes, h.leaves]

theorem Does.keepsTree {i : Instr} {s t : State} (h : Does i s t) (hb : i ≠ .build) (hd : i ≠ .deser) :
    KeepsTree s t := by
  obtain ⟨m, hm, hc⟩ := h
  have e : KeepsTree s m := by
    cases hm with
    | transfers h => obtain ⟨_, _, _, _, _, _, _, _, rfl⟩ := h.ports; exact ⟨rfl, rfl, rfl, rfl, rfl⟩
    | buildsCodes => exact ⟨rfl, rfl, rfl, rfl, rfl⟩
    | storesNode h => exact absurd h hd
  cases hc with
  | storesTree h => exact absurd h hb
  | failsDeser h | endsDeser h => exact absurd h hd
  | _ => exact e.trans ⟨rfl, rfl, rfl, rfl, rfl⟩

/-- The code table and CODES_VALID stay, but for CODES and ENC, which have a tree and make the table of `BuildCodes()`
(spec/10_state.md R30). -/
theorem Does.code {i : Instr} {s t : State} (h : Does i s t) :
    (t.code = s.code ∧ t.codesValid = s.codesValid) ∨
      ((i = .codes ∨ i = .enc) ∧ s.treeValid = true ∧ codeTableOf s.arena s.root = some t.code) := by
  obtain ⟨m, hm, hc⟩ := h
  have e : t.code = m.code ∧ t.codesValid = m.codesValid := by cases hc <;> exact ⟨rfl, rfl⟩
  rw [e.1, e.2]
  cases hm with
  | transfers h => obtain ⟨_, _, _, _, _, _, _, _, rfl⟩ := h.ports; exact .inl ⟨rfl, rfl⟩
  | storesNode => exact .inl ⟨rfl, rfl⟩
  | buildsCodes hi ht he => exact .inr ⟨hi, ht, he⟩

/-- An engine step that changes TREE_VALID sets it, is BUILD's or DESER's, and completes it (spec/10_state.md R29). -/
theorem Does.treeValid {i : Instr} {s t : State} (h : Does i s t) :
    t.treeValid = s.treeValid ∨ (t.treeValid = true ∧ (i = .build ∨ i = .deser) ∧ t.phase = .idle ∧ t.done = true ∧
      t.err = s.err) := by
  obtain ⟨m, hm, hc⟩ := h
  cases hc with
  | storesTree hi => exact .inr ⟨rfl, .inl hi, rfl, rfl, hm.keepsFlags.err⟩
  | endsDeser hi => exact .inr ⟨rfl, .inr hi, rfl, rfl, hm.keepsFlags.err⟩
  | _ => exact .inl hm.keepsFlags.treeValid

/-- An engine step that changes END_SEEN is DEC's, and completes it (spec/10_state.md R31). -/
theorem Does.endSeen {i : Instr} {s t : State} (h : Does i s t) :
    t.endSeen = s.endSeen ∨ (i = .dec ∧ t.phase = .idle ∧ t.done = true ∧ t.err = s.err) := by
  obtain ⟨m, hm, hc⟩ := h
  cases hc with
  | endsDec hi => exact .inr ⟨hi, rfl, rfl, hm.keepsFlags.err⟩
  | _ => exact .inl hm.keepsFlags.endSeen

/-- What each step of a run leaves as it was, the run does. -/
theorem repeatStep_keepsField {α : Type} {f : State → State} (g : State → α) (h : ∀ u, g (f u) = g u) (k : Nat)
    (s : State) : g (repeatStep k f s) = g s :=
  repeatStep_keeps (P := fun u => g u = g s) (fun u hu => (h u).trans hu) k rfl

/-- What every engine step of `i` leaves as it was, `exec i` does. -/
theorem exec_keepsRel {R : State → State → Prop} {i : Instr} (hr : ∀ s, R s s)
    (ht : ∀ {s t u : State}, R s t → R t u → R s u) (h : ∀ s, R s (commandStep i s)) {s t : State}
    (he : exec i s = .next t) : R s t :=
  exec_keeps (P := R s) (fun u hu => ht hu (h u)) he (hr s)

theorem exec_keepsField {α : Type} {i : Instr} (g : State → α) (h : ∀ u, g (commandStep i u) = g u) {s t : State}
    (he : exec i s = .next t) : g t = g s := by
  rw [(exec_next.mp he).2]
  exact repeatStep_keepsField g h _ s

/-- Settles O49: every engine step keeps the host's fields, and all but CLR_FREQ's keep FREQ. -/
theorem commandsKeepHostRegisters : Obligations.CommandsKeepHostRegisters := by
  unfold Obligations.CommandsKeepHostRegisters
  intro i s t h
  have k := exec_keepsRel KeepsHostFields.refl KeepsHostFields.trans (commandStep_keepsHostFields i) h
  refine ⟨k.irqEn, k.cmdLast, k.ovr, k.magic, k.nodeSel, k.codeSel, k.biEod, k.yiEod, k.depths, k.turns, k.cycle, k.seen,
    k.draws, fun hi => exec_keepsField State.freq (fun u => ?_) h⟩
  exact (commandStep_does i u).freq.resolve_right fun ⟨e, _⟩ => hi e

/-- Settles O50: by the frames of one engine step. -/
theorem commandsKeepTreeAndCodes : Obligations.CommandsKeepTreeAndCodes := by
  unfold Obligations.CommandsKeepTreeAndCodes
  intro i s t h
  refine ⟨fun hb hd => ?_, fun hc he => ?_, fun hd => exec_keepsField State.endSeen (fun u => ?_) h⟩
  · have k := exec_keepsRel KeepsTree.refl KeepsTree.trans (fun u => (commandStep_does i u).keepsTree hb hd) h
    exact ⟨k.arena, k.root, k.nodes, k.leaves, k.treeValid⟩
  · have keeps (u : State) : (commandStep i u).code = u.code ∧ (commandStep i u).codesValid = u.codesValid := by
      rcases (commandStep_does i u).code with e | ⟨rfl | rfl, -⟩
      exacts [e, absurd rfl hc, absurd rfl he]
    exact ⟨exec_keepsField State.code (fun u => (keeps u).1) h, exec_keepsField State.codesValid (fun u => (keeps u).2) h⟩
  · exact (commandStep_does i u).endSeen.resolve_right fun ⟨e, _⟩ => hd e

end Sys2Proof.Machine

/-! ## The register window -/

namespace Sys2Proof.Machine

/-! ### Writes, said once for each register that has any -/

theorem busy_eq (s : State) : s.busy = (s.phase != .idle) := by
  unfold State.busy
  cases s.phase <;> rfl

theorem busy_eq_false {s : State} : s.busy = false ↔ s.phase = .idle := by simp [busy_eq]

section
variable {s : State} {f : State → State} (v : Word)

theorem protectedWrite_of_busy (h : s.busy = true) : protectedWrite f s = dropWrite s := by simp [protectedWrite, h]

theorem protectedWrite_of_idle (h : s.phase = .idle) : protectedWrite f s = f s := by
  simp [protectedWrite, busy_eq_false.mpr h]

/-- Write-1-to-clear of DONE, ERR (with ERRCODE and ERRINFO) and OVR (spec/10_state.md R25 to R32). -/
theorem writeStatus_eq (s : State) : writeStatus v s = { s with
    done := s.done && !v.getLsbD 1, err := s.err && !v.getLsbD 2, ovr := s.ovr && !v.getLsbD 6,
    errcode := if v.getLsbD 2 then 0 else s.errcode, errinfo := if v.getLsbD 2 then 0 else s.errinfo } := by
  unfold writeStatus
  cases v.getLsbD 1 <;> cases v.getLsbD 2 <;> cases v.getLsbD 6 <;> simp [clearDone, clearErr, clearOvr]

theorem writeCtrl_of_reset (h : v.getLsbD 0 = true) : writeCtrl v s = resetAll s := by simp [writeCtrl, h]

/-- A CTRL write while busy with a clear in it: the clear is dropped, IRQ_EN is not (spec/10_state.md R42). -/
theorem writeCtrl_of_busy (hb : s.busy = true) (h0 : v.getLsbD 0 = false) (h : v.getLsbD 1 = true ∨ v.getLsbD 2 = true) :
    writeCtrl v s = { s with ovr := true, irqEn := v.getLsbD 8 } := by
  have e (x y : Bool) : protectedWrite clearYi { s with irqEn := x, ovr := y } = { s with irqEn := x, ovr := true } :=
    protectedWrite_of_busy hb
  have e' (x : Bool) : protectedWrite clearBi { s with irqEn := x } = { s with irqEn := x, ovr := true } :=
    protectedWrite_of_busy hb
  unfold writeCtrl
  rcases Bool.eq_false_or_eq_true (v.getLsbD 1) with h1 | h1 <;>
    rcases Bool.eq_false_or_eq_true (v.getLsbD 2) with h2 | h2 <;> simp only [h0, h1, h2] at h ⊢
  · exact (congrArg _ (e' _)).trans (e _ _)
  · exact e' _
  · exact e _ _
  · simp at h

/-- A CTRL write without a reset, while idle or without a clear in it. -/
theorem writeCtrl_of_plain (h0 : v.getLsbD 0 = false)
    (h : s.phase = .idle ∨ v.getLsbD 1 = false ∧ v.getLsbD 2 = false) :
    writeCtrl v s = { s with
      irqEn := v.getLsbD 8,
      biBits := if v.getLsbD 1 then [] else s.biBits, biEod := if v.getLsbD 1 then false else s.biEod,
      yiBytes := if v.getLsbD 2 then [] else s.yiBytes, yiEod := if v.getLsbD 2 then false else s.yiEod } := by
  simp only [writeCtrl, h0, Bool.false_eq_true, if_false]
  rcases h with h | ⟨h1, h2⟩
  · have bi (x : Bool) : protectedWrite clearBi { s with irqEn := x } = clearBi { s with irqEn := x } :=
      protectedWrite_of_idle h
    have yi (x : Bool) (q : BitSeq) (y : Bool) :
        protectedWrite clearYi { s with irqEn := x, biBits := q, biEod := y } =
          clearYi { s with irqEn := x, biBits := q, biEod := y } := protectedWrite_of_idle h
    rw [bi]
    cases v.getLsbD 1 <;> cases v.getLsbD 2 <;> simp only [Bool.false_eq_true, if_false, if_true]
    · exact yi _ _ _
    · rfl
    · exact yi _ _ _
  · simp only [h1, h2, Bool.false_eq_true, if_false]

end

/-- What a write of `v` to a register does at `s`. -/
inductive WriteEffect (s : State) (v : Word) : Reg → State → Prop
  | nothing {r : Reg} : WriteEffect s v r s
  | resets (h : v.getLsbD 0 = true) : WriteEffect s v .ctrl (resetAll s)
  | dropsClear (hb : s.busy = true) (h : v.getLsbD 1 = true ∨ v.getLsbD 2 = true) :
      WriteEffect s v .ctrl { s with ovr := true, irqEn := v.getLsbD 8 }
  | setsCtrl : WriteEffect s v .ctrl { s with
      irqEn := v.getLsbD 8,
      biBits := if v.getLsbD 1 then [] else s.biBits, biEod := if v.getLsbD 1 then false else s.biEod,
      yiBytes := if v.getLsbD 2 then [] else s.yiBytes, yiEod := if v.getLsbD 2 then false else s.yiEod }
  | drops {r : Reg} (hb : s.busy = true) (hr : r = .cmd ∨ r = .magic ∨ ∃ b, r = .freq b) :
      WriteEffect s v r { s with ovr := true }
  | accepts (hp : s.phase = .idle) : WriteEffect s v .cmd (accept v s)
  | clears : WriteEffect s v .status { s with
      done := s.done && !v.getLsbD 1, err := s.err && !v.getLsbD 2, ovr := s.ovr && !v.getLsbD 6,
      errcode := if v.getLsbD 2 then 0 else s.errcode, errinfo := if v.getLsbD 2 then 0 else s.errinfo }
  | setsMagic (hp : s.phase = .idle) : WriteEffect s v .magic { s with magic := v }
  | setsFreq (hp : s.phase = .idle) (b : Byte) : WriteEffect s v (.freq b) { s with freq := freqSet s.freq b v }
  | selectsNode (i : Idx) : WriteEffect s v .nodeSel { s with nodeSel := i }
  | selectsCode (x : Symbol) : WriteEffect s v .codeSel { s with codeSel := x }

theorem protectedWrite_effect {s : State} {v : Word} {r : Reg} {f : State → State}
    (hr : r = .cmd ∨ r = .magic ∨ ∃ b, r = .freq b) (hf : s.phase = .idle → WriteEffect s v r (f s)) :
    WriteEffect s v r (protectedWrite f s) := by
  rcases Bool.eq_false_or_eq_true s.busy with h | h
  · rw [protectedWrite_of_busy h]; exact .drops h hr
  · rw [protectedWrite_of_idle (busy_eq_false.mp h)]; exact hf (busy_eq_false.mp h)

theorem writeCtrl_effect (v : Word) (s : State) : WriteEffect s v .ctrl (writeCtrl v s) := by
  by_cases h0 : v.getLsbD 0 = true
  · rw [writeCtrl_of_reset v h0]; exact .resets h0
  · rw [Bool.not_eq_true] at h0
    rcases Bool.eq_false_or_eq_true s.busy with hb | hb
    · by_cases h : v.getLsbD 1 = true ∨ v.getLsbD 2 = true
      · rw [writeCtrl_of_busy v hb h0 h]; exact .dropsClear hb h
      · rw [not_or, Bool.not_eq_true, Bool.not_eq_true] at h
        rw [writeCtrl_of_plain v h0 (.inr h)]; exact .setsCtrl
    · rw [writeCtrl_of_plain v h0 (.inl (busy_eq_false.mp hb))]; exact .setsCtrl

/-- All that a write to a register can do (spec/10_state.md R20 to R42). -/
theorem writeReg_effect (r : Reg) (v : Word) (s : State) : WriteEffect s v r (writeReg r v s) := by
  cases r with
  | ctrl => exact writeCtrl_effect v s
  | cmd => exact protectedWrite_effect (.inl rfl) .accepts
  | status => rw [writeReg, writeStatus_eq]; exact .clears
  | magic => exact protectedWrite_effect (f := fun s => { s with magic := v }) (.inr (.inl rfl)) .setsMagic
  | freq b =>
    exact protectedWrite_effect (f := fun s => { s with freq := freqSet s.freq b v }) (.inr (.inr ⟨b, rfl⟩)) (.setsFreq · b)
  | nodeSel => exact .selectsNode _
  | codeSel => exact .selectsCode _
  | _ => exact .nothing

theorem writeReg_nodeSel (v : Word) (s : State) : writeReg .nodeSel v s = { s with nodeSel := v.setWidth 10 } := by
  rw [writeReg, BitVec.setWidth_eq_extractLsb' (by decide)]

theorem writeReg_codeSel (v : Word) (s : State) : writeReg .codeSel v s = { s with codeSel := v.setWidth 9 } := by
  rw [writeReg, BitVec.setWidth_eq_extractLsb' (by decide)]

theorem writeReg_freq_of_idle {s : State} (h : s.phase = .idle) (b : Byte) (v : Word) :
    writeReg (.freq b) v s = { s with freq := freqSet s.freq b v } := by
  rw [writeReg, protectedWrite_of_idle h]

/-- Settles O3: by the equations of protected and CTRL writes while busy. -/
theorem busyProtectedWritesAreDropped : Obligations.BusyProtectedWritesAreDropped := by
  unfold Obligations.BusyProtectedWritesAreDropped
  intro s v hb
  refine ⟨by rw [writeReg, protectedWrite_of_busy hb, dropWrite], by rw [writeReg, protectedWrite_of_busy hb, dropWrite],
    fun b => by rw [writeReg, protectedWrite_of_busy hb, dropWrite], writeCtrl_of_busy v hb, fun h0 h1 h2 => ?_,
    writeCtrl_of_reset v, ?_, ?_, ?_, ?_, writeReg_nodeSel v s, writeReg_codeSel v s⟩
  · rw [writeReg, writeCtrl_of_plain v h0 (.inr ⟨h1, h2⟩)]
    simp only [h1, h2, Bool.false_eq_true, if_false]
  iterate 4 rw [writeReg, writeStatus_eq]

/-- Settles O4: by the equations of protected and CTRL writes while idle. -/
theorem idleRegisterWritesTakeEffect : Obligations.IdleRegisterWritesTakeEffect := by
  unfold Obligations.IdleRegisterWritesTakeEffect
  intro s v hp
  refine ⟨by rw [writeReg, protectedWrite_of_idle hp], writeReg_nodeSel v s, writeReg_codeSel v s, fun b c => ?_,
    fun b => ?_, fun h0 => writeCtrl_of_plain v h0 (.inl hp)⟩
  · rw [writeReg_freq_of_idle hp]; exact freqAt_freqSet ..
  · rw [writeReg_freq_of_idle hp]

/-! ### Reads -/

theorem statusWord_getLsbD (s : State) (k : Nat) : (statusWord s).getLsbD k =
    (decide (k < 32) &&
      [s.busy, s.done, s.err, s.treeValid, s.codesValid, s.endSeen, s.ovr, s.biEod, s.yiEod].getD k false) :=
  wordOfBits_getLsbD _ k

/-- Settles O5: by the bits of a word made from a list, and the equation of a STATUS write. -/
theorem statusBitsAndWriteOneToClear : Obligations.StatusBitsAndWriteOneToClear := by
  unfold Obligations.StatusBitsAndWriteOneToClear
  intro s v
  refine ⟨⟨?_, ?_, ?_, ?_, ?_, ?_, ?_, ?_, ?_, fun k hk => ?_⟩, writeStatus_eq v s, rfl⟩
  · rw [← busy_eq]; exact statusWord_getLsbD s 0
  iterate 8 exact statusWord_getLsbD s _
  · rw [readReg, statusWord_getLsbD, List.getD_eq_default _ _ (by simpa using hk), Bool.and_false]

/-- A read at a register's offset is exact, or draws a free value (spec/10_state.md R43). -/
theorem regRead_offset (r : Reg) (s : State) : regRead r.offset s =
    if s.busy && r.unspecifiedWhileBusy then
      { s with seen := s.seen ++ [.value r.offset (Config.unspecifiedRead s.draws)], draws := s.draws + 1 }
    else { s with seen := s.seen ++ [.value r.offset (readReg r s)] } := by
  simp only [regRead, regAt_offset, inform]

theorem regRead_reserved {off : Offset} (h : regAt off = none) (s : State) :
    regRead off s = { s with seen := s.seen ++ [.value off 0] } := by
  simp only [regRead, h, inform]

theorem readReg_ctrl_getLsbD (s : State) (k : Nat) : (readReg .ctrl s).getLsbD k = (decide (k = 8) && s.irqEn) := by
  rw [readReg, wordOfBits_getLsbD]
  rcases Nat.lt_trichotomy k 8 with h | rfl | h
  · interval_cases k <;> rfl
  · rfl
  · rw [List.getD_eq_default _ _ h, Bool.and_false, decide_eq_false (Nat.ne_of_gt h), Bool.false_and]

/-- Settles O8: by the equation of a read at a register's offset. -/
theorem readsAreExactOrFreeDraws : Obligations.ReadsAreExactOrFreeDraws := by
  unfold Obligations.ReadsAreExactOrFreeDraws
  intro s r
  refine ⟨fun off h => regRead_reserved h s, fun h => ?_, fun hb hr => ?_, ?_,
    ⟨readReg_ctrl_getLsbD s 8, fun k hk => by rw [readReg_ctrl_getLsbD, decide_eq_false hk, Bool.false_and], rfl, rfl,
      fun _ => rfl⟩, ?_, rfl, rfl, rfl, rfl⟩
  · rw [regRead_offset, if_neg]
    rcases h with h | h <;> simp [h]
  · rw [regRead_offset, if_pos (by simp [hb, hr])]
  · cases r <;> simp [Reg.unspecifiedWhileBusy]
  · iterate 4 refine ⟨BitVec.toNat_setWidth_of_le (by decide), ?_⟩
    exact BitVec.toNat_setWidth_of_le (by decide)

/-- Bit 31 above a value of at most 31 bits. -/
theorem toNat_bit31_or {x : Word} (h : x.toNat < 2 ^ 31) : ((1#32 <<< 31) ||| x).toNat = 2 ^ 31 + x.toNat := by
  rw [BitVec.toNat_or]
  exact (Nat.shiftLeft_add_eq_or_of_lt h 1).symm

/-- An internal entry in the node view (spec/10_state.md R38): the right child above the left one. -/
theorem toNat_children (l r : Idx) :
    ((r.setWidth 32 <<< 16) ||| l.setWidth 32 : Word).toNat = r.toNat * 2 ^ 16 + l.toNat := by
  have hl : l.toNat < 2 ^ 16 := by have := l.isLt; omega
  have e : (r.setWidth 32 <<< 16 : Word).toNat = r.toNat <<< 16 := by
    have := r.isLt
    rw [BitVec.toNat_shiftLeft, BitVec.toNat_setWidth_of_le (by decide), Nat.shiftLeft_eq]
    omega
  rw [BitVec.toNat_or, e, BitVec.toNat_setWidth_of_le (by decide), ← Nat.shiftLeft_add_eq_or_of_lt hl, Nat.shiftLeft_eq]

/-- NODE_WHI and NODE_WLO together. -/
theorem weight_halves (w : Weight) :
    ((w.extractLsb' 32 8).setWidth 32).toNat * 2 ^ 32 + (w.extractLsb' 0 32).toNat = w.toNat := by
  have := w.isLt
  rw [BitVec.toNat_setWidth_of_le (by decide), BitVec.extractLsb'_toNat, BitVec.extractLsb'_toNat,
    Nat.shiftRight_eq_div_pow, Nat.shiftRight_eq_div_pow]
  omega

theorem nodeView_none {s : State} (h : s.nodes.toNat ≤ s.nodeSel.toNat) : nodeView s = none := by
  rw [nodeView, if_neg (by omega)]

theorem nodeView_some {s : State} {n : Node} (h : s.nodeSel.toNat < s.nodes.toNat) (hn : arenaAt s.arena s.nodeSel = n) :
    nodeView s = some n := by
  rw [nodeView, if_pos h, hn]

/-- The two weight registers of an entry in view. -/
theorem readReg_weight {s : State} {n : Node} (h : nodeView s = some n) :
    (readReg .nodeWhi s).toNat * 2 ^ 32 + (readReg .nodeWlo s).toNat = n.weight.toNat := by
  rw [readReg, readReg, nodeViewWeight, h]
  exact weight_halves n.weight

theorem extractLsb'_zero_eq_ofNat (v : Word) (n : Nat) : v.extractLsb' 0 n = BitVec.ofNat n (v.toNat % 2 ^ n) := by
  refine BitVec.eq_of_toNat_eq ?_
  simp

/-- Settles O9: by what the node view shows, entry by entry. -/
theorem nodeViewShowsArenaEntry : Obligations.NodeViewShowsArenaEntry := by
  unfold Obligations.NodeViewShowsArenaEntry
  intro s
  refine ⟨BitVec.toNat_setWidth_of_le (by decide), fun v r hr => ⟨?_, ?_⟩, fun h => ?_, fun sym w h hn => ?_,
    fun l r w h hn => ?_⟩
  · exact congrArg (fun i => { s with nodeSel := i }) (extractLsb'_zero_eq_ofNat v 10)
  · simp only [List.mem_cons, List.not_mem_nil, or_false] at hr
    rcases hr with rfl | rfl | rfl <;> rfl
  · simp [readReg, nodeInfo, nodeViewWeight, nodeView_none h]
  · refine ⟨?_, readReg_weight (nodeView_some h hn)⟩
    rw [readReg, nodeInfo, nodeView_some h hn]
    exact BitVec.toNat_setWidth_of_le (by decide)
  · refine ⟨?_, readReg_weight (nodeView_some h hn)⟩
    have hc := toNat_children l r
    have hl := l.isLt
    have hr := r.isLt
    rw [readReg, nodeInfo, nodeView_some h hn]
    show ((1#32 <<< 31) ||| (r.setWidth 32 <<< 16) ||| l.setWidth 32).toNat = _
    rw [BitVec.or_assoc, toNat_bit31_or (by omega), hc]
    omega

/-- Settles O10: by the bits of a word made from a list. -/
theorem codeViewShowsCodeword : Obligations.CodeViewShowsCodeword := by
  unfold Obligations.CodeViewShowsCodeword
  intro s
  refine ⟨BitVec.toNat_setWidth_of_le (by decide), fun v j => ⟨?_, rfl, rfl⟩, fun h => ?_, codeAt_above _ _,
    fun p h hp => ⟨?_, fun j i hi => ?_⟩⟩
  · exact congrArg (fun i => { s with codeSel := i }) (extractLsb'_zero_eq_ofNat v 9)
  · simp [readReg, codeLen, codeBits, h]
  · have e : ((BitVec.ofNat 9 p.length).setWidth 32).toNat = p.length := by
      rw [BitVec.toNat_setWidth_of_le (by decide), BitVec.toNat_ofNat]
      omega
    simp only [readReg, codeLen, h]
    rw [toNat_bit31_or (by omega), e]
  · simp only [readReg, codeBits, h]
    rw [wordOfBits_getLsbD, decide_eq_true hi, Bool.true_and, List.getD_eq_getElem?_getD, List.getElem?_drop,
      List.getD_eq_getElem?_getD]

/-! ### The register map -/

theorem lowReg_eq_none {n : Nat} : lowReg n = none ↔ 28 ≤ n := by
  constructor
  · intro h
    by_contra hn
    interval_cases n <;> cases h
  · intro h
    unfold lowReg
    split
    case h_29 => rfl
    all_goals omega

theorem offset_of_lowReg {n : Nat} {r : Reg} (h : lowReg n = some r) : r.offset.toNat = 4 * n := by
  unfold lowReg at h
  split at h <;> cases h <;> rfl

theorem regAt_eq_none {off : Offset} (h : off.toNat % 4 = 0) :
    regAt off = none ↔ (0x070 ≤ off.toNat ∧ off.toNat ≤ 0x3FC) ∨ (0x800 ≤ off.toNat ∧ off.toNat ≤ 0xFFC) := by
  have hlt := off.isLt
  unfold regAt
  split
  · rw [lowReg_eq_none]; omega
  · split
    · simp; omega
    · simp; omega

/-- An aligned offset holds the register that stands there, and no other (spec/10_state.md R20). -/
theorem offset_of_regAt {off : Offset} {r : Reg} (ha : off.toNat % 4 = 0) (h : regAt off = some r) : r.offset = off := by
  refine BitVec.eq_of_toNat_eq ?_
  unfold regAt at h
  split at h
  · rw [offset_of_lowReg h]; omega
  · split at h
    · cases h
      simp only [Reg.offset, BitVec.toNat_ofNat]
      omega
    · cases h

theorem accessDefined_iff {off : Offset} {bytes : Nat} : accessDefined off bytes = true ↔ bytes = 4 ∧ off.toNat % 4 = 0 := by
  simp [accessDefined]

/-- Settles O6: the map by `regAt_offset` and its converse, the accesses by `hostStep_regWrite` and the reads' equations. -/
theorem registerMapAndReservedOffsets : Obligations.RegisterMapAndReservedOffsets := by
  unfold Obligations.RegisterMapAndReservedOffsets
  refine ⟨⟨⟨rfl, rfl, rfl, rfl, rfl, rfl, rfl, rfl, rfl, rfl, rfl, rfl, rfl, rfl, rfl, rfl⟩,
      fun j => regAt_offset (.codeBits j), ⟨rfl, rfl, rfl, rfl⟩, fun b => regAt_offset (.freq b)⟩,
    fun r => ⟨regAt_offset r, offset_aligned r⟩, fun off ha => ⟨regAt_eq_none ha, fun r => offset_of_regAt ha⟩,
    fun r v s => ⟨?_, hostStep_regWrite r v s⟩, fun off v s hn ha => ?_, fun v s j r hr => ?_, fun _ => rfl⟩
  · rw [hostStep, if_pos (accessDefined_iff.mpr ⟨rfl, offset_aligned r⟩)]
  · have hd : accessDefined off 4 = true := accessDefined_iff.mpr ⟨rfl, ha⟩
    exact ⟨by rw [hostStep, if_pos hd, regRead_reserved hn], by rw [hostStep, if_pos hd, regWrite, hn]⟩
  · simp only [List.mem_cons, List.not_mem_nil, or_false] at hr
    rcases hr with rfl | rfl | rfl | rfl | rfl | rfl | rfl | rfl | rfl | rfl | rfl | rfl | rfl | rfl | rfl <;> rfl

end Sys2Proof.Machine

/-! ## A host step and a step, by all that they can do -/

namespace Sys2Proof.Machine

/-- What the host step `a` does at `s`. -/
inductive HostEffect (s : State) : HostAction → State → Prop
  | reads (off : Offset) (told : List Seen) (d : Nat) : HostEffect s (.regRead off 4) { s with seen := told, draws := d }
  | writesNothing (off : Offset) (v : Word) : HostEffect s (.regWrite off 4 v) s
  | writes {r : Reg} {v : Word} {t : State} (h : WriteEffect s v r t) : HostEffect s (.regWrite r.offset 4 v) t
  | serves {a : HostAction} {bi : BitSeq} {bie : Bool} {yi : List Byte} {yie : Bool} {bo : BitSeq} {yo : List Byte}
      {told : List Seen} (hbi : s.biBits.length ≤ s.depths.bi → bi.length ≤ s.depths.bi)
      (hyi : s.yiBytes.length ≤ s.depths.yi → yi.length ≤ s.depths.yi) (hbo : bo.length ≤ s.boBits.length)
      (hyo : yo.length ≤ s.yoBytes.length) :
      HostEffect s a { s with biBits := bi, biEod := bie, yiBytes := yi, yiEod := yie, boBits := bo, yoBytes := yo,
                              seen := told }
  | resets : HostEffect s .hardReset (resetAll s)

/-- All that a host step can do. -/
theorem hostStep_effect {a : HostAction} {s t : State} (h : hostStep a s = .next t) : HostEffect s a t := by
  cases a with
  | regRead off bytes =>
    rw [hostStep] at h
    split at h
    · next hd =>
      obtain ⟨rfl, -⟩ := accessDefined_iff.mp hd
      cases h
      obtain ⟨x, d, e⟩ := regRead_eq off s
      rw [e]
      exact .reads off _ d
    · cases h
  | regWrite off bytes v =>
    rw [hostStep] at h
    split at h
    · next hd =>
      obtain ⟨rfl, ha⟩ := accessDefined_iff.mp hd
      cases h
      unfold regWrite
      split
      · exact .writesNothing off v
      · next r hr =>
        rw [← offset_of_regAt ha hr]
        exact .writes (writeReg_effect r v s)
    · cases h
  | pushBit b =>
    cases h
    unfold pushBit
    split
    · next hb => exact .serves (fun _ => by simpa using hb.2) id le_rfl le_rfl
    · exact .serves id id le_rfl le_rfl
  | pushBiEod => cases h; unfold pushBiEod; split <;> exact .serves id id le_rfl le_rfl
  | pushByte b =>
    cases h
    unfold pushByte
    split
    · next hb => exact .serves id (fun _ => by simpa using hb.2) le_rfl le_rfl
    · exact .serves id id le_rfl le_rfl
  | pushYiEod => cases h; unfold pushYiEod; split <;> exact .serves id id le_rfl le_rfl
  | popBit =>
    cases h
    unfold popBit
    split
    · next hb => exact .serves id id (by simp [hb]) le_rfl
    · exact .serves id id le_rfl le_rfl
  | popByte =>
    cases h
    unfold popByte
    split
    · next hb => exact .serves id id le_rfl (by simp [hb])
    · exact .serves id id le_rfl le_rfl
  | hardReset => cases h; exact .resets

/-- What an engine's turn does at `s`, before the turn is taken off the order. -/
inductive EngineEffect (s : State) : State → Prop
  | nothing : EngineEffect s s
  | runs {w : Word} {c : Cont} {i : Instr} (hp : s.phase = .busy w c) (hd : decode w = .command i) :
      EngineEffect s (repeatStep s.grant (commandStep i) s)
  | raisesIllegal {w : Word} {c : Cont} (hp : s.phase = .busy w c) : EngineEffect s (raiseIllegal w s)

theorem illegalStep_run (w : Word) (k : Nat) (s : State) :
    repeatStep k (illegalStep w) s = s ∨ repeatStep k (illegalStep w) s = raiseIllegal w s := by
  rcases k with _ | k
  · exact .inl rfl
  · rcases illegalStep_cases w s with ⟨_, -, h⟩ | h
    · have idle : illegalStep w (raiseIllegal w s) = raiseIllegal w s := rfl
      exact .inr (by rw [repeatStep, h, repeatStep_fixed idle])
    · exact .inl (repeatStep_fixed h _)

/-- What a step does at `s`: a host step once its turn is taken, or the engine's turn. -/
inductive StepEffect (s : State) : State → Prop
  | host {a : HostAction} {rest : List Turn} {t : State} (ho : s.order = .host a :: rest)
      (h : HostEffect { s with turns := rest } a t) : StepEffect s t
  | engine {u : State} (ho : ∀ a rest, s.order ≠ .host a :: rest) (h : EngineEffect s u) : StepEffect s (dropTurn u)

theorem step_effect {s t : State} (h : step s = .next t) : StepEffect s t := by
  rcases step_next_cases h with ⟨a, rest, ho, hh⟩ | ⟨ho, ⟨-, rfl⟩ | ⟨w, c, i, u, hp, hd, he, rfl⟩ | ⟨w, c, hp, -, rfl⟩⟩
  · exact .host ho (hostStep_effect hh)
  · exact .engine ho .nothing
  · obtain ⟨-, rfl⟩ := exec_next.mp he
    exact .engine ho (.runs hp hd)
  · rcases illegalStep_run w s.grant s with e | e <;> rw [e]
    · exact .engine ho .nothing
    · exact .engine ho (.raisesIllegal hp)

/-- What holds whatever the order of steps is, and is kept by the host steps, by the engine steps and by an illegal word's
error, is kept by every step. -/
theorem step_keeps {P : State → Prop} (hturns : ∀ {s : State} (ts : List Turn), P s → P { s with turns := ts })
    (hhost : ∀ {s a t}, HostEffect s a t → P s → P t)
    (hengine : ∀ {s : State} {i : Instr}, s.executes i → P s → P (commandStep i s))
    (hillegal : ∀ {s : State} (w : Word), P s → P (raiseIllegal w s)) {s t : State} (hs : P s) (h : step s = .next t) :
    P t := by
  cases step_effect h with
  | host _ he => exact hhost he (hturns _ hs)
  | engine _ he =>
    refine hturns _ ?_
    cases he with
    | nothing => exact hs
    | runs hp hd =>
      exact (repeatStep_keeps (P := fun u => u.executes _ ∧ P u)
        (fun u hu => ⟨commandStep_executes hu.1, hengine hu.1 hu.2⟩) _ ⟨executes_of_busy hp hd, hs⟩).2
    | raisesIllegal => exact hillegal _ hs

/-! ### Reset -/

/-- The table holds whatever the model's own fields are. -/
theorem resetTable_powerOn (d : Depths) (ts cy : List Turn) (told : List Seen) (n : Nat) :
    ResetTable { State.powerOn d with turns := ts, cycle := cy, seen := told, draws := n } := by
  have view : nodeView { State.powerOn d with turns := ts, cycle := cy, seen := told, draws := n } = none :=
    nodeView_none le_rfl
  have code (x : Symbol) : codeAt (State.powerOn d).code x = none := codeAt_codeNone x
  have status : wordOfBits (List.replicate 9 false) = 0 := by decide
  refine ⟨rfl, rfl, rfl, ⟨rfl, rfl, rfl, rfl, rfl, rfl⟩, status, ⟨rfl, rfl⟩, rfl, ⟨rfl, rfl, rfl⟩, ⟨rfl, rfl⟩, ?_, ?_,
    ⟨rfl, rfl, rfl, rfl⟩, freqAt_freqZero, code, ⟨rfl, rfl, rfl, rfl⟩, ⟨rfl, rfl⟩, rfl⟩
  · simp [readReg, nodeInfo, nodeViewWeight, view]
  · simp [readReg, codeLen, codeBits, code]

/-- Settles O1: both resets are `resetAll`, and its state meets the table. -/
theorem resetGivesTableValues : Obligations.ResetGivesTableValues := by
  unfold Obligations.ResetGivesTableValues
  refine ⟨fun d => resetTable_powerOn d .., resetTable_powerOn .., fun s a rest ho ha => ?_⟩
  have e : step s = .next (resetAll { s with turns := rest }) := by
    rw [step_host ho]
    rcases ha with rfl | ⟨v, hv, rfl⟩
    · rfl
    · rw [hostStep_regWrite, writeReg, writeCtrl_of_reset v hv]
  exact ⟨_, e, resetTable_powerOn .., rfl, rfl, rfl, rfl, rfl⟩

/-- Settles O18: by the outcomes of `exec`. -/
theorem execFaultsWhenNotRunning : Obligations.ExecFaultsWhenNotRunning := by
  unfold Obligations.ExecFaultsWhenNotRunning
  intro i s
  have faults (h : s.phase.runs i = false) : exec i s = .fault .notRunning := by
    rw [exec_eq]; exact engineRun_fault.mpr ⟨h, rfl⟩
  refine ⟨fun hp => faults (by rw [hp]; rfl), fun w c hp hc => faults (by rw [hp]; exact hc), fun w c hp hc => ?_⟩
  exact ⟨_, exec_next.mpr ⟨by rw [hp]; exact hc, rfl⟩⟩

end Sys2Proof.Machine

/-! ## The invariants of the control state and of the queues -/

namespace Sys2Proof.Machine

/-! ### The control invariant -/

theorem busyInv_of_idle {s : State} (h : s.phase = .idle) : busyInv s := by simp only [busyInv, h]

theorem busyInv_iff {s : State} {w : Word} {c : Cont} (h : s.phase = .busy w c) :
    busyInv s ↔ s.done = false ∧ s.err = false ∧ s.endSeen = false ∧ s.cmdLast = w ∧ contFits w c = true ∧
      (replacesTree w = true → s.treeValid = false) ∧ c.ready s := by
  simp only [busyInv, h, Cont.ready_iff]

theorem ready_of_busyInv {s : State} (h : busyInv s) : s.ready := by
  intro w c hp
  obtain ⟨-, -, -, -, -, -, hc⟩ := (busyInv_iff hp).mp h
  exact hc

theorem Cont.ready_mono {c : Cont} {s t : State} (h : c.ready s) (ht : s.treeValid = true → t.treeValid = true)
    (hc : s.codesValid = true → t.codesValid = true) : c.ready t := by
  cases c with
  | enc | encByte => exact hc h
  | dec | ser => exact ht h
  | _ => trivial

/-- What of a change of the state while busy the clause of the busy engine allows. -/
theorem busyInv_mono {s t : State} (h : busyInv s) (hp : t.phase = s.phase) (hd : s.done = false → t.done = false)
    (he : s.err = false → t.err = false) (hs : t.endSeen = s.endSeen) (hl : t.cmdLast = s.cmdLast)
    (ht : t.treeValid = s.treeValid) (hc : s.codesValid = true → t.codesValid = true) : busyInv t := by
  rcases hps : s.phase with _ | ⟨w, c⟩
  · exact busyInv_of_idle (hp.trans hps)
  · obtain ⟨kd, ke, ks, kl, kf, kr, kc⟩ := (busyInv_iff hps).mp h
    exact (busyInv_iff (hp.trans hps)).mpr ⟨hd kd, he ke, hs.trans ks, hl.trans kl, kf, fun hw => ht.trans (kr hw),
      Cont.ready_mono kc ht.trans hc⟩

theorem contFits_start (w : Word) : contFits w .start = true := by
  unfold contFits
  split <;> simp

theorem contFits_iff {w : Word} {c : Cont} {i : Instr} (h : decode w = .command i) :
    contFits w c = true ↔ c.belongsTo i = true := by simp only [contFits, h]

theorem replacesTree_iff {w : Word} :
    replacesTree w = true ↔ decode w = .command .build ∨ decode w = .command .deser := by simp [replacesTree]

/-- Acceptance discards the tree for the words of BUILD and DESER, and for no other (spec/30_encoding.md R90). -/
theorem accept_cases (v : Word) (s : State) :
    (replacesTree v = true ∧ accept v s = { discardTree (acceptFlags s) with cmdLast := v, phase := .busy v .start }) ∨
      (replacesTree v = false ∧ accept v s = { acceptFlags s with cmdLast := v, phase := .busy v .start }) := by
  by_cases h : decode v = .command .build ∨ decode v = .command .deser
  · exact .inl ⟨replacesTree_iff.mpr h, accept_tree h s⟩
  · rw [← replacesTree_iff, Bool.not_eq_true] at h
    refine .inr ⟨h, accept_other (fun e => ?_) (fun e => ?_) s⟩ <;> simp [replacesTree, e] at h

/-- While a BUILD or a DESER runs there is no tree (spec/10_state.md R29). -/
theorem treeValid_of_replacing {s : State} {w : Word} {c : Cont} {i : Instr} (h : ControlInv s) (hp : s.phase = .busy w c)
    (hd : decode w = .command i) (hi : i = .build ∨ i = .deser) : s.treeValid = false := by
  obtain ⟨-, -, -, -, -, hr, -⟩ := (busyInv_iff hp).mp h.1
  refine hr (replacesTree_iff.mpr ?_)
  rcases hi with rfl | rfl
  exacts [.inl hd, .inr hd]

theorem controlInv_powerOn (d : Depths) : ControlInv (State.powerOn d) :=
  ⟨trivial, fun _ => ⟨rfl, rfl⟩, nofun, nofun, fun _ => rfl, fun _ => ⟨rfl, rfl, rfl⟩⟩

theorem number_bounds (e : ErrCode) : 1 ≤ e.number ∧ e.number ≤ 9 := by cases e <;> decide

theorem controlInv_accept {s : State} (v : Word) (h : ControlInv s) : ControlInv (accept v s) := by
  obtain ⟨-, -, -, hct, hcc, htr⟩ := h
  rcases accept_cases v s with ⟨-, e⟩ | ⟨hr, e⟩ <;> rw [e]
  · exact ⟨(busyInv_iff rfl).mpr ⟨rfl, rfl, rfl, rfl, contFits_start v, fun _ => rfl, trivial⟩, fun _ => ⟨rfl, rfl⟩, nofun,
      nofun, fun _ => rfl, fun _ => ⟨rfl, rfl, rfl⟩⟩
  · exact ⟨(busyInv_iff rfl).mpr ⟨rfl, rfl, rfl, rfl, contFits_start v, fun k => by simp [hr] at k, trivial⟩,
      fun _ => ⟨rfl, rfl⟩, nofun, hct, hcc, htr⟩

/-- What an end in an error leaves. -/
theorem controlInv_raiseError {s : State} (e : ErrCode) (x : BitVec 9) (h : ControlInv s) :
    ControlInv (raiseError e x s) := by
  obtain ⟨-, -, -, hct, hcc, htr⟩ := h
  exact ⟨trivial, nofun, fun _ => number_bounds e, hct, hcc, htr⟩

/-- A write to STATUS clears ERRCODE and ERRINFO with ERR. -/
theorem controlInv_writeStatus {s : State} (v : Word) (h : ControlInv s) : ControlInv (writeStatus v s) := by
  rw [writeStatus_eq]
  obtain ⟨hb, he0, he1, hct, hcc, htr⟩ := h
  refine ⟨busyInv_mono hb rfl (fun h => by simp [h]) (fun h => by simp [h]) rfl rfl rfl id, ?_, ?_, hct, hcc, htr⟩
  · cases v.getLsbD 2 with
    | true => exact fun _ => ⟨rfl, rfl⟩
    | false => simpa using he0
  · cases v.getLsbD 2 with
    | true => simp
    | false => simpa using he1

theorem HostEffect.controlInv {s t : State} {a : HostAction} (he : HostEffect s a t) (h : ControlInv s) : ControlInv t := by
  cases he with
  | reads | writesNothing | serves => exact h
  | resets => exact controlInv_powerOn s.depths
  | writes hw =>
    cases hw with
    | resets => exact controlInv_powerOn s.depths
    | accepts => exact controlInv_accept _ h
    | clears => rw [← writeStatus_eq]; exact controlInv_writeStatus _ h
    | _ => exact h

theorem Prepares.controlInv {i : Instr} {s m : State} (hm : Prepares i s m) (h : ControlInv s) : ControlInv m := by
  cases hm with
  | transfers k => obtain ⟨_, _, _, _, _, _, _, _, rfl⟩ := k.ports; exact h
  | storesNode => exact h
  | buildsCodes hi ht hc =>
    obtain ⟨hb, he0, he1, -, -, htr⟩ := h
    exact ⟨busyInv_mono hb rfl id id rfl rfl rfl fun _ => rfl, he0, he1, fun _ => ht, nofun, htr⟩

/-- An engine step of the accepted command keeps the control invariant. -/
theorem commandStep_controlInv {i : Instr} {s : State} (hx : s.executes i) (h : ControlInv s) :
    ControlInv (commandStep i s) := by
  rcases hp : s.phase with _ | ⟨w, c⟩
  · rw [commandStep_idle hp]; exact h
  obtain ⟨m, hm, hc⟩ := commandStep_does i s
  have hpm : m.phase = .busy w c := hm.keepsFlags.phase.trans hp
  have hready := ready_of_busyInv h.1
  have k := hm.controlInv h
  have kError := fun e x => controlInv_raiseError e x k
  obtain ⟨hb, he0, he1, hct, hcc, htr⟩ := k
  generalize commandStep i s = t at hc
  cases hc with
  | stays => exact ⟨hb, he0, he1, hct, hcc, htr⟩
  | goesTo hc' hr =>
    rw [goTo_busy hpm]
    obtain ⟨hd, he, hs, hl, -, htv, -⟩ := (busyInv_iff hpm).mp hb
    exact ⟨(busyInv_iff rfl).mpr ⟨hd, he, hs, hl, (contFits_iff (hx w c hp)).mpr hc', htv, hr hready⟩, he0, he1, hct, hcc,
      htr⟩
  | completes | clearsFreq | endsDec => exact ⟨trivial, he0, he1, hct, hcc, htr⟩
  | raises e x => exact kError e x
  | storesTree => exact ⟨trivial, he0, he1, fun _ => rfl, hcc, nofun⟩
  | failsDeser _ e x =>
    obtain ⟨-, ke0, ke1, -⟩ := kError e x
    exact ⟨trivial, ke0, ke1, hct, hcc, fun _ => ⟨rfl, rfl, rfl⟩⟩
  | endsDeser => exact ⟨trivial, he0, he1, fun _ => rfl, hcc, nofun⟩

/-- Settles O58: host steps, engine steps and an illegal word's error keep the control invariant. -/
theorem stepKeepsControlInv : Obligations.StepKeepsControlInv := by
  unfold Obligations.StepKeepsControlInv
  exact fun s t => step_keeps (fun _ h => h) HostEffect.controlInv commandStep_controlInv
    fun _ => controlInv_raiseError _ _

/-! ### The queue invariant -/

theorem queueInv_powerOn {d : Depths} (hbi : 1 ≤ d.bi) (hyi : 1 ≤ d.yi) (hbo : 1 ≤ d.bo) (hyo : 1 ≤ d.yo) :
    QueueInv (State.powerOn d) :=
  ⟨Nat.zero_le _, Nat.zero_le _, Nat.zero_le _, Nat.zero_le _, hbi, hyi, hbo, hyo⟩

theorem queueInv_resetAll {s : State} (h : QueueInv s) : QueueInv (resetAll s) := by
  obtain ⟨-, -, -, -, hbi, hyi, hbo, hyo⟩ := h
  exact queueInv_powerOn hbi hyi hbo hyo

theorem HostEffect.queueInv {s t : State} {a : HostAction} (he : HostEffect s a t) (h : QueueInv s) : QueueInv t := by
  have hreset := queueInv_resetAll h
  have ⟨hbi, hyi, hbo, hyo, hcap⟩ := h
  cases he with
  | reads | writesNothing => exact h
  | serves kbi kyi kbo kyo => exact ⟨kbi hbi, kyi hyi, kbo.trans hbo, kyo.trans hyo, hcap⟩
  | resets => exact hreset
  | writes hw =>
    cases hw with
    | resets => exact hreset
    | setsCtrl =>
      refine ⟨?_, ?_, hbo, hyo, hcap⟩ <;> dsimp only <;> split
      exacts [Nat.zero_le _, hbi, Nat.zero_le _, hyi]
    | accepts =>
      rcases accept_cases _ s with ⟨-, e⟩ | ⟨-, e⟩ <;> rw [e] <;> exact h
    | _ => exact h

theorem Transfer.queueInv {i : Instr} {s m : State} (hm : Transfer i s m) (h : QueueInv s) : QueueInv m := by
  have hm' := hm.portsAdvance
  obtain ⟨hbi, hyi, hbo, hyo, hcap⟩ := h
  cases hm with
  | none => exact ⟨hbi, hyi, hbo, hyo, hcap⟩
  | readBit _ h =>
    obtain ⟨rest, hb, rfl⟩ := readBit_item.mp h
    exact ⟨hm'.bi.length_le.trans hbi, hyi, hbo, hyo, hcap⟩
  | readByte _ h =>
    obtain ⟨rest, hb, rfl⟩ := readByte_item.mp h
    exact ⟨hbi, hm'.yi.length_le.trans hyi, hbo, hyo, hcap⟩
  | writeBit _ h =>
    obtain ⟨hroom, rfl⟩ := writeBit_some.mp h
    exact ⟨hbi, hyi, by simpa using hroom, hyo, hcap⟩
  | writeByte _ h =>
    obtain ⟨hroom, rfl⟩ := writeByte_some.mp h
    exact ⟨hbi, hyi, hbo, by simpa using hroom, hcap⟩

theorem commandStep_queueInv (i : Instr) {s : State} (h : QueueInv s) : QueueInv (commandStep i s) := by
  obtain ⟨m, hm, hown⟩ := commandStep_acts i s
  rw [hown]
  exact hm.queueInv h

/-- Settles O59: a push is accepted and an item written only where there is room. -/
theorem stepKeepsQueueInv : Obligations.StepKeepsQueueInv := by
  unfold Obligations.StepKeepsQueueInv
  exact fun s t => step_keeps (fun _ h => h) HostEffect.queueInv (fun _ => commandStep_queueInv _) fun _ h => h

end Sys2Proof.Machine

/-! ## The tree, the code table and a DESER in progress -/

namespace Sys2Proof.Machine

/-! ### BUILD's tree -/

/-- BUILD stores a tree of R51 (spec/40_tree_build.md R128): the one shape left in the queue after its merges. -/
theorem storeTree_treeIs (s : State) : ∃ T : Shape, (storeTree s).treeIs T := by
  obtain ⟨e, hq, hinv, hlen, -⟩ := buildTree_facts s.freq
  obtain ⟨ts, hts, hperm, hsyms⟩ := hinv.forest
  obtain ⟨T, rfl⟩ : ∃ T, ts = [T] := List.length_eq_one_iff.mp hts.length_eq.symm
  have hheld : heldIn (buildTree s.freq).1 e.idx.toNat T := (List.forall₂_cons.mp hts).1
  simp only [List.zip_cons_cons, List.zip_nil_left, List.flatMap_cons, List.flatMap_nil, List.append_nil] at hperm hsyms
  have hcap : (buildTree s.freq).1.length ≤ 513 := Nat.le_of_succ_le_succ hinv.len
  have hleaves : (buildLeaves s.freq).length = (leafSymbols s.freq).length := by rw [buildLeaves_eq, List.length_map]
  have hsize := leafSymbols_length_le s.freq
  have hroot : (storeTree s).root = e.idx := by show rootOf (buildTree s.freq).2 = _; rw [hq]; rfl
  have hnodes : (storeTree s).nodes.toNat = (buildTree s.freq).1.length := by
    rw [storeTree_nodes, BitVec.toNat_ofNat]; omega
  obtain ⟨hat, hentries⟩ := heldAt_of_heldIn (a := (storeTree s).arena) (fun k hk => by
    rw [storeTree_arena, arenaStore_getElem?, if_pos ⟨Nat.zero_le k, by omega, Nat.lt_of_lt_of_le hk hcap⟩,
      Nat.sub_zero]) hheld
  refine ⟨T, by rw [hroot]; exact hat, ?_, by rw [hnodes]; exact hcap, ?_, fun x hx => ?_⟩
  · rw [hroot, hentries, hnodes]; exact hperm
  · rw [storeTree_leaves, BitVec.toNat_ofNat, Shape.leafCount, hsyms.length_eq, hleaves]; omega
  · exact leafSymbols_le s.freq x (hsyms.mem_iff.mp hx)

/-! ### The position of a DESER -/

/-- The clause of `DeserInv` for one position. -/
def deserAt (a : Arena) (n lv : Idx) (pos : DeserPos) (stack : List DeserFrame) : Prop :=
  n.toNat ≤ Config.nodeCap ∧
    match pos with
    | .flag => deserPending a n.toNat lv.toNat stack
    | .field i _ left => n.toNat = i.toNat + 1 ∧ left ≤ 9 ∧ deserPending a i.toNat lv.toNat stack
    | .ret i => ∃ (t : Shape) (lv' : Nat), deserDone a i.toNat t ∧ n.toNat = i.toNat + t.count ∧
        lv.toNat = lv' + t.leafCount ∧ deserPending a i.toNat lv' stack

/-- `DeserInv` says `deserAt` of the position of the engine. -/
theorem deserInv_iff {s : State} : DeserInv s ↔
    ∀ w n lv pos stack, s.phase = .busy w (.deser n lv pos stack) → deserAt s.arena n lv pos stack := by
  unfold DeserInv deserAt
  exact ⟨fun h w n lv pos stack hp => by have := h w n lv pos stack hp; cases pos <;> exact this,
    fun h w n lv pos stack hp => by have := h w n lv pos stack hp; cases pos <;> exact this⟩

theorem deserInv_of_idle {s : State} (h : s.phase = .idle) : DeserInv s := by
  intro w n lv pos stack hp
  cases h.symm.trans hp

/-- Going to a position of DESER. -/
theorem deserInv_goTo {s : State} {n lv : Idx} {pos : DeserPos} {stack : List DeserFrame}
    (h : deserAt s.arena n lv pos stack) : DeserInv (goTo (.deser n lv pos stack) s) := by
  rw [deserInv_iff]
  intro w n' lv' pos' stack' hp
  obtain ⟨e, -⟩ := busy_goTo hp
  cases e
  exact h

/-- Each subtree read has a leaf for each count and no more leaves than entries. -/
theorem deserPending_le {a : Arena} {stack : List DeserFrame} {start lv : Nat} (h : deserPending a start lv stack) :
    lv ≤ start := by
  induction stack generalizing start lv with
  | nil => obtain ⟨rfl, rfl⟩ := h; exact le_rfl
  | cons f rest ih =>
    cases f with
    | inLeft p =>
      obtain ⟨rfl, h⟩ := h
      exact (ih h).trans (Nat.le_succ _)
    | inRight p l =>
      obtain ⟨-, t, lv', -, rfl, rfl, h⟩ := h
      have := ih h
      have := t.leafCount_le
      omega

theorem deserDone_congr {a b : Arena} {i : Nat} {t : Shape} (h : deserDone a i t)
    (hc : ∀ k, i ≤ k → k < i + t.count → b[k]? = a[k]?) : deserDone b i t :=
  ⟨arenaBlock_congr h.1 (by rw [Shape.preorder_length]; exact hc), h.2⟩

/-- The pending nodes rest on the entries below the current subtree alone. -/
theorem deserPending_congr {a b : Arena} {stack : List DeserFrame} {start lv : Nat} (h : deserPending a start lv stack)
    (hc : ∀ k < start, b[k]? = a[k]?) : deserPending b start lv stack := by
  induction stack generalizing start lv with
  | nil => exact h
  | cons f rest ih =>
    cases f with
    | inLeft p =>
      obtain ⟨rfl, h⟩ := h
      exact ⟨rfl, ih h fun k hk => hc k (Nat.lt_succ_of_lt hk)⟩
    | inRight p l =>
      obtain ⟨hl, t, lv', ht, rfl, rfl, h⟩ := h
      exact ⟨hl, t, lv', deserDone_congr ht fun k _ hk => hc k hk, rfl, rfl, ih h fun k hk => hc k (by omega)⟩

theorem arenaSet_getElem?_of_ne {a : Arena} {i : Idx} {n : Node} {k : Nat} (h : k ≠ i.toNat) :
    (arenaSet a i n)[k]? = a[k]? := by
  rw [arenaSet, Vector.getElem?_setIfInBounds, if_neg (Ne.symm h)]

theorem arenaSet_getElem?_self {a : Arena} {i : Idx} {n : Node} (h : i.toNat < Config.nodeCap) :
    (arenaSet a i n)[i.toNat]? = some n := by
  rw [arenaSet, Vector.getElem?_setIfInBounds, if_pos rfl, if_pos h]

/-- A leaf that has just been stored. -/
theorem deserDone_leaf {a : Arena} {i : Idx} {v : Symbol} (hi : i.toNat < Config.nodeCap) (hv : v ≤ Config.endSymbol) :
    deserDone (arenaSet a i (.leaf v 0)) i.toNat (.leaf v) := by
  refine ⟨fun k hk => ?_, by simpa [Shape.symbols] using hv⟩
  obtain rfl : k = 0 := by simpa [Shape.preorder] using hk
  exact arenaSet_getElem?_self hi

/-- An internal node that has just been stored over its two subtrees. -/
theorem deserDone_node {a : Arena} {p l i : Idx} {t u : Shape} (hp : p.toNat < Config.nodeCap)
    (hl : l.toNat = p.toNat + 1) (hi : i.toNat = p.toNat + 1 + t.count) (ht : deserDone a (p.toNat + 1) t)
    (hu : deserDone a i.toNat u) : deserDone (arenaSet a p (.internal l i 0)) p.toNat (.node t u) := by
  have other (k : Nat) (hk : p.toNat < k) : (arenaSet a p (.internal l i 0))[k]? = a[k]? :=
    arenaSet_getElem?_of_ne (Nat.ne_of_gt hk)
  obtain ⟨hbt, hst⟩ := deserDone_congr ht fun k hk _ => other k hk
  obtain ⟨hbu, hsu⟩ := deserDone_congr hu fun k hk _ => other k (by omega)
  rw [hi] at hbu
  refine ⟨fun k hk => ?_, by simpa [Shape.symbols, or_imp, forall_and] using ⟨hst, hsu⟩⟩
  rcases k with _ | k
  · have el : BitVec.ofNat 10 (p.toNat + 1) = l := by rw [← hl, BitVec.ofNat_toNat, BitVec.setWidth_eq]
    have ei : BitVec.ofNat 10 (p.toNat + 1 + t.count) = i := by rw [← hi, BitVec.ofNat_toNat, BitVec.setWidth_eq]
    simp only [Shape.preorder, List.getElem_cons_zero, el, ei]
    exact arenaSet_getElem?_self hp
  · have hk' : k < (t.preorder (p.toNat + 1) ++ u.preorder (p.toNat + 1 + t.count)).length := by
      simpa [Shape.preorder] using hk
    simp only [Shape.preorder, List.getElem_cons_succ]
    rw [List.getElem_append]
    split
    · next h => rw [← hbt k h, Nat.add_right_comm, Nat.add_assoc]
    · next h =>
      rw [Shape.preorder_length] at h
      have := hbu (k - t.count) (by simp [Shape.preorder_length] at hk' ⊢; omega)
      simp only [Shape.preorder_length]
      rw [← this]
      congr 1
      omega

/-! ### The steps of DESER -/

theorem deserFlag_deserInv {s : State} {n lv : Idx} {stack : List DeserFrame} (h : deserAt s.arena n lv .flag stack)
    (hs : DeserInv s) : DeserInv (deserFlag n lv stack s) := by
  obtain ⟨hn, hst⟩ := h
  have hn : n.toNat ≤ 513 := hn
  unfold deserFlag
  split
  · exact deserInv_of_idle rfl
  · next hne =>
    have hlt : n.toNat < 513 := by
      refine Nat.lt_of_le_of_ne hn fun e => hne (BitVec.eq_of_toNat_eq e)
    have e : (n + 1).toNat = n.toNat + 1 := by rw [BitVec.toNat_add]; simp; omega
    split
    · next hr =>
      obtain ⟨_, -, rfl⟩ := readBit_item.mp hr
      exact deserInv_goTo ⟨by rw [e]; exact hlt, e, le_rfl, hst⟩
    · next hr =>
      obtain ⟨_, -, rfl⟩ := readBit_item.mp hr
      exact deserInv_goTo ⟨by rw [e]; exact hlt, e, hst⟩
    · exact deserInv_of_idle rfl
    · exact hs

theorem deserField_deserInv {s : State} {n lv i : Idx} {v : Symbol} {k : Nat} {stack : List DeserFrame}
    (h : deserAt s.arena n lv (.field i v (k + 1)) stack) (hs : DeserInv s) :
    DeserInv (deserField n lv i v k stack s) := by
  obtain ⟨hn, he, hk, hst⟩ := h
  unfold deserField
  split
  · next hr =>
    obtain ⟨_, -, rfl⟩ := readBit_item.mp hr
    exact deserInv_goTo ⟨hn, he, Nat.le_of_succ_le hk, hst⟩
  · exact deserInv_of_idle rfl
  · exact hs

theorem deserLeaf_deserInv {s : State} {n lv i : Idx} {v : Symbol} {stack : List DeserFrame}
    (h : deserAt s.arena n lv (.field i v 0) stack) : DeserInv (deserLeaf n lv i v stack s) := by
  obtain ⟨hn, he, -, hst⟩ := h
  have hn' : n.toNat ≤ 513 := hn
  have hi : i.toNat < 513 := by omega
  unfold deserLeaf
  split
  · exact deserInv_of_idle rfl
  · next hv =>
    have hlv := deserPending_le hst
    have e : (lv + 1).toNat = lv.toNat + 1 := by rw [BitVec.toNat_add]; simp; omega
    exact deserInv_goTo ⟨hn, .leaf v, lv.toNat, deserDone_leaf hi (BitVec.not_lt.mp hv), he, e,
      deserPending_congr hst fun k hk => arenaSet_getElem?_of_ne (Nat.ne_of_lt hk)⟩

theorem deserReturn_deserInv {s : State} {n lv i : Idx} {stack : List DeserFrame}
    (h : deserAt s.arena n lv (.ret i) stack) : DeserInv (deserReturn n lv i stack s) := by
  obtain ⟨hn, u, lv', hu, hc, hl, hst⟩ := h
  unfold deserReturn
  split
  · exact deserInv_of_idle rfl
  · next p rest =>
    obtain ⟨hi, hst⟩ := hst
    exact deserInv_goTo ⟨hn, hi, u, lv', hi ▸ hu, hi ▸ hc, hl, hst⟩
  · next p l rest =>
    obtain ⟨hpl, t, lv'', ht, hi, rfl, hst⟩ := hst
    have hn' : n.toNat ≤ 513 := hn
    have hp : p.toNat < 513 := by omega
    refine deserInv_goTo ⟨hn, .node t u, lv'', deserDone_node hp hpl hi ht hu, ?_, ?_,
      deserPending_congr hst fun k hk => arenaSet_getElem?_of_ne (Nat.ne_of_lt hk)⟩
    · rw [Shape.count]; omega
    · simp only [Shape.leafCount, Shape.symbols, List.length_append] at hl ⊢; omega

/-- An engine step of DESER keeps what a DESER in progress has read (spec/41_tree_serdes.md R140). -/
theorem deserStep_deserInv {s : State} (h : DeserInv s) : DeserInv (deserStep s) := by
  have hat := deserInv_iff.mp h
  unfold deserStep
  split
  · exact deserInv_goTo ⟨Nat.zero_le _, rfl, rfl⟩
  · next hp => exact deserFlag_deserInv (hat _ _ _ _ _ hp) h
  · next hp => exact deserLeaf_deserInv (hat _ _ _ _ _ hp)
  · next hp => exact deserField_deserInv (hat _ _ _ _ _ hp) h
  · next hp => exact deserReturn_deserInv (hat _ _ _ _ _ hp)
  · exact h

/-- The engine step of another command has no position of DESER before or after it. -/
theorem commandStep_deserInv {i : Instr} {s : State} (hx : s.executes i) (hc : ControlInv s) (h : DeserInv s) :
    DeserInv (commandStep i s) := by
  by_cases hi : i = .deser
  · subst hi; exact deserStep_deserInv h
  · intro w n lv pos stack hp
    have no {c : Cont} (k : c.belongsTo i = true) : c ≠ .deser n lv pos stack := by
      rintro rfl
      cases i with
      | deser => exact hi rfl
      | _ => cases k
    rcases (commandStep_moves i s).phase with e | e | ⟨c, hb, e⟩ <;> rw [e] at hp
    · obtain ⟨-, -, -, -, hf, -⟩ := (busyInv_iff hp).mp hc.1
      exact absurd rfl (no ((contFits_iff (hx _ _ hp)).mp hf))
    · cases hp
    · exact absurd (busy_goTo hp).1.symm (no hb)

/-- A DESER that ends has read one whole tree (spec/41_tree_serdes.md R143). -/
theorem deserEnd_treeIs {s : State} {w : Word} {r n lv : Idx} (h : DeserInv s)
    (hp : s.phase = .busy w (.deser n lv (.ret r) [])) : ∃ T : Shape, (deserEnd r n lv s).treeIs T := by
  obtain ⟨hn, T, lv', ⟨hblock, hsyms⟩, hcount, hleaves, hr, rfl⟩ := deserInv_iff.mp h _ _ _ _ _ hp
  rw [hr, Nat.zero_add] at hcount
  rw [Nat.zero_add] at hleaves
  rw [hr] at hblock
  refine ⟨T, treeIs_of_arenaBlock hblock (hcount ▸ hn) hsyms (BitVec.eq_of_toNat_eq hr) ?_ ?_⟩
  · rw [deserEnd_nodes, ← hcount, BitVec.ofNat_toNat, BitVec.setWidth_eq]
  · rw [deserEnd_leaves, ← hleaves, BitVec.ofNat_toNat, BitVec.setWidth_eq]

/-! ### The tree and the code table -/

/-- An engine step of the accepted command keeps the tree invariant: only BUILD and DESER change the tree, and each ends with one
of R51. -/
theorem commandStep_treeInv {i : Instr} {s : State} (hx : s.executes i) (hc : ControlInv s) (hd : DeserInv s)
    (h : TreeInv s) : TreeInv (commandStep i s) := by
  rcases hp : s.phase with _ | ⟨w, c⟩
  · rw [commandStep_idle hp]; exact h
  have hdoes := commandStep_does i s
  generalize commandStep i s = t at hdoes
  intro ht
  by_cases hi : i = .build ∨ i = .deser
  · have hs := treeValid_of_replacing hc hp (hx w c hp) hi
    obtain ⟨m, hm, hcon⟩ := hdoes
    have hms : m.treeValid ≠ true := by simp [hm.keepsFlags.treeValid, hs]
    cases hcon with
    | storesTree _ hm => subst hm; exact storeTree_treeIs m
    | endsDeser _ hp hm => subst hm; exact deserEnd_treeIs hd hp
    | _ => exact absurd ht hms
  · rw [not_or] at hi
    have k := hdoes.keepsTree hi.1 hi.2
    obtain ⟨T, hT⟩ := h (k.treeValid.symm.trans ht)
    exact ⟨T, (k.treeIs_iff T).mpr hT⟩

/-- An engine step of the accepted command keeps the code-table invariant: the table stays with its tree, is made of it by
`BuildCodes()`, or was discarded with it. -/
theorem commandStep_codesInv {i : Instr} {s : State} (hx : s.executes i) (hc : ControlInv s) (h : CodesInv s) :
    CodesInv (commandStep i s) := by
  rcases hp : s.phase with _ | ⟨w, c⟩
  · rw [commandStep_idle hp]; exact h
  have hdoes := commandStep_does i s
  generalize commandStep i s = t at hdoes
  intro ht T hT x
  have ⟨_, _, _, hct, _, _⟩ := hc
  by_cases hi : i = .build ∨ i = .deser
  · rcases hdoes.code with ⟨-, e⟩ | ⟨hi', -⟩
    · exact absurd (hct (e.symm.trans ht)) (by simp [treeValid_of_replacing hc hp (hx w c hp) hi])
    · rcases hi with rfl | rfl <;> simp at hi'
  · rw [not_or] at hi
    have hTs := ((hdoes.keepsTree hi.1 hi.2).treeIs_iff T).mp hT
    rcases hdoes.code with ⟨ecode, e⟩ | ⟨-, -, e⟩
    · rw [ecode]; exact h (e.symm.trans ht) T hTs x
    · obtain ⟨c', hc', hcode, -⟩ := codeTableOf_of_treeIs hTs
      cases e.symm.trans hc'
      exact hcode x

/-! ### All of it -/

/-- The invariants of the tree, of its code table and of a DESER in progress. -/
def TreeCodeInv (s : State) : Prop := TreeInv s ∧ CodesInv s ∧ DeserInv s

theorem treeCodeInv_powerOn (d : Depths) : TreeCodeInv (State.powerOn d) := ⟨nofun, nofun, deserInv_of_idle rfl⟩

theorem treeCodeInv_accept {s : State} (v : Word) (h : TreeCodeInv s) : TreeCodeInv (accept v s) := by
  obtain ⟨ht, hc, -⟩ := h
  rcases accept_cases v s with ⟨-, e⟩ | ⟨-, e⟩ <;> rw [e]
  · exact ⟨nofun, nofun, nofun⟩
  · exact ⟨ht, hc, nofun⟩

theorem HostEffect.treeCodeInv {s t : State} {a : HostAction} (he : HostEffect s a t) (h : TreeCodeInv s) :
    TreeCodeInv t := by
  cases he with
  | reads | writesNothing | serves => exact h
  | resets => exact treeCodeInv_powerOn s.depths
  | writes hw =>
    cases hw with
    | resets => exact treeCodeInv_powerOn s.depths
    | accepts => exact treeCodeInv_accept _ h
    | _ => exact h

/-- Settles O57: nothing is busy, valid or queued at reset. -/
theorem resetMeetsInvariants : Obligations.ResetMeetsInvariants := by
  unfold Obligations.ResetMeetsInvariants
  have powerOn (d : Depths) (hbi : 1 ≤ d.bi) (hyi : 1 ≤ d.yi) (hbo : 1 ≤ d.bo) (hyo : 1 ≤ d.yo) : Inv (State.powerOn d) :=
    ⟨controlInv_powerOn d, queueInv_powerOn hbi hyi hbo hyo, treeCodeInv_powerOn d⟩
  exact ⟨powerOn _ (Nat.le_add_left ..) (Nat.le_add_left ..) (Nat.le_add_left ..) (Nat.le_add_left ..), powerOn⟩

/-- Settles O60: host steps, the engine steps of the accepted command and an illegal word's error keep all invariants. -/
theorem stepKeepsTreeAndCodeInvariants : Obligations.StepKeepsTreeAndCodeInvariants := by
  unfold Obligations.StepKeepsTreeAndCodeInvariants
  refine fun s t => step_keeps (fun _ h => h) (fun he ⟨hc, hq, h⟩ => ⟨he.controlInv hc, he.queueInv hq, he.treeCodeInv h⟩)
    (fun hx ⟨hc, hq, ht, hcodes, hd⟩ => ?_) fun _ ⟨hc, hq, ht, hcodes, _⟩ => ?_
  · exact ⟨commandStep_controlInv hx hc, commandStep_queueInv _ hq, commandStep_treeInv hx hc hd ht,
      commandStep_codesInv hx hc hcodes, commandStep_deserInv hx hc hd⟩
  · exact ⟨controlInv_raiseError _ _ hc, hq, ht, hcodes, deserInv_of_idle rfl⟩

end Sys2Proof.Machine

/-! ## What changes TREE_VALID, END_SEEN, OVR, FREQ and MAGIC -/

namespace Sys2Proof.Machine

/-! ### Host steps -/

theorem accept_endSeen (v : Word) (s : State) : (accept v s).endSeen = false := by
  rcases accept_cases v s with ⟨-, e⟩ | ⟨-, e⟩ <;> rw [e] <;> rfl

theorem accept_ovr (v : Word) (s : State) : (accept v s).ovr = s.ovr := by
  rcases accept_cases v s with ⟨-, e⟩ | ⟨-, e⟩ <;> rw [e] <;> rfl

theorem accept_freq (v : Word) (s : State) : (accept v s).freq = s.freq := by
  rcases accept_cases v s with ⟨-, e⟩ | ⟨-, e⟩ <;> rw [e] <;> rfl

theorem accept_magic (v : Word) (s : State) : (accept v s).magic = s.magic := by
  rcases accept_cases v s with ⟨-, e⟩ | ⟨-, e⟩ <;> rw [e] <;> rfl

/-- The reset input, or a write of 1 to CTRL.SOFT_RESET. -/
def HostAction.resets (a : HostAction) : Prop :=
  a = .hardReset ∨ ∃ v : Word, v.getLsbD 0 = true ∧ a = .regWrite Reg.ctrl.offset 4 v

section
variable {s t : State} {a : HostAction}

/-- A host step changes TREE_VALID to 0 alone, by a reset or by the acceptance of a BUILD or a DESER (spec/10_state.md R29). -/
theorem HostEffect.treeValid (h : HostEffect s a t) :
    t.treeValid = s.treeValid ∨ (t.treeValid = false ∧ (a.resets ∨
      (s.phase = .idle ∧ ∃ v, (v = encode .build ∨ v = encode .deser) ∧ a = .regWrite Reg.cmd.offset 4 v))) := by
  cases h with
  | resets => exact .inr ⟨rfl, .inl (.inl rfl)⟩
  | writes hw =>
    cases hw with
    | resets hv => exact .inr ⟨rfl, .inl (.inr ⟨_, hv, rfl⟩)⟩
    | accepts hp =>
      rename_i v
      rcases accept_cases v s with ⟨hr, e⟩ | ⟨-, e⟩ <;> rw [e]
      · exact .inr ⟨rfl, .inr ⟨hp, v, (replacesTree_iff.mp hr).imp eq_encode_of_decode eq_encode_of_decode, rfl⟩⟩
      · exact .inl rfl
    | _ => exact .inl rfl
  | _ => exact .inl rfl

/-- No host step sets END_SEEN (spec/10_state.md R31). -/
theorem HostEffect.endSeen (h : HostEffect s a t) : t.endSeen = s.endSeen ∨ t.endSeen = false := by
  cases h with
  | resets => exact .inr rfl
  | writes hw =>
    cases hw with
    | resets => exact .inr rfl
    | accepts => exact .inr (accept_endSeen ..)
    | _ => exact .inl rfl
  | _ => exact .inl rfl

/-- A host step sets OVR by a protected write while busy, and clears it by a reset or by its write to STATUS (spec/10_state.md
R32, R42). -/
theorem HostEffect.ovr (h : HostEffect s a t) :
    t.ovr = s.ovr ∨
      (t.ovr = true ∧ s.busy = true ∧ ∃ r v, a = .regWrite (Reg.offset r) 4 v ∧
        (r = .cmd ∨ r = .magic ∨ (∃ b, r = .freq b) ∨ (r = .ctrl ∧ (v.getLsbD 1 = true ∨ v.getLsbD 2 = true)))) ∨
      (t.ovr = false ∧ (a.resets ∨ ∃ v, v.getLsbD 6 = true ∧ a = .regWrite Reg.status.offset 4 v)) := by
  cases h with
  | resets => exact .inr (.inr ⟨rfl, .inl (.inl rfl)⟩)
  | writes hw =>
    cases hw with
    | resets hv => exact .inr (.inr ⟨rfl, .inl (.inr ⟨_, hv, rfl⟩)⟩)
    | dropsClear hb hv => exact .inr (.inl ⟨rfl, hb, _, _, rfl, .inr (.inr (.inr ⟨rfl, hv⟩))⟩)
    | drops hb hr => exact .inr (.inl ⟨rfl, hb, _, _, rfl, hr.imp_right (.imp_right .inl)⟩)
    | clears =>
      rename_i v
      rcases Bool.eq_false_or_eq_true (v.getLsbD 6) with hv | hv
      · exact .inr (.inr ⟨by simp only [hv, Bool.not_true, Bool.and_false], .inr ⟨v, hv, rfl⟩⟩)
      · exact .inl (by simp only [hv, Bool.not_false, Bool.and_true])
    | accepts => exact .inl (accept_ovr ..)
    | _ => exact .inl rfl
  | _ => exact .inl rfl

/-- A host step changes FREQ by a reset or by a write to it while idle (spec/10_state.md R40, R42). -/
theorem HostEffect.freq (h : HostEffect s a t) :
    t.freq = s.freq ∨ a.resets ∨ (s.phase = .idle ∧ ∃ b v, a = .regWrite (Reg.freq b).offset 4 v) := by
  cases h with
  | resets => exact .inr (.inl (.inl rfl))
  | writes hw =>
    cases hw with
    | resets hv => exact .inr (.inl (.inr ⟨_, hv, rfl⟩))
    | setsFreq hp b => exact .inr (.inr ⟨hp, b, _, rfl⟩)
    | accepts => exact .inl (accept_freq ..)
    | _ => exact .inl rfl
  | _ => exact .inl rfl

/-- A host step changes MAGIC by a reset or by a write to it while idle (spec/10_state.md R36, R42). -/
theorem HostEffect.magic (h : HostEffect s a t) :
    t.magic = s.magic ∨ a.resets ∨ (s.phase = .idle ∧ ∃ v, a = .regWrite Reg.magic.offset 4 v) := by
  cases h with
  | resets => exact .inr (.inl (.inl rfl))
  | writes hw =>
    cases hw with
    | resets hv => exact .inr (.inl (.inr ⟨_, hv, rfl⟩))
    | setsMagic hp => exact .inr (.inr ⟨hp, _, rfl⟩)
    | accepts => exact .inl (accept_magic ..)
    | _ => exact .inl rfl
  | _ => exact .inl rfl

end

/-! ### Engine steps -/

/-- The engine has ended a command without error (spec/60_exceptions.md R204). -/
def State.endedWell (s : State) : Prop := s.phase = .idle ∧ s.done = true ∧ s.err = false

section
variable {i : Instr} {s : State}

/-- Where an engine step that changes a field ends the command so that `R` holds, a run of engine steps that changes the field
ends so: after the end no step changes anything. -/
theorem repeatStep_ends {α : Type} (g : State → α) {J R : State → Prop} (hJ : ∀ {u}, J u → J (commandStep i u))
    (h : ∀ {u}, J u → u.phase ≠ .idle → g (commandStep i u) = g u ∨ R (commandStep i u)) (hR : ∀ {u}, R u → u.phase = .idle)
    (k : Nat) (hs : J s) : g (repeatStep k (commandStep i) s) = g s ∨ R (repeatStep k (commandStep i) s) := by
  induction k generalizing s with
  | zero => exact .inl rfl
  | succ k ih =>
    by_cases hp : s.phase = .idle
    · rw [repeatStep_fixed (commandStep_idle hp i)]; exact .inl rfl
    · rw [repeatStep]
      rcases h hs hp with e | hr
      · rw [← e]; exact ih (hJ hs)
      · rw [repeatStep_fixed (commandStep_idle (hR hr) i)]; exact .inr hr

/-- While busy there is no error (spec/10_state.md R28). -/
theorem err_of_busy (h : ControlInv s) (hp : s.phase ≠ .idle) : s.err = false := by
  rcases hps : s.phase with _ | ⟨w, c⟩
  · exact absurd hps hp
  · obtain ⟨-, he, -⟩ := (busyInv_iff hps).mp h.1
    exact he

/-- The same from a state that meets the control invariant, where the step that changes the field leaves ERR as it was. -/
theorem repeatStep_endsWell {α : Type} (g : State → α) {R : State → Prop} (hx : s.executes i) (hc : ControlInv s)
    (h : ∀ u, g (commandStep i u) = g u ∨ (R (commandStep i u) ∧ (commandStep i u).phase = .idle ∧
      (commandStep i u).done = true ∧ (commandStep i u).err = u.err)) (k : Nat) :
    g (repeatStep k (commandStep i) s) = g s ∨
      (R (repeatStep k (commandStep i) s) ∧ (repeatStep k (commandStep i) s).endedWell) :=
  repeatStep_ends g (J := fun u => u.executes i ∧ ControlInv u) (R := fun u => R u ∧ u.endedWell)
    (fun ⟨hx, hc⟩ => ⟨commandStep_executes hx, commandStep_controlInv hx hc⟩)
    (fun ⟨_, hc⟩ hp => (h _).imp_right fun ⟨hr, hi, hd, he⟩ => ⟨hr, hi, hd, he.trans (err_of_busy hc hp)⟩)
    (fun hr => hr.2.1) k ⟨hx, hc⟩

end

/-! ### Steps -/

/-- A bit that is as it was has not changed. -/
theorem false_of_kept {x y b : Bool} (e : y = x) (hx : x = b) (hy : y = !b) : False := by
  subst e hx
  cases y <;> cases hy

/-- Settles O53: host steps only clear TREE_VALID, engine steps only set it, at a command's end. -/
theorem treeValidChangesOnlyAsListed : Obligations.TreeValidChangesOnlyAsListed := by
  unfold Obligations.TreeValidChangesOnlyAsListed
  intro s t hc h
  cases step_effect h with
  | host ho he =>
    rcases he.treeValid with e | ⟨e, ha⟩
    · exact ⟨fun h0 h1 => (false_of_kept e h0 h1).elim, fun h1 h0 => (false_of_kept e h1 h0).elim⟩
    · exact ⟨fun _ h1 => (false_of_kept rfl e h1).elim, fun _ _ => ⟨_, _, ho, or_assoc.mp ha⟩⟩
  | engine _ he =>
    cases he with
    | nothing | raisesIllegal =>
      exact ⟨fun h0 h1 => (false_of_kept rfl h0 h1).elim, fun h1 h0 => (false_of_kept rfl h1 h0).elim⟩
    | @runs w c i hp hd =>
      rcases repeatStep_endsWell State.treeValid (R := fun u => u.treeValid = true ∧ (i = .build ∨ i = .deser))
        (executes_of_busy hp hd) hc (fun u => (commandStep_does i u).treeValid.imp_right and_assoc.mpr) s.grant with
        e | ⟨⟨e, hi⟩, hend⟩
      · exact ⟨fun h0 h1 => (false_of_kept e h0 h1).elim, fun h1 h0 => (false_of_kept e h1 h0).elim⟩
      · refine ⟨fun _ _ => ⟨w, c, hp, ?_, hend⟩, fun _ h0 => (false_of_kept rfl e h0).elim⟩
        rcases hi with rfl | rfl
        exacts [.inl (eq_encode_of_decode hd), .inr (eq_encode_of_decode hd)]

/-- Settles O54: no host step sets END_SEEN, and of the commands only DEC changes it, at its end. -/
theorem endSeenOnlyByDec : Obligations.EndSeenOnlyByDec := by
  unfold Obligations.EndSeenOnlyByDec
  intro s t hc h h0 h1
  cases step_effect h with
  | host ho he =>
    rcases he.endSeen with e | e
    · exact (false_of_kept e h0 h1).elim
    · exact (false_of_kept rfl e h1).elim
  | engine _ he =>
    cases he with
    | nothing | raisesIllegal => exact (false_of_kept rfl h0 h1).elim
    | @runs w c i hp hd =>
      rcases repeatStep_endsWell State.endSeen (R := fun _ => i = .dec) (executes_of_busy hp hd) hc
        (fun u => (commandStep_does i u).endSeen) s.grant with e | ⟨rfl, hend⟩
      · exact (false_of_kept e h0 h1).elim
      · exact ⟨c, eq_encode_of_decode hd ▸ hp, hend⟩

/-- Settles O55: engine steps keep OVR, host steps change it as listed. -/
theorem ovrIsSticky : Obligations.OvrIsSticky := by
  unfold Obligations.OvrIsSticky
  intro s t h
  cases step_effect h with
  | host ho he =>
    rcases he.ovr with e | ⟨e, hb, r, v, rfl, hr⟩ | ⟨e, ha⟩
    · exact ⟨fun h0 h1 => (false_of_kept e h0 h1).elim, fun h1 h0 => (false_of_kept e h1 h0).elim⟩
    · exact ⟨fun _ _ => ⟨hb, r, v, _, ho, hr⟩, fun _ h0 => (false_of_kept rfl e h0).elim⟩
    · exact ⟨fun _ h1 => (false_of_kept rfl e h1).elim, fun _ _ => ⟨_, _, ho, or_assoc.mp ha⟩⟩
  | engine _ he =>
    refine ⟨fun h0 h1 => (false_of_kept ?_ h0 h1).elim, fun h1 h0 => (false_of_kept ?_ h1 h0).elim⟩
    all_goals
      cases he with
      | nothing | raisesIllegal => rfl
      | runs => exact repeatStep_keepsField State.ovr (fun u => (commandStep_keepsHostFields _ u).ovr) s.grant s

/-- Settles O56: of the engine steps only CLR_FREQ's changes FREQ, and ends it; none changes MAGIC. -/
theorem freqAndMagicChangeOnlyAsListed : Obligations.FreqAndMagicChangeOnlyAsListed := by
  unfold Obligations.FreqAndMagicChangeOnlyAsListed
  intro s t h
  cases step_effect h with
  | host ho he =>
    exact ⟨fun hne => .inr ⟨_, _, ho, or_assoc.mp (he.freq.resolve_left hne)⟩,
      fun hne => ⟨_, _, ho, or_assoc.mp (he.magic.resolve_left hne)⟩⟩
  | engine ho he =>
    cases he with
    | nothing | raisesIllegal => exact ⟨fun hne => absurd rfl hne, fun hne => absurd rfl hne⟩
    | @runs w c i hp hd =>
      refine ⟨fun hne => ?_, fun hne => absurd ?_ hne⟩
      · obtain ⟨rfl, hend⟩ := (repeatStep_ends State.freq (J := fun _ => True)
          (R := fun u => i = .clrFreq ∧ u.phase = .idle ∧ u.done = true) id
          (fun _ _ => (commandStep_does i _).freq) (fun hr => hr.2.1) s.grant trivial).resolve_left hne
        exact .inl ⟨ho, ⟨c, eq_encode_of_decode hd ▸ hp⟩, hend⟩
      · exact repeatStep_keepsField State.magic (fun u => (commandStep_keepsHostFields i u).magic) s.grant s

end Sys2Proof.Machine

/-! ## The order of steps, the ports and the window: the family of spec/20_memory.md -/

namespace Sys2Proof.Machine

/-! ### Register accesses, defined and not -/

/-- `a` is a read or a write of the register window, `bytes` wide and at `off`. -/
def HostAction.accesses (a : HostAction) (off : Offset) (bytes : Nat) : Prop :=
  a = .regRead off bytes ∨ ∃ v, a = .regWrite off bytes v

section
variable {a : HostAction} {off : Offset} {bytes : Nat}

/-- An access that is not 32 bits wide or not aligned is refused (R71). -/
theorem HostAction.accesses.refused (h : a.accesses off bytes) (hd : bytes ≠ 4 ∨ off.toNat % 4 ≠ 0) (s : State) :
    hostStep a s = .refused .undefinedAccess := by
  have hn : ¬ accessDefined off bytes = true := by rw [accessDefined_iff]; exact not_and_or.mpr hd
  rcases h with rfl | ⟨v, rfl⟩ <;> rw [hostStep, if_neg hn]

theorem HostAction.accesses.answers (h : a.accesses off bytes) (hd : bytes = 4 ∧ off.toNat % 4 = 0) (s : State) :
    ∃ t, hostStep a s = .next t := by
  have hn := accessDefined_iff.mpr hd
  rcases h with rfl | ⟨v, rfl⟩ <;> rw [hostStep, if_pos hn] <;> exact ⟨_, rfl⟩

end

/-- `a` is an access that the host must not make (R71). -/
def HostAction.isUndefined (a : HostAction) : Prop :=
  ∃ off bytes, (bytes ≠ 4 ∨ off.toNat % 4 ≠ 0) ∧ a.accesses off bytes

theorem HostAction.accesses.outcomes {a : HostAction} {off : Offset} {bytes : Nat} (h : a.accesses off bytes) (s : State) :
    (∃ t, hostStep a s = .next t) ∨ (hostStep a s = .refused .undefinedAccess ∧ a.isUndefined) := by
  by_cases hd : bytes = 4 ∧ off.toNat % 4 = 0
  · exact .inl (h.answers hd s)
  · have hu := not_and_or.mp hd
    exact .inr ⟨h.refused hu s, off, bytes, hu, h⟩

/-- A host step answers a next state, unless it is an undefined access. -/
theorem hostStep_outcomes (a : HostAction) (s : State) :
    (∃ t, hostStep a s = .next t) ∨ (hostStep a s = .refused .undefinedAccess ∧ a.isUndefined) := by
  cases a with
  | regRead => exact HostAction.accesses.outcomes (.inl rfl) s
  | regWrite => exact HostAction.accesses.outcomes (.inr ⟨_, rfl⟩) s
  | _ => exact .inl ⟨_, rfl⟩

/-- Settles O7: the step is the host's, and it answers exactly when the access is defined. -/
theorem undefinedAccessIsRefused : Obligations.UndefinedAccessIsRefused := by
  unfold Obligations.UndefinedAccessIsRefused
  intro s off bytes v rest ho
  obtain ⟨a, ha, ho⟩ : ∃ a : HostAction, a.accesses off bytes ∧ s.order = .host a :: rest := by
    rcases ho with ho | ho
    exacts [⟨_, .inl rfl, ho⟩, ⟨_, .inr ⟨v, rfl⟩, ho⟩]
  rw [SafeStep, step_host ho]
  exact ⟨fun hd => ha.refused hd _, fun hd => ha.answers hd _⟩

/-! ### Pushes and pops -/

/-- There is an end mark or no room, so a push is not accepted. -/
theorem not_accepts_of_eod_or_full {eod : Bool} {n depth : Nat} (h : eod = true ∨ depth ≤ n) :
    ¬(eod = false ∧ n < depth) := by
  rintro ⟨rfl, hn⟩
  exact h.elim nofun hn.not_ge

/-- Settles O11: each clause is one branch of its operation. -/
theorem pushesAndPops : Obligations.PushesAndPops := by
  unfold Obligations.PushesAndPops
  intro s b x
  refine ⟨fun h => ?_, fun h => ?_, fun h => ?_, fun h => ?_, fun h => ?_, fun h => ?_, fun h => ?_, fun h => ?_,
    fun p h => ?_, fun h => ?_, fun q h => ?_, fun h => ?_⟩
  · rw [hostStep, pushBit, if_pos h, inform]
  · rw [hostStep, pushBit, if_neg (not_accepts_of_eod_or_full h), inform]
  · rw [hostStep, pushBiEod, if_pos h, inform]
  · rw [hostStep, pushBiEod, if_neg (by simp [h]), inform]
  · rw [hostStep, pushByte, if_pos h, inform]
  · rw [hostStep, pushByte, if_neg (not_accepts_of_eod_or_full h), inform]
  · rw [hostStep, pushYiEod, if_pos h, inform]
  · rw [hostStep, pushYiEod, if_neg (by simp [h]), inform]
  · simp only [hostStep, popBit, h, inform]
  · simp only [hostStep, popBit, h, inform]
  · simp only [hostStep, popByte, h, inform]
  · simp only [hostStep, popByte, h, inform]

/-! ### The engine's turn -/

section
variable {s : State} {w : Word} {c : Cont} {i : Instr}

theorem step_eq_engineTurn (ho : ∀ a rest, s.order ≠ .host a :: rest) : step s = engineTurn s := by
  unfold step
  split
  · next a rest h => exact absurd h (ho a rest)
  · rfl

theorem engineTurn_idle (hp : s.phase = .idle) : engineTurn s = .next (dropTurn s) := by simp only [engineTurn, hp]

theorem engineTurn_busy (hp : s.phase = .busy w c) : engineTurn s = mapNext dropTurn (runWord w s) := by
  simp only [engineTurn, hp]

theorem runWord_command (hd : decode w = .command i) : runWord w s = exec i s := by simp only [runWord, hd]

theorem runWord_illegal (hd : ∀ i, decode w ≠ .command i) :
    runWord w s = .next (repeatStep s.grant (illegalStep w) s) := by
  unfold runWord
  split
  · next i h => exact absurd h (hd i)
  all_goals rfl

/-- A continuation that fits the accepted word lets the engine run: a command's is the command's own, and an illegal word's turn
always answers. -/
theorem runWord_answers (hp : s.phase = .busy w c) (hc : contFits w c = true) : ∃ t, runWord w s = .next t := by
  by_cases hd : ∃ i, decode w = .command i
  · obtain ⟨i, hd⟩ := hd
    rw [runWord_command hd]
    exact ⟨_, exec_next.mpr ⟨by rw [hp]; exact (contFits_iff hd).mp hc, rfl⟩⟩
  · exact ⟨_, runWord_illegal (not_exists.mp hd)⟩

/-- The control invariant leaves no engine's turn without an answer. -/
theorem engineTurn_answers (h : ControlInv s) : ∃ t, engineTurn s = .next t := by
  rcases hp : s.phase with _ | ⟨w, c⟩
  · exact ⟨_, engineTurn_idle hp⟩
  · obtain ⟨-, -, -, -, hc, -⟩ := (busyInv_iff hp).mp h.1
    obtain ⟨t, ht⟩ := runWord_answers hp hc
    exact ⟨dropTurn t, by rw [engineTurn_busy hp, ht, mapNext]⟩

end

/-- Settles O14: the branches of `step` and of the engine's turn, and weak fairness by `weaklyFair`. -/
theorem stepRunsDecodedCommand : Obligations.StepRunsDecodedCommand := by
  unfold Obligations.StepRunsDecodedCommand
  refine fun s => ⟨fun a rest => step_host, fun ho => ?_, weaklyFair s⟩
  rw [step_eq_engineTurn ho]
  refine ⟨engineTurn_idle, fun w c i hp hd => ?_⟩
  rw [engineTurn_busy hp, runWord_command hd]
  refine ⟨fun t ht => ?_, fun r hr => ?_, fun r hr => ?_⟩
  · rw [ht, mapNext, dropTurn]
  · rw [hr, mapNext]
  · rw [hr, mapNext]

/-- Settles O17: at the host's turn by the outcomes of a host step; at the engine's by `engineTurn_answers`. -/
theorem stepNeverFaults : Obligations.StepNeverFaults := by
  unfold Obligations.StepNeverFaults
  intro s h
  by_cases ho : ∃ a rest, s.order = .host a :: rest
  · obtain ⟨a, rest, ho⟩ := ho
    rw [SafeStep, step_host ho]
    refine (hostStep_outcomes a _).imp_right fun ⟨e, off, bytes, hd, ha⟩ => ⟨e, off, bytes, rest, hd, ?_⟩
    rw [ho]
    rcases ha with rfl | ⟨v, rfl⟩
    exacts [.inl rfl, .inr ⟨v, rfl⟩]
  · rw [SafeStep, step_eq_engineTurn fun a rest e => ho ⟨a, rest, e⟩]
    exact .inl (engineTurn_answers h)

/-! ### Holds -/

/-- A command whose engine step changes nothing where it stands holds, however many engine steps are granted (R76). -/
theorem exec_holds {i : Instr} {s : State} {w : Word} {c : Cont} (hp : s.phase = .busy w c) (hc : c.belongsTo i = true)
    (h : commandStep i s = s) : exec i s = .next s :=
  exec_next.mpr ⟨by rw [hp]; exact hc, (repeatStep_fixed h _).symm⟩

/-- Settles O19: at each position the engine step meets the port's hold and is the identity. -/
theorem engineHolds : Obligations.EngineHolds := by
  unfold Obligations.EngineHolds
  refine fun s w => ⟨fun hb he => ?_, fun hy he hp => ?_, fun hb => ?_, fun hy i sym x hp ha hsym => ?_⟩
  · have hold : readBit s = .hold := readBit_hold.mpr ⟨hb, he⟩
    refine ⟨fun v k hp => ?_, fun n lv st hp hn => ?_, fun n lv i v k st hp => ?_, fun i l r x hp ha => ?_⟩
    · exact exec_holds hp rfl (by simp only [commandStep, magicChkStep, hp, hold])
    · exact exec_holds hp rfl (by simp only [commandStep, deserStep, hp, deserFlag, if_neg hn, hold])
    · exact exec_holds hp rfl (by simp only [commandStep, deserStep, hp, deserField, hold])
    · exact exec_holds hp rfl (by simp only [commandStep, decStep, hp, decWalk, ha, hold])
  · have hold : readByte s = .hold := readByte_hold.mpr ⟨hy, he⟩
    exact exec_holds hp rfl (by simp only [commandStep, encStep, hp, encNext, hold])
  · have full (b : Bool) : writeBit b s = none := writeBit_none.mpr hb
    refine ⟨fun b p hp => ?_, fun b p st hp => ?_, fun b p last hp => ?_⟩
    · exact exec_holds hp rfl (by simp only [commandStep, magicWrStep, hp, full])
    · exact exec_holds hp rfl (by simp only [commandStep, serStep, hp, full])
    · exact exec_holds hp rfl (by simp only [commandStep, encStep, hp, full])
  · have full : writeByte (byteOfSymbol sym) s = none := writeByte_none.mpr hy
    exact exec_holds hp rfl (by simp only [commandStep, decStep, hp, decWalk, ha, if_neg hsym, full])

end Sys2Proof.Machine

/-! ## Words, lanes and what a command counts: the family of spec/30_encoding.md -/

namespace Sys2Proof.Machine

/-! ### Decoding -/

theorem decode_encode (i : Instr) : decode (encode i) = .command i := by cases i <;> rfl

theorem decode_eq_command_iff {v : Word} {i : Instr} : decode v = .command i ↔ v = encode i :=
  ⟨eq_encode_of_decode, fun h => h ▸ decode_encode i⟩

/-- The opcodes of the map are those up to 9 (spec/30_encoding.md R93). -/
theorem ofOpcode_isCommand_iff {n : Nat} : (∃ i, ofOpcode n = .command i) ↔ n ≤ 9 := by
  constructor
  · rintro ⟨i, h⟩
    rw [ofOpcode_command h]
    cases i <;> decide
  · intro h
    interval_cases n <;> exact ⟨_, rfl⟩

/-- The legal words (spec/30_encoding.md R92, R95). -/
theorem decode_isCommand_iff {v : Word} : (∃ i, decode v = .command i) ↔ rsvField v = 0 ∧ (opField v).toNat ≤ 9 := by
  unfold decode
  split
  · next h => rw [ofOpcode_isCommand_iff, and_iff_right h]
  · next h => exact ⟨nofun, fun k => absurd k.1 h⟩

/-- The four lanes of a word make the word again (spec/20_memory.md R72). -/
theorem wordOfLanes_byteLane (v : Word) :
    wordOfLanes (byteLane v 0) (byteLane v 1) (byteLane v 2) (byteLane v 3) = v := by
  have upper : byteLane v 3 ++ byteLane v 2 = v.extractLsb' 16 16 :=
    BitVec.extractLsb'_append_extractLsb'_eq_extractLsb' rfl
  have middle : v.extractLsb' 16 16 ++ byteLane v 1 = v.extractLsb' 8 24 :=
    BitVec.extractLsb'_append_extractLsb'_eq_extractLsb' rfl
  rw [wordOfLanes, upper, middle]
  exact BitVec.extractLsb'_append_extractLsb'

theorem decodeBytes_byteLane (v : Word) :
    decodeBytes [byteLane v 0, byteLane v 1, byteLane v 2, byteLane v 3] = decode v := by
  rw [decodeBytes, wordOfLanes_byteLane]

/-- Settles O13: `eq_encode_of_decode` and its converse, and the lanes of a word. -/
theorem decodeExactlyEncodedWords : Obligations.DecodeExactlyEncodedWords := by
  unfold Obligations.DecodeExactlyEncodedWords
  refine ⟨fun v i => decode_eq_command_iff, fun v => decode_isCommand_iff, decodeBytes_byteLane, fun i => ?_⟩
  exact (decodeBytes_byteLane (encode i)).trans (decode_encode i)

/-- Settles O12: each word is its command's encoding. -/
theorem tableWordsDecode : Obligations.TableWordsDecode := by
  unfold Obligations.TableWordsDecode
  exact ⟨decode_encode .nop, decode_encode .clrFreq, decode_encode .build, decode_encode .ser, decode_encode .deser,
    decode_encode .codes, decode_encode .enc, decode_encode .dec, decode_encode .magicWr, decode_encode .magicChk⟩

/-! ### Acceptance -/

/-- A write to CMD while idle is the acceptance of the word (spec/30_encoding.md R90). -/
theorem step_cmdWrite {s : State} {v : Word} {rest : List Turn} (hp : s.phase = .idle)
    (ho : s.order = .host (.regWrite Reg.cmd.offset 4 v) :: rest) :
    step s = .next (accept v { s with turns := rest }) := by
  rw [step_host ho, hostStep_regWrite, writeReg]
  exact congrArg _ (protectedWrite_of_idle hp)

/-- Settles O2: the write reaches CMD while idle, and `accept` discards the tree for the words of BUILD and DESER alone. -/
theorem cmdWriteWhileIdleIsAccepted : Obligations.CmdWriteWhileIdleIsAccepted := by
  unfold Obligations.CmdWriteWhileIdleIsAccepted
  intro s v rest hp ho
  rw [step_cmdWrite hp ho]
  refine ⟨fun hv => ?_, fun ⟨hb, hd⟩ => ?_⟩
  · rw [accept_tree (hv.imp decode_eq_command_iff.mpr decode_eq_command_iff.mpr)]
    rfl
  · rw [accept_other (fun h => hb (decode_eq_command_iff.mp h)) (fun h => hd (decode_eq_command_iff.mp h))]
    rfl

theorem accept_phase (v : Word) (s : State) : (accept v s).phase = .busy v .start := by
  rcases accept_cases v s with ⟨-, e⟩ | ⟨-, e⟩ <;> rw [e]

/-! ### A fetched word -/

theorem exec_turns {i : Instr} {s t : State} (h : exec i s = .next t) : t.turns = s.turns :=
  exec_keepsField State.turns (commandStep_turns i) h

/-- A table word of 32 bits is the word. -/
theorem tableWord_toNat (v : Word) : tableWord 32 v.toNat = v := by
  rw [tableWord, Nat.mod_eq_of_lt v.isLt, BitVec.ofNat_toNat, BitVec.setWidth_eq]

theorem decodeTableWord_encode (i : Instr) : decodeTableWord 32 (encode i).toNat = some i := by
  have lanes : decodeBytes ((List.range 4).map (byteLane (encode i))) = .command i :=
    (decodeBytes_byteLane (encode i)).trans (decode_encode i)
  rw [decodeTableWord, tableWord_toNat, lanes, Decoded.command?]

theorem withFetchWord_toNat (s : State) (v : Word) : s.withFetchWord 32 v.toNat = loadCommand v s := by
  rw [State.withFetchWord, tableWord_toNat]

/-- At the engine's turn a busy engine's step is `exec` of its command, and then the turn is taken. -/
theorem step_of_exec {s t : State} {w : Word} {c : Cont} {i : Instr} (ho : ∀ a rest, s.order ≠ .host a :: rest)
    (hp : s.phase = .busy w c) (hd : decode w = .command i) (h : exec i s = .next t) : step s = .next (dropTurn t) := by
  rw [step_eq_engineTurn ho, engineTurn_busy hp, runWord_command hd, h, mapNext]

/-- Settles O15: `withFetchWord` accepts the command's word and puts one engine step in front of the order of steps. -/
theorem fetchedWordRunsNext : Obligations.FetchedWordRunsNext := by
  unfold Obligations.FetchedWordRunsNext
  intro s i
  rw [withFetchWord_toNat]
  have hp : (loadCommand (encode i) s).phase = .busy (encode i) .start := accept_phase _ s
  have ho : (loadCommand (encode i) s).order = .engine 1 :: s.turns := rfl
  refine ⟨decodeTableWord_encode i, hp, fun t ht => ?_, ?_⟩
  · have turns : t.turns = .engine 1 :: s.turns := exec_turns ht
    rw [step_of_exec (fun _ _ => ho ▸ nofun) hp (decode_encode i) ht, dropTurn, order_of_turns turns, List.tail_cons]
  · have answers := exec_next.mpr ⟨runs_of_start hp i, rfl⟩
    exact ⟨_, answers, exec_turns answers⟩

/-! ### Illegal words -/

/-- With one engine step or more an illegal word just accepted ends in its error (spec/30_encoding.md R92). -/
theorem repeatStep_illegalStep {s : State} {w : Word} (hp : s.phase = .busy w .start) (hg : 1 ≤ s.grant) :
    repeatStep s.grant (illegalStep w) s = raiseIllegal w s :=
  repeatStep_reached (m := 1) (atStart_start hp) rfl hg

/-- Settles O16: the word decodes to no command, so its engine's turn raises the error. -/
theorem illegalWordEndsInError : Obligations.IllegalWordEndsInError := by
  unfold Obligations.IllegalWordEndsInError
  intro s v hp ho hg hv
  have illegal : ∀ i, decode v ≠ .command i := by
    refine fun i h => ?_
    obtain ⟨hr, hop⟩ := decode_isCommand_iff.mp ⟨i, h⟩
    exact hv.elim (· hr) hop.not_gt
  rw [step_eq_engineTurn ho, engineTurn_busy hp, runWord_illegal illegal, repeatStep_illegalStep hp hg]
  rfl

/-! ### The size of a tree and of its stream -/

theorem Shape.count_add_one (T : Shape) : T.count + 1 = 2 * T.leafCount := by
  induction T with
  | leaf => rfl
  | node l r hl hr =>
    simp only [Shape.leafCount, Shape.symbols, Shape.count, List.length_append] at *
    omega

/-- A leaf takes 10 bits and an internal node 1 (spec/30_encoding.md R96). -/
theorem Shape.bits_length_add_one (T : Shape) : T.bits.length + 1 = 11 * T.leafCount := by
  induction T with
  | leaf sym => simp [Shape.bits, Shape.leafCount, Shape.symbols]
  | node l r hl hr =>
    simp only [Shape.leafCount, Shape.symbols, Shape.bits, List.length_cons, List.length_append] at *
    omega

theorem root_lt_nodes {s : State} {T : Shape} (h : s.treeIs T) : s.root.toNat < s.nodes.toNat := by
  obtain ⟨-, hperm, -⟩ := h
  exact List.mem_range.mp (hperm.mem_iff.mp Shape.entry_mem_entries)

/-- Settles O34: by induction on the tree; the arena's tree has NODES nodes and LEAVES leaves. -/
theorem serializedLength : Obligations.SerializedLength := by
  unfold Obligations.SerializedLength
  refine ⟨fun T => ⟨T.count_add_one, T.bits_length_add_one⟩, fun s T h => ?_⟩
  have hroot := root_lt_nodes h
  have hnodes := treeIs_count h
  obtain ⟨-, -, -, hleaves, -⟩ := h
  rw [← hnodes, hleaves]
  exact ⟨T.count_add_one, T.count_pos, hnodes ▸ hroot, T.bits_length_add_one⟩

/-! ### The ports of a command -/

/-- Items are taken from the head of an input queue, and counted modulo 2^32 (spec/10_state.md R41); none where the command
may not. -/
def Takes {α : Type} (may : Prop) (q q' : List α) (n n' : Word) : Prop :=
  ∃ p, q = p ++ q' ∧ n' = n + BitVec.ofNat 32 p.length ∧ (¬may → p = [])

/-- Items are appended at the tail of an output queue, and counted modulo 2^32; none where the command may not. -/
def Puts {α : Type} (may : Prop) (q q' : List α) (n n' : Word) : Prop :=
  ∃ p, q' = q ++ p ∧ n' = n + BitVec.ofNat 32 p.length ∧ (¬may → p = [])

section
variable {α : Type} {may : Prop} {q q' q'' : List α} {n n' n'' : Word}

theorem Takes.refl : Takes may q q n n := ⟨[], rfl, (BitVec.add_zero n).symm, fun _ => rfl⟩

theorem Takes.one (h : may) (x : α) : Takes may (x :: q) q n (n + 1) := ⟨[x], rfl, rfl, (absurd h ·)⟩

theorem Takes.trans (h : Takes may q q' n n') (k : Takes may q' q'' n' n'') : Takes may q q'' n n'' := by
  obtain ⟨p, rfl, rfl, hp⟩ := h
  obtain ⟨p', rfl, rfl, hp'⟩ := k
  exact ⟨p ++ p', (List.append_assoc ..).symm, count_append .., fun h => by rw [hp h, hp' h, List.append_nil]⟩

theorem Takes.kept (h : Takes may q q' n n') (hm : ¬may) : q' = q ∧ n' = n := by
  obtain ⟨p, rfl, rfl, hp⟩ := h
  rw [hp hm]
  exact ⟨rfl, BitVec.add_zero n⟩

theorem Takes.counted (h : Takes may q q' n n') : ∃ p, q = p ++ q' ∧ n' = n + BitVec.ofNat 32 p.length := by
  obtain ⟨p, hq, hn, -⟩ := h
  exact ⟨p, hq, hn⟩

theorem Puts.refl : Puts may q q n n := ⟨[], (List.append_nil q).symm, (BitVec.add_zero n).symm, fun _ => rfl⟩

theorem Puts.one (h : may) (x : α) : Puts may q (q ++ [x]) n (n + 1) := ⟨[x], rfl, rfl, (absurd h ·)⟩

theorem Puts.trans (h : Puts may q q' n n') (k : Puts may q' q'' n' n'') : Puts may q q'' n n'' := by
  obtain ⟨p, rfl, rfl, hp⟩ := h
  obtain ⟨p', rfl, rfl, hp'⟩ := k
  exact ⟨p ++ p', List.append_assoc .., count_append .., fun h => by rw [hp h, hp' h, List.append_nil]⟩

theorem Puts.kept (h : Puts may q q' n n') (hm : ¬may) : q' = q ∧ n' = n := by
  obtain ⟨p, rfl, rfl, hp⟩ := h
  rw [hp hm]
  exact ⟨List.append_nil q, BitVec.add_zero n⟩

theorem Puts.counted (h : Puts may q q' n n') : ∃ p, q' = q ++ p ∧ n' = n + BitVec.ofNat 32 p.length := by
  obtain ⟨p, hq, hn, -⟩ := h
  exact ⟨p, hq, hn⟩

end

/-- What command `i` does at the ports between `s` and `t`: transfers at its own ports alone (spec/30_encoding.md R93), each
counted. -/
structure MovesItems (i : Instr) (s t : State) : Prop where
  bi : Takes (i ∈ [Instr.deser, .dec, .magicChk]) s.biBits t.biBits s.biCount t.biCount
  yi : Takes (i = .enc) s.yiBytes t.yiBytes s.yiCount t.yiCount
  bo : Puts (i ∈ [Instr.ser, .enc, .magicWr]) s.boBits t.boBits s.boCount t.boCount
  yo : Puts (i = .dec) s.yoBytes t.yoBytes s.yoCount t.yoCount

theorem MovesItems.refl {i : Instr} (s : State) : MovesItems i s s := ⟨.refl, .refl, .refl, .refl⟩

theorem MovesItems.trans {i : Instr} {s t u : State} (h : MovesItems i s t) (k : MovesItems i t u) : MovesItems i s u :=
  ⟨h.bi.trans k.bi, h.yi.trans k.yi, h.bo.trans k.bo, h.yo.trans k.yo⟩

theorem Transfer.movesItems {i : Instr} {s t : State} (h : Transfer i s t) : MovesItems i s t := by
  cases h with
  | none => exact .refl s
  | readBit hi h =>
    obtain ⟨rest, hb, rfl⟩ := readBit_item.mp h
    exact { MovesItems.refl s with bi := hb ▸ .one hi _ }
  | readByte hi h =>
    obtain ⟨rest, hb, rfl⟩ := readByte_item.mp h
    exact { MovesItems.refl s with yi := hb ▸ .one hi _ }
  | writeBit hi h =>
    obtain ⟨-, rfl⟩ := writeBit_some.mp h
    exact { MovesItems.refl s with bo := .one hi _ }
  | writeByte hi h =>
    obtain ⟨-, rfl⟩ := writeByte_some.mp h
    exact { MovesItems.refl s with yo := .one hi _ }

theorem commandStep_movesItems (i : Instr) (s : State) : MovesItems i s (commandStep i s) := by
  obtain ⟨m, hm, hown⟩ := commandStep_acts i s
  rw [hown]
  exact { hm.movesItems with }

/-- Settles O51: every engine step transfers at the command's own ports and counts. -/
theorem commandsKeepOtherPorts : Obligations.CommandsKeepOtherPorts := by
  unfold Obligations.CommandsKeepOtherPorts
  intro i s t h
  have k := exec_keepsRel MovesItems.refl MovesItems.trans (commandStep_movesItems i) h
  exact ⟨k.bi.kept, k.yi.kept, k.bo.kept, k.yo.kept, k.bi.counted, k.yi.counted, k.bo.counted, k.yo.counted⟩

end Sys2Proof.Machine

/-! ## CLR_FREQ and BUILD: the family of spec/40_tree_build.md -/

namespace Sys2Proof.Machine

/-! ### Commands of one engine step -/

/-- A command that touches no port runs in the engine step after its acceptance, however many more are granted. -/
theorem exec_of_atStart {i : Instr} {f : State → State} {s : State} {w : Word} (hi : commandStep i = atStart f)
    (hidle : (f s).phase = .idle) (hp : s.phase = .busy w .start) (hg : 1 ≤ s.grant) : exec i s = .next (f s) :=
  exec_of_run (m := 1) hp (by rw [hi]; exact atStart_start hp) hidle hg

/-- Settles O25: the one engine step of CLR_FREQ stores the cleared registers. -/
theorem clrFreqClears : Obligations.ClrFreqClears := by
  unfold Obligations.ClrFreqClears
  intro s w hp hg
  exact ⟨freqZero, freqAt_freqZero,
    exec_of_atStart (f := fun s => complete { s with freq := freqZero }) rfl rfl hp hg⟩

theorem exec_build {s : State} {w : Word} (hp : s.phase = .busy w .start) (hg : 1 ≤ s.grant) :
    exec .build s = .next (complete (storeTree s)) :=
  exec_of_atStart (f := fun s => complete (storeTree s)) rfl rfl hp hg

theorem eq_of_exec_build {s t : State} {w : Word} (hp : s.phase = .busy w .start) (hg : 1 ≤ s.grant)
    (h : exec .build s = .next t) : t = complete (storeTree s) := by
  rw [exec_build hp hg, Host.Outcome.next.injEq] at h
  exact h.symm

/-! ### The list of entries BUILD makes -/

section
variable (f : FreqTable)

theorem buildLeaves_length : (buildLeaves f).length = (leafSymbols f).length := by
  rw [buildLeaves_eq, List.length_map]

theorem buildTree_length_add_one : (buildTree f).1.length + 1 = 2 * (leafSymbols f).length := by
  obtain ⟨-, -, -, hlen, -⟩ := buildTree_facts f
  exact hlen

theorem buildTree_length_le : (buildTree f).1.length ≤ Config.nodeCap := by
  have hlen := buildTree_length_add_one f
  have hsize := leafSymbols_length_le f
  show _ ≤ 513
  omega

/-- An index of ten bits names every entry BUILD makes. -/
theorem toNat_buildTree_index {k : Nat} (hk : k < (buildTree f).1.length) : (BitVec.ofNat 10 k).toNat = k := by
  have hcap : (buildTree f).1.length ≤ 513 := buildTree_length_le f
  rw [BitVec.toNat_ofNat]
  omega

theorem buildTree_mergesWell : MergesWell (buildTree f).1 := by
  obtain ⟨_, -, hinv, -⟩ := buildTree_facts f
  exact hinv.pp

theorem rootOf_buildTree_add_one : (rootOf (buildTree f).2).toNat + 1 = (buildTree f).1.length := by
  obtain ⟨e, hq, -, -, hlast, -⟩ := buildTree_facts f
  rw [hq]
  exact hlast

/-- The last queued weight is the sum of all leaf weights, since every merge keeps the sum of the queue
(spec/40_tree_build.md R127). -/
theorem weightIn_rootOf_buildTree : weightIn (buildTree f).1 (rootOf (buildTree f).2).toNat = freqSum f := by
  obtain ⟨e, hq, hinv, -⟩ := buildTree_facts f
  calc weightIn (buildTree f).1 (rootOf (buildTree f).2).toNat
      = weightIn (buildTree f).1 e.idx.toNat := by rw [hq]; rfl
    _ = e.weight.toNat := (hinv.wt e (List.mem_singleton_self e)).symm
    _ = queueSum [e] := by simp [queueSum]
    _ = freqSum f := hinv.sum

theorem buildTree_holdsLeafSet :
    ∃ T : Shape, heldIn (buildTree f).1 (rootOf (buildTree f).2).toNat T ∧ T.symbols.Perm (leafSymbols f) := by
  obtain ⟨e, hq, hinv, -⟩ := buildTree_facts f
  obtain ⟨ts, hts, -, hsyms⟩ := hinv.forest
  obtain ⟨T, rfl⟩ : ∃ T, ts = [T] := List.length_eq_one_iff.mp hts.length_eq.symm
  refine ⟨T, ?_, by simpa using hsyms⟩
  rw [hq]
  exact (List.forall₂_cons.mp hts).1

end

/-! ### The tree at an entry of an arena -/

/-- An entry of an arena holds one tree at most. -/
theorem Shape.heldAt_unique {a : Arena} {T U : Shape} {i : Idx} (hT : T.heldAt a i) (hU : U.heldAt a i) : T = U := by
  induction T generalizing U i with
  | leaf sym =>
    obtain ⟨w, e⟩ := hT
    cases U with
    | leaf sym' => obtain ⟨w', e'⟩ := hU; cases e.symm.trans e'; rfl
    | node l' r' => obtain ⟨_, _, _, e', -⟩ := hU; cases e.symm.trans e'
  | node l r ihl ihr =>
    obtain ⟨x, y, w, e, hl, hr⟩ := hT
    cases U with
    | leaf sym' => obtain ⟨w', e'⟩ := hU; cases e.symm.trans e'
    | node l' r' =>
      obtain ⟨_, _, _, e', hl', hr'⟩ := hU
      cases e.symm.trans e'
      rw [ihl hl hl', ihr hr hr']

/-! ### A state that holds BUILD's tree -/

/-- ROOT, NODES, LEAVES and the entries below NODES are those BUILD makes from the frequency registers `f`. -/
structure HoldsBuild (f : FreqTable) (t : State) : Prop where
  leaves : t.leaves.toNat = (leafSymbols f).length
  nodes : t.nodes.toNat = (buildTree f).1.length
  root : t.root = rootOf (buildTree f).2
  entries : ∀ k < (buildTree f).1.length, t.arena[k]? = (buildTree f).1[k]?

theorem storeTree_getElem?_of_le (s : State) {k : Nat} (h : (buildTree s.freq).1.length ≤ k) :
    (storeTree s).arena[k]? = s.arena[k]? := by
  rw [storeTree_arena, arenaStore_getElem?, if_neg]
  omega

theorem holdsBuild_complete_storeTree (s : State) : HoldsBuild s.freq (complete (storeTree s)) := by
  have hsize := leafSymbols_length_le s.freq
  have hcap : (buildTree s.freq).1.length ≤ 513 := buildTree_length_le s.freq
  refine ⟨?_, ?_, rfl, fun k hk => ?_⟩
  · rw [complete_leaves, storeTree_leaves, BitVec.toNat_ofNat, buildLeaves_length]
    omega
  · rw [complete_nodes, storeTree_nodes, BitVec.toNat_ofNat]
    omega
  · rw [complete_arena, storeTree_arena, arenaStore_getElem?,
      if_pos ⟨Nat.zero_le k, by omega, hk.trans_le hcap⟩, Nat.sub_zero]

theorem holdsBuild_of_exec {s t : State} {w : Word} (hp : s.phase = .busy w .start) (hg : 1 ≤ s.grant)
    (h : exec .build s = .next t) : HoldsBuild s.freq t := by
  rw [eq_of_exec_build hp hg h]
  exact holdsBuild_complete_storeTree s

namespace HoldsBuild

variable {f : FreqTable} {t : State} (h : HoldsBuild f t)
include h

theorem arenaAt_eq {i : Idx} (hi : i.toNat < (buildTree f).1.length) :
    arenaAt t.arena i = (buildTree f).1[i.toNat]?.getD Node.blank := by
  rw [arenaAt, h.entries _ hi]

theorem weight_eq {i : Idx} (hi : i.toNat < (buildTree f).1.length) :
    (arenaAt t.arena i).weight.toNat = weightIn (buildTree f).1 i.toNat := by
  rw [h.arenaAt_eq hi, weightIn]

theorem arenaAt_ofNat {k : Nat} {n : Node} (hn : (buildTree f).1[k]? = some n) :
    arenaAt t.arena (BitVec.ofNat 10 k) = n := by
  obtain ⟨hk, -⟩ := List.getElem?_eq_some_iff.mp hn
  have e := toNat_buildTree_index f hk
  rw [h.arenaAt_eq (e.symm ▸ hk), e, hn, Option.getD_some]

theorem queuedAt_iff {m k : Nat} (hm : m ≤ (buildTree f).1.length) :
    queuedAt t.arena m k ↔ queuedIn (buildTree f).1 m k := by
  refine and_congr_right fun _ => forall₂_congr fun j hj => ?_
  rw [h.entries j (hj.trans_le hm)]

theorem entryPrecedes_iff {x y : Nat} (hx : x < (buildTree f).1.length) (hy : y < (buildTree f).1.length) :
    entryPrecedes t.arena x y ↔ precedesIn (buildTree f).1 x y := by
  have ex := toNat_buildTree_index f hx
  have ey := toNat_buildTree_index f hy
  rw [entryPrecedes, h.weight_eq (by rwa [ex]), h.weight_eq (by rwa [ey]), ex, ey, precedesIn]

theorem buildTree_getElem? {m : Nat} {n : Node} (hm : m < t.nodes.toNat) (e : t.arena[m]? = some n) :
    (buildTree f).1[m]? = some n := by
  rw [← h.entries m (h.nodes ▸ hm), e]

end HoldsBuild

/-! ### The statements about BUILD -/

/-- Settles O26: BUILD ends in the one step it runs, with the sizes of the list of entries it makes. -/
theorem buildCompletes : Obligations.BuildCompletes := by
  unfold Obligations.BuildCompletes
  intro s w hp hg
  have h := holdsBuild_complete_storeTree s
  have hlen := buildTree_length_add_one s.freq
  have hroot := rootOf_buildTree_add_one s.freq
  refine ⟨_, exec_build hp hg, rfl, h.leaves, ?_, ?_, fun k hk => storeTree_getElem?_of_le s (h.nodes ▸ hk)⟩
  · rw [h.nodes, h.leaves]
    omega
  · rw [h.root, h.leaves]
    omega

/-- Settles O27: the leaf set begins the list of entries, and each merge appends an internal one. -/
theorem buildLeavesAscend : Obligations.BuildLeavesAscend := by
  unfold Obligations.BuildLeavesAscend
  intro s t w hp hg hx
  have h := holdsBuild_of_exec hp hg hx
  obtain ⟨_, -, -, -, -, hleaf, hint⟩ := buildTree_facts s.freq
  refine ⟨fun k hk => h.arenaAt_ofNat (hleaf k hk), fun k hk hkn => ?_⟩
  obtain ⟨l, r, x, e⟩ := hint k hk (h.nodes ▸ hkn)
  exact ⟨l, r, x, h.arenaAt_ofNat e⟩

/-- Settles O28: `MergesWell` says it of the list of entries, which the arena holds. -/
theorem buildMergesTwoLeast : Obligations.BuildMergesTwoLeast := by
  unfold Obligations.BuildMergesTwoLeast
  intro s t w hp hg hx m l r x hm e
  have h := holdsBuild_of_exec hp hg hx
  have hmn : m < (buildTree s.freq).1.length := h.nodes ▸ hm
  obtain ⟨hl, hr, hlr, hrest, -⟩ := buildTree_mergesWell s.freq m l r x (h.buildTree_getElem? hm e)
  have below {k : Nat} (hk : queuedIn (buildTree s.freq).1 m k) : k < (buildTree s.freq).1.length := hk.1.trans hmn
  refine ⟨(h.queuedAt_iff hmn.le).mpr hl, (h.queuedAt_iff hmn.le).mpr hr,
    (h.entryPrecedes_iff (below hl) (below hr)).mpr hlr, fun k hk hkl hkr => ?_⟩
  have hk := (h.queuedAt_iff hmn.le).mp hk
  exact (h.entryPrecedes_iff (below hr) (below hk)).mpr (hrest k hk hkl hkr)

/-- Settles O29: each merge adds its children's weights exactly, and keeps the sum of the queue, which at the end is ROOT's
weight. -/
theorem buildWeightsAreExactSums : Obligations.BuildWeightsAreExactSums := by
  unfold Obligations.BuildWeightsAreExactSums
  intro s t w hp hg hx
  have h := holdsBuild_of_exec hp hg hx
  refine ⟨fun m l r x hm e => ?_, ?_⟩
  · have hmn : m < (buildTree s.freq).1.length := h.nodes ▸ hm
    obtain ⟨hl, hr, -, -, hsum⟩ := buildTree_mergesWell s.freq m l r x (h.buildTree_getElem? hm e)
    rw [h.weight_eq (hl.1.trans hmn), h.weight_eq (hr.1.trans hmn), hsum]
  · have hroot := rootOf_buildTree_add_one s.freq
    rw [h.root, h.weight_eq (by omega), weightIn_rootOf_buildTree, freqSum]

/-- Settles O30: the one tree left in the queue, whose leaves are the leaf set, is the tree of R51 that ROOT holds. -/
theorem buildMakesTreeOfLeafSet : Obligations.BuildMakesTreeOfLeafSet := by
  unfold Obligations.BuildMakesTreeOfLeafSet
  intro s t w hp hg hx
  have h := holdsBuild_of_exec hp hg hx
  obtain ⟨T, hheld, hsyms⟩ := buildTree_holdsLeafSet s.freq
  have hat : T.heldAt t.arena t.root := (heldAt_of_heldIn h.entries (h.root ▸ hheld)).1
  obtain ⟨U, hU⟩ : ∃ U : Shape, t.treeIs U := eq_of_exec_build hp hg hx ▸ storeTree_treeIs s
  have ⟨hUat, _⟩ := hU
  have hTU : T = U := Shape.heldAt_unique hat hUat
  exact ⟨T, hTU ▸ hU, hsyms, hsyms.nodup_iff.mpr (leafSymbols_nodup s.freq)⟩

/-- Settles O31: acceptance keeps FREQ and the arena, and storing the same entries again changes nothing. -/
theorem buildIsRepeatable : Obligations.BuildIsRepeatable := by
  unfold Obligations.BuildIsRepeatable
  intro s t w hp hg hx
  rw [eq_of_exec_build hp hg hx]
  have ha := accept_tree (.inl (decode_encode .build)) (complete (storeTree s))
  refine ⟨rfl, _, exec_build (accept_phase _ _) ?_, ?_⟩
  · rwa [grant_congr (s := s) (by rw [ha]; rfl) (by rw [ha]; rfl)]
  · rw [ha]
    exact ⟨rfl, arenaStore_idem (buildTree s.freq).1 s.arena 0, rfl, rfl, rfl⟩

end Sys2Proof.Machine

/-! ## SER and DESER: the family of spec/41_tree_serdes.md -/

namespace Sys2Proof.Machine

/-! ### SER -/

/-- From its acceptance SER takes one engine step to the root's visit, those of the tree, and one to end. -/
theorem exec_ser {s : State} {w : Word} {T : Shape} (hp : s.phase = .busy w .start) (ht : s.treeValid = true)
    (hT : T.heldAt s.arena s.root) (hroom : s.boBits.length + T.bits.length ≤ s.depths.bo)
    (hg : T.bits.length + T.count + 2 ≤ s.grant) :
    exec .ser s = .next { s with
      phase := .idle, done := true, boBits := s.boBits ++ T.bits,
      boCount := s.boCount + BitVec.ofNat 32 T.bits.length } := by
  have begins : serStep s = { s with phase := .busy w (.ser [] [s.root]) } := by
    simp only [serStep, needTree, hp, ht, if_true, goTo_busy hp]
  have writes := serStep_tree s.root [] { s with phase := .busy w (.ser [] [s.root]) } w rfl hT hroom
  have run := ((Reach.one begins).trans writes).trans (Reach.one (f := serStep) rfl)
  exact exec_of_reach hp run rfl (by omega)

/-- Settles O33: by the run of SER over the tree held from ROOT. -/
theorem serWritesTree : Obligations.SerWritesTree := by
  unfold Obligations.SerWritesTree
  intro s w T
  exact exec_ser

/-! ### DESER and the recursion `ReadNode` -/

/-- From its acceptance DESER takes one engine step to `ReadNode`'s entry, those of the recursion, and one to end.
Any bound on the recursion of at least 514 will do. -/
theorem exec_deser {s : State} {w : Word} {k : Nat} {r : ReadResult} (hp : s.phase = .busy w .start) (hk : 514 ≤ k)
    (hr : readNode k 0 s.biBits = r) (heod : s.biEod = true ∨ ∀ rest, r ≠ .failed .truncated 0 rest)
    (hg : s.biBits.length - r.rest.length + 1030 ≤ s.grant) :
    ∃ a : Arena, exec .deser s = .next (deserOutcome s a r) ∧
      ∀ T n rest, r = .ok T n rest → arenaBlock a 0 (T.preorder 0) := by
  have begins : deserStep s = { s with phase := .busy w (.deser 0 0 .flag []) } := by
    simp only [deserStep, hp, goTo_busy hp]
  have reads := (deserStep_readNode k 0 0 [] { s with phase := .busy w (.deser 0 0 .flag []) } rfl (by omega)
    hk (hr ▸ heod)).2
  dsimp only at reads
  rw [hr] at reads
  cases r with
  | ok T n rest =>
    obtain ⟨-, hn, -, a, hblock, -, run⟩ := reads
    have ends : deserStep (deserReturning { s with phase := .busy w (.deser 0 0 .flag []) } w a 0 (BitVec.ofNat 10 n) 0
        T [] rest) = deserOutcome s a (.ok T n rest) := by
      simp [deserStep, deserReturning, deserReturn, deserEnd, complete, deserOutcome]
    refine ⟨a, exec_of_reach hp (((Reach.one begins).trans run).trans (Reach.one ends)) rfl ?_, ?_⟩
    · simp only [ReadResult.rest, Nat.sub_zero] at hg ⊢
      omega
    · rintro _ _ _ ⟨⟩
      exact hblock
  | failed e info rest =>
    obtain ⟨a, run⟩ := reads
    refine ⟨a, exec_of_reach hp ((Reach.one begins).trans run) rfl ?_, nofun⟩
    simp only [ReadResult.rest, Nat.sub_zero] at hg ⊢
    linarith

/-- Settles O35: by the runs of DESER over the recursion's calls. -/
theorem deserFollowsReadNode : Obligations.DeserFollowsReadNode := by
  unfold Obligations.DeserFollowsReadNode
  intro s w hp heod hg
  exact exec_deser hp le_rfl rfl heod hg

/-! ### What `ReadNode` answers -/

/-- The bits of a value, read as a number, are that value: both are what `ReadBits` accumulates. -/
theorem valueMsb_bitsMsb {n : Nat} (v : BitVec n) : valueMsb (bitsMsb v) = v.toNat := by
  have hlt := valueMsb_lt (bitsMsb v)
  have hread : (bitsMsb v).foldl shiftIn 0 = BitVec.ofNat n (valueMsb (bitsMsb v)) := foldl_shiftIn_ofNat _ 0
  rw [bitsMsb_length] at hlt
  rw [foldl_shiftIn_bitsMsb] at hread
  rw [congrArg BitVec.toNat hread, BitVec.toNat_ofNat, Nat.mod_eq_of_lt hlt]

section
variable {k n m m' : Nat} {l r : Shape} {q q' q'' : BitSeq} {e : ErrCode} {x : BitVec 9}

theorem readNode_full : readNode (k + 1) 513 q = .failed .treeOverflow 0 q := by
  rw [readNode.eq_def]
  exact if_pos rfl

theorem readNode_nil (hn : n < 513) : readNode (k + 1) n [] = .failed .truncated 0 [] := by
  rw [readNode, if_neg hn.ne]

theorem readNode_shortField (hn : n < 513) (hq : q.length < 9) :
    readNode (k + 1) n (false :: q) = .failed .truncated 0 [] := by
  simp only [readNode, if_neg hn.ne, if_pos hq]

theorem readNode_field (hn : n < 513) (v : Symbol) :
    readNode (k + 1) n (false :: (bitsMsb v ++ q)) =
      if 256#9 < v then .failed .badSymbol v q else .ok (.leaf v) (n + 1) q := by
  have hlen : ¬ (bitsMsb v ++ q).length < 9 := by simp
  have htake : (bitsMsb v ++ q).take 9 = bitsMsb v := List.take_left' (bitsMsb_length v)
  have hdrop : (bitsMsb v ++ q).drop 9 = q := List.drop_left' (bitsMsb_length v)
  simp only [readNode, if_neg hn.ne, if_neg hlen, htake, hdrop, valueMsb_bitsMsb, BitVec.ofNat_toNat,
    BitVec.setWidth_eq]
  rfl

theorem readNode_leftFails (hn : n < 513) (hl : readNode k (n + 1) q = .failed e x q') :
    readNode (k + 1) n (true :: q) = .failed e x q' := by
  simp only [readNode, if_neg hn.ne, hl]

theorem readNode_rightFails (hn : n < 513) (hl : readNode k (n + 1) q = .ok l m q')
    (hr : readNode k m q' = .failed e x q'') : readNode (k + 1) n (true :: q) = .failed e x q'' := by
  simp only [readNode, if_neg hn.ne, hl, hr]

theorem readNode_node (hn : n < 513) (hl : readNode k (n + 1) q = .ok l m q') (hr : readNode k m q' = .ok r m' q'') :
    readNode (k + 1) n (true :: q) = .ok (.node l r) m' q'' := by
  simp only [readNode, if_neg hn.ne, hl, hr]

/-- A failure after `j` internal flags is the failure of the whole. -/
theorem readNode_flags (j : Nat) (hn : n + j ≤ 513) (h : readNode k (n + j) q = .failed e x q') :
    readNode (k + j) n (List.replicate j true ++ q) = .failed e x q' := by
  induction j generalizing n with
  | zero => exact h
  | succ j ih => exact readNode_leftFails (by omega) (ih (by omega) (by rwa [Nat.add_right_comm]))

end

/-! ### `ReadNode` on the serialization of a tree -/

/-- `ReadNode` on the serialization of a tree that fits, whatever follows, reads that tree. -/
theorem readNode_bits {T : Shape} {k n : Nat} (z : BitSeq) (hc : n + T.count ≤ 513) (hk : 514 ≤ k + n)
    (hs : ∀ sym ∈ T.symbols, sym ≤ 256#9) : readNode k n (T.bits ++ z) = .ok T (n + T.count) z := by
  induction T generalizing k n z with
  | leaf sym =>
    rw [Shape.count] at hc
    obtain ⟨k, rfl⟩ := Nat.exists_eq_add_one.mpr (show 0 < k by omega)
    have hsym : ¬ 256#9 < sym := BitVec.not_lt.mpr (hs sym (List.mem_singleton_self sym))
    exact (readNode_field (by omega) sym).trans (if_neg hsym)
  | node l r ihl ihr =>
    rw [Shape.count] at hc
    obtain ⟨hsl, hsr⟩ := List.forall_mem_append.mp hs
    obtain ⟨k, rfl⟩ := Nat.exists_eq_add_one.mpr (show 0 < k by omega)
    have hl := ihl (k := k) (n := n + 1) (r.bits ++ z) (by omega) (by omega) hsl
    have hr := ihr (k := k) (n := n + 1 + l.count) z (by omega) (by omega) hsr
    simpa [Shape.bits, Shape.count, Nat.add_assoc] using readNode_node (by omega) hl hr

/-- A beginning of `x ++ y` is a proper beginning of `x`, or `x` and then a beginning of `y`. -/
theorem beginning_cases {p more x y : BitSeq} (h : p ++ more = x ++ y) :
    (∃ a, p ++ a = x ∧ a ≠ []) ∨ ∃ b, p = x ++ b ∧ b ++ more = y := by
  rcases List.append_eq_append_iff.mp h with ⟨a, hx, hm⟩ | ⟨b, hp, hy⟩
  · by_cases ha : a = []
    · subst ha
      exact .inr ⟨[], by simp [hx], hm⟩
    · exact .inl ⟨a, hx.symm, ha⟩
  · exact .inr ⟨b, hp, hy.symm⟩

/-- `ReadNode` on a proper beginning of the serialization of a tree that fits runs out of bits. -/
theorem readNode_beginning {T : Shape} {k n : Nat} {p more : BitSeq} (hp : p ++ more = T.bits) (hm : more ≠ [])
    (hc : n + T.count ≤ 513) (hk : 514 ≤ k + n) (hs : ∀ sym ∈ T.symbols, sym ≤ 256#9) :
    readNode k n p = .failed .truncated 0 [] := by
  induction T generalizing k n p more with
  | leaf sym =>
    rw [Shape.count] at hc
    obtain ⟨k, rfl⟩ := Nat.exists_eq_add_one.mpr (show 0 < k by omega)
    cases p with
    | nil => exact readNode_nil (by omega)
    | cons b q =>
      obtain ⟨rfl, hq⟩ := List.cons.inj hp
      have hlen : q.length + more.length = 9 := by
        rw [← List.length_append, ← bitsMsb_length sym]
        exact congrArg List.length hq
      have hpos := List.length_pos_iff.mpr hm
      exact readNode_shortField (by omega) (by omega)
  | node l r ihl ihr =>
    rw [Shape.count] at hc
    obtain ⟨hsl, hsr⟩ := List.forall_mem_append.mp hs
    obtain ⟨k, rfl⟩ := Nat.exists_eq_add_one.mpr (show 0 < k by omega)
    cases p with
    | nil => exact readNode_nil (by omega)
    | cons b q =>
      obtain ⟨rfl, hq⟩ := List.cons.inj hp
      rcases beginning_cases hq with ⟨a, hq, ha⟩ | ⟨p, rfl, hrest⟩
      · exact readNode_leftFails (by omega) (ihl hq ha (by omega) (by omega) hsl)
      · exact readNode_rightFails (by omega) (readNode_bits p (by omega) (by omega) hsl)
          (ihr hrest hm (by omega) (by omega) hsr)

/-! ### The statements about DESER -/

/-- DESER takes the bits before `ReadNode`'s failure, when the failure is not that the bits run out. -/
theorem exec_deser_fails {s : State} {w : Word} {k : Nat} {e : ErrCode} {info : BitVec 9} {p rest : BitSeq}
    (hp : s.phase = .busy w .start) (hb : s.biBits = p ++ rest) (hk : 514 ≤ k)
    (hr : readNode k 0 (p ++ rest) = .failed e info rest) (he : e ≠ .truncated) (hg : p.length + 1030 ≤ s.grant) :
    ∃ a : Arena, exec .deser s = .next { s with
      phase := .idle, done := true, err := true, errcode := e.number, errinfo := info, biBits := rest,
      biCount := s.biCount + BitVec.ofNat 32 p.length, root := 0, nodes := 0, leaves := 0, arena := a } := by
  have hlen : s.biBits.length - rest.length = p.length := by simp [hb]
  obtain ⟨a, run, -⟩ := exec_deser hp hk (hb ▸ hr) (.inr fun _ h => he (ReadResult.failed.inj h).1)
    (by rwa [ReadResult.rest, hlen])
  refine ⟨a, ?_⟩
  rw [run, ← hlen]
  rfl

/-- DESER with a serialized tree in BI takes its bits, and the tree stands in the arena in preorder. -/
theorem exec_deser_bits {s : State} {w : Word} {T : Shape} {rest : BitSeq} (hp : s.phase = .busy w .start)
    (hb : s.biBits = T.bits ++ rest) (hc : T.count ≤ 513) (hs : ∀ sym ∈ T.symbols, sym ≤ 256#9)
    (hg : T.bits.length + 1030 ≤ s.grant) :
    ∃ t : State, exec .deser s = .next t ∧
      t = { s with phase := .idle, done := true, treeValid := true, biBits := rest,
                   biCount := s.biCount + BitVec.ofNat 32 T.bits.length, root := 0, nodes := BitVec.ofNat 10 T.count,
                   leaves := BitVec.ofNat 10 T.leafCount, arena := t.arena } ∧
      arenaBlock t.arena 0 (T.preorder 0) ∧ t.treeIs T := by
  have hr : readNode 514 0 s.biBits = .ok T T.count rest := by
    rw [hb, readNode_bits rest (by omega) (by omega) hs, Nat.zero_add]
  have hlen : s.biBits.length - rest.length = T.bits.length := by simp [hb]
  obtain ⟨a, run, hblock⟩ := exec_deser hp le_rfl hr (.inr fun _ => nofun) (by rwa [ReadResult.rest, hlen])
  have hblock := hblock T _ rest rfl
  refine ⟨_, run, ?_, hblock, treeIs_of_arenaBlock hblock hc hs rfl rfl rfl⟩
  simp only [deserOutcome, hlen]

/-- Settles O36: `ReadNode` reads the tree, and a preorder block of the arena holds its tree. -/
theorem deserReadsSerializedTree : Obligations.DeserReadsSerializedTree := by
  unfold Obligations.DeserReadsSerializedTree
  intro s w T rest
  exact exec_deser_bits

/-- Settles O37: `ReadNode` runs out of bits, so all of them are taken. -/
theorem deserTruncatedStream : Obligations.DeserTruncatedStream := by
  unfold Obligations.DeserTruncatedStream
  intro s w T more hp he hm hb hc hs hg
  have hr : readNode 514 0 s.biBits = .failed .truncated 0 [] := readNode_beginning hb hm (by omega) (by omega) hs
  obtain ⟨a, run, -⟩ := exec_deser hp le_rfl hr (.inl he) hg
  exact ⟨a, run⟩

/-- Settles O38: `ReadNode` fails after the internal flags, at the field or at the 514th node. -/
theorem deserBadSymbolAndOverflow : Obligations.DeserBadSymbolAndOverflow := by
  unfold Obligations.DeserBadSymbolAndOverflow
  intro s w hp hg
  refine ⟨fun k v rest hk hv hb => ?_, fun rest hb => ?_⟩
  · have hfield : readNode (513 + 1) (0 + k) (false :: (bitsMsb v ++ rest)) = .failed .badSymbol v rest :=
      (readNode_field (by omega) v).trans (if_pos hv)
    have hr : readNode (513 + 1 + k) 0 (List.replicate k true ++ false :: bitsMsb v ++ rest) =
        .failed .badSymbol v rest := by
      rw [List.append_assoc]
      exact readNode_flags k (by omega) hfield
    have hlen : (List.replicate k true ++ false :: bitsMsb v).length = k + 10 := by simp
    rw [← bitsMsb_eq_range v] at hb
    rw [← hlen]
    exact exec_deser_fails hp hb (by omega) hr nofun (by omega)
  · have hfull : readNode (513 + 1) (0 + 513) rest = .failed .treeOverflow 0 rest := readNode_full
    have hlen : (List.replicate 513 true).length = 513 := List.length_replicate
    have run := exec_deser_fails hp hb (by omega) (readNode_flags 513 (by omega) hfull) nofun (by omega)
    rwa [hlen] at run

/-- A DESER accepted with a serialized tree in BI completes with that tree. -/
theorem exec_deser_accept {s : State} {T : Shape} {rest : BitSeq} (hb : s.biBits = T.bits ++ rest) (hc : T.count ≤ 513)
    (hs : ∀ sym ∈ T.symbols, sym ≤ 256#9) (hg : T.bits.length + 1030 ≤ s.grant) :
    ∃ u : State, exec .deser (accept (encode .deser) s) = .next u ∧ u.phase = .idle ∧ u.done = true ∧ u.err = false ∧
      u.treeValid = true ∧ u.treeIs T ∧ u.biBits = rest ∧ u.biCount = BitVec.ofNat 32 T.bits.length := by
  have ha := accept_tree (.inr (decode_encode .deser)) s
  have hgrant : (accept (encode .deser) s).grant = s.grant := grant_congr (by rw [ha]; rfl) (by rw [ha]; rfl)
  have hbits : (accept (encode .deser) s).biBits = T.bits ++ rest := by rw [ha]; exact hb
  have herr : (accept (encode .deser) s).err = false := by rw [ha]; rfl
  have hcount : (accept (encode .deser) s).biCount = 0 := by rw [ha]; rfl
  obtain ⟨u, run, hu, -, hT⟩ := exec_deser_bits (accept_phase _ s) hbits hc hs (hgrant ▸ hg)
  rw [herr, hcount, zero_add] at hu
  refine ⟨u, run, ?_, ?_, ?_, ?_, hT, ?_, ?_⟩ <;> rw [hu]

/-- Settles O39: SER writes the serialization, and DESER reads it into the arena again. -/
theorem serThenDeserRebuildsTree : Obligations.SerThenDeserRebuildsTree := by
  unfold Obligations.SerThenDeserRebuildsTree
  intro s t T w z hp ht hT hbo hroom hg hx
  have hnodes := treeIs_count hT
  have hcount := T.count_add_one
  have hbits := T.bits_length_add_one
  obtain ⟨hheld, -, hcap, -, hs⟩ := hT
  have hc : T.count ≤ 513 := hnodes.trans_le hcap
  have hser := exec_ser hp ht hheld (by rw [hbo, List.length_nil]; omega) (by omega)
  rw [hx, hbo, List.nil_append, Host.Outcome.next.injEq] at hser
  subst hser
  have hg' : T.bits.length + 1030 ≤ s.grant := by omega
  exact ⟨rfl, rfl, exec_deser_accept rfl hc hs hg'⟩

end Sys2Proof.Machine

/-! ## CODES, ENC, DEC: the family of spec/42_symbol_codec.md -/

namespace Sys2Proof.Machine

/-! ### Codewords -/

/-- The tree of R51 has at most NODE_CAP nodes. -/
theorem treeIs_count_le {s : State} {T : Shape} (h : s.treeIs T) : T.count ≤ 513 := by
  have hnodes := treeIs_count h
  obtain ⟨-, -, hcap, -⟩ := h
  exact hnodes.trans_le hcap

/-- No path of the tree of R51 has more than 256 choices (spec/42_symbol_codec.md R161). -/
theorem treeIs_depth_le {s : State} {T : Shape} (h : s.treeIs T) : T.depth ≤ 256 := by
  have hcount := treeIs_count_le h
  have hdepth := T.depth_lt_count
  omega

theorem Shape.codeOf_length_le {T : Shape} {sym : Symbol} {p : BitSeq} (h : T.codeOf sym = some p) :
    p.length ≤ T.depth := by
  have hpath := Shape.paths_length_le (Shape.codeOf_mem_paths h)
  rwa [List.length_nil, Nat.zero_add] at hpath

/-- Every symbol of the tree has a codeword. -/
theorem Shape.exists_codeOf {T : Shape} {sym : Symbol} (h : sym ∈ T.symbols) : ∃ p, T.codeOf sym = some p := by
  rw [← T.paths_symbols [], List.mem_map] at h
  obtain ⟨e, he, hsym⟩ := h
  have hmem : e ∈ (T.paths []).filter fun e => e.1 == sym := List.mem_filter.mpr ⟨he, beq_iff_eq.mpr hsym⟩
  exact ⟨_, congrArg (Option.map Prod.snd) (List.getLast?_eq_some_getLast (List.ne_nil_of_mem hmem))⟩

/-- A leaf alone has the empty codeword for its symbol, and no other. -/
theorem Shape.codeOf_leaf {x sym : Symbol} {p : BitSeq} (h : (Shape.leaf x).codeOf sym = some p) : x = sym ∧ p = [] := by
  have hpath := Shape.codeOf_mem_paths h
  rw [Shape.paths, List.mem_singleton, Prod.mk.injEq] at hpath
  exact ⟨hpath.1.symm, hpath.2⟩

theorem Shape.encode_cons {T : Shape} {b : Byte} {bs : List Byte} {p : BitSeq} :
    T.encode (b :: bs) = some p ↔
      ∃ c q, T.codeOf (symbolOfByte b) = some c ∧ T.encode bs = some q ∧ p = c ++ q := by
  rw [Shape.encode]
  split
  · rename_i c q hc hq
    simp [hc, hq, eq_comm]
  · rename_i hnone
    exact ⟨nofun, fun ⟨c, q, hc, hq, _⟩ => absurd hq (hnone c q hc)⟩

/-- Bytes that are symbols of the tree have a payload, of at most `T.depth` bits a byte. -/
theorem Shape.exists_encode {T : Shape} {bs : List Byte} (h : ∀ b ∈ bs, symbolOfByte b ∈ T.symbols) :
    ∃ p, T.encode bs = some p ∧ p.length ≤ T.depth * bs.length := by
  induction bs with
  | nil => exact ⟨[], rfl, Nat.zero_le _⟩
  | cons b bs ih =>
    obtain ⟨hb, hbs⟩ := List.forall_mem_cons.mp h
    obtain ⟨c, hc⟩ := Shape.exists_codeOf hb
    obtain ⟨q, hq, hlen⟩ := ih hbs
    have hclen := Shape.codeOf_length_le hc
    refine ⟨c ++ q, Shape.encode_cons.mpr ⟨c, q, hc, hq, rfl⟩, ?_⟩
    rw [List.length_append, List.length_cons, Nat.mul_succ]
    omega

/-- Settles O41: a tree of R51 has at most 256 choices on a path, and no path to a leaf begins another one. -/
theorem codewordsArePrefixFree : Obligations.CodewordsArePrefixFree := by
  unfold Obligations.CodewordsArePrefixFree
  intro s hctl htree hcodes hv x y p q hx hy
  obtain ⟨-, -, -, hvalid, -⟩ := hctl
  obtain ⟨T, hT⟩ := htree (hvalid hv)
  rw [hcodes hv T hT] at hx hy
  refine ⟨(Shape.codeOf_length_le hx).trans (treeIs_depth_le hT), fun hne hpre => hne ?_⟩
  exact congrArg Prod.fst
    (Shape.paths_prefix_eq (Shape.codeOf_mem_paths hx) (Shape.codeOf_mem_paths hy) hpre)

/-- The decoder's walk over a codeword, in a tree with a choice (spec/42_symbol_codec.md R175). -/
theorem Shape.decode_codeword {T : Shape} (hn : ∀ sym, T ≠ .leaf sym) {sym : Symbol} {c : BitSeq}
    (hc : T.codeOf sym = some c) (z : BitSeq) :
    T.decode (c ++ z) = if sym = Config.endSymbol then { bytes := [], atEnd := true, rest := z }
      else (T.decode z).cons (byteOfSymbol sym) := by
  obtain ⟨q, hq, hwalk⟩ := Shape.decodeFrom_of_path (t := T) (Shape.codeOf_mem_paths hc) hn z
  rw [List.nil_append] at hq
  rw [show c = q from hq]
  exact hwalk

/-- Settles O47: by induction on the bytes, one codeword's walk each, and END's walk last. -/
theorem decodeUndoesEncode : Obligations.DecodeUndoesEncode := by
  unfold Obligations.DecodeUndoesEncode
  intro T bs p e z hn hp he
  induction bs generalizing p with
  | nil =>
    obtain rfl : [] = p := Option.some.inj hp
    exact (Shape.decode_codeword hn he z).trans (if_pos rfl)
  | cons b bs ih =>
    obtain ⟨c, q, hc, hq, rfl⟩ := Shape.encode_cons.mp hp
    rw [List.append_assoc c, List.append_assoc c, Shape.decode_codeword hn hc, if_neg (symbolOfByte_ne_end b), ih q hq,
      byteOfSymbol_symbolOfByte, Decoding.cons]

/-! ### CODES -/

/-- With the tree of R51 in the arena `BuildCodes()` ends with that tree's table (spec/42_symbol_codec.md R160). -/
theorem needTree_withCodes {s : State} {T : Shape} (ht : s.treeValid = true) (hT : s.treeIs T) (f : State → State) :
    needTree (withCodes f) s = f { s with code := T.codeTable, codesValid := true } := by
  obtain ⟨c, hvisit, -, rfl⟩ := codeTableOf_of_treeIs hT
  simp only [needTree, ht, if_true, withCodes, hvisit]

/-- Settles O40: CODES ends in its one engine step with the tree's table. -/
theorem codesBuildsTable : Obligations.CodesBuildsTable := by
  unfold Obligations.CodesBuildsTable
  intro s w T hp hg ht hT
  have build := needTree_withCodes ht hT complete
  refine ⟨T.codeTable, codeAt_codeTable hT, ?_⟩
  rw [exec_of_atStart (f := needTree (withCodes complete)) rfl (by rw [build]; rfl) hp hg, build]
  rfl

/-! ### ENC -/

theorem encStep_of_start {s : State} {w : Word} (hp : s.phase = .busy w .start) :
    encStep s = needTree (withCodes encBegin) s := by
  simp only [encStep, hp]

/-- Settles O44: the first engine step builds the table and finds no entry for END. -/
theorem encNoEndCode : Obligations.EncNoEndCode := by
  unfold Obligations.EncNoEndCode
  intro s w T hp hg ht hT hend
  have hnone : codeAt T.codeTable Config.endSymbol = none := (codeAt_codeTable hT _).trans hend
  refine exec_of_run (m := 1) hp ?_ rfl hg
  calc encStep s = encBegin { s with code := T.codeTable, codesValid := true } :=
        (encStep_of_start hp).trans (needTree_withCodes ht hT encBegin)
    _ = raiseError .noEndCode 0 { s with code := T.codeTable, codesValid := true } := by simp only [encBegin, hnone]

/-- ENC between two codewords: the tree's code table stands, the bytes `n` are taken, the bits `p` written. -/
def encBetween (s : State) (w : Word) (T : Shape) (rest : List Byte) (n : Nat) (p : BitSeq) : State :=
  { s with
    phase := .busy w (.enc [] false), code := T.codeTable, codesValid := true, yiBytes := rest,
    yiCount := s.yiCount + BitVec.ofNat 32 n, boBits := s.boBits ++ p, boCount := s.boCount + BitVec.ofNat 32 p.length }

/-- From its acceptance ENC takes one engine step to build the table and two for each byte beside those for the bits. -/
theorem encStep_reaches_between {s : State} {w : Word} {T : Shape} {p e : BitSeq} {bs rest : List Byte}
    (hp : s.phase = .busy w .start) (ht : s.treeValid = true) (hT : s.treeIs T) (hend : T.codeOf 256#9 = some e)
    (hy : s.yiBytes = bs ++ rest) (henc : T.encode bs = some p) (hroom : s.boBits.length + p.length ≤ s.depths.bo) :
    Reach encStep (1 + (2 * bs.length + p.length)) s (encBetween s w T rest bs.length p) :=
  (Reach.one (encStep_start hp ht hT hend)).trans
    (encStep_bytes bs rest p _ w (codeAt_codeTable hT) rfl hy henc hroom)

/-- Between two codewords the end mark of YI, which stays in place, leads on to END's codeword. -/
theorem encStep_between_eod {s : State} {w : Word} {T : Shape} {n : Nat} {p e : BitSeq} (hT : s.treeIs T)
    (heod : s.yiEod = true) (hend : T.codeOf 256#9 = some e) :
    encStep (encBetween s w T [] n p) = { encBetween s w T [] n p with phase := .busy w (.enc e true) } := by
  have hread : readByte (encBetween s w T [] n p) = .eod := readByte_eod.mpr ⟨rfl, heod⟩
  have hcode : codeAt (encBetween s w T [] n p).code Config.endSymbol = some e := (codeAt_codeTable hT _).trans hend
  calc encStep (encBetween s w T [] n p) = encNext (encBetween s w T [] n p) := rfl
    _ = goTo (.enc e true) (encBetween s w T [] n p) := by simp only [encNext, hread, hcode, Option.getD_some]

/-- Between two codewords a byte of YI is taken. -/
theorem encStep_between_byte {s : State} {w : Word} {T : Shape} {rest : List Byte} {n : Nat} {p : BitSeq} (x : Byte) :
    encStep (encBetween s w T (x :: rest) n p) =
      { encBetween s w T rest (n + 1) p with phase := .busy w (.encByte x) } := by
  have hcount : s.yiCount + BitVec.ofNat 32 n + 1 = s.yiCount + BitVec.ofNat 32 (n + 1) := by
    rw [BitVec.ofNat_add, BitVec.add_assoc]
    rfl
  rw [encBetween, encBetween, ← hcount]
  rfl

/-- The look-up of a byte without a codeword ends the command (spec/42_symbol_codec.md R168). -/
theorem encStep_noCode {s : State} {w : Word} {T : Shape} {rest : List Byte} {n : Nat} {p : BitSeq} {x : Byte}
    (hT : s.treeIs T) (hx : T.codeOf (symbolOfByte x) = none) :
    encStep { encBetween s w T rest n p with phase := .busy w (.encByte x) } =
      raiseError .noCode (symbolOfByte x) (encBetween s w T rest n p) := by
  have hnone : codeAt T.codeTable (symbolOfByte x) = none := (codeAt_codeTable hT _).trans hx
  show encLookup x { encBetween s w T rest n p with phase := .busy w (.encByte x) } = _
  simp only [encLookup, encBetween, hnone]
  rfl

/-- From its acceptance ENC takes, beside the steps for the bytes, one for the end mark, one for each bit of END's codeword
and one to end. -/
theorem exec_enc {s : State} {w : Word} {T : Shape} {p e : BitSeq} (hp : s.phase = .busy w .start)
    (ht : s.treeValid = true) (hT : s.treeIs T) (heod : s.yiEod = true) (henc : T.encode s.yiBytes = some p)
    (hend : T.codeOf 256#9 = some e) (hroom : s.boBits.length + (p ++ e).length ≤ s.depths.bo)
    (hg : 2 * s.yiBytes.length + (p ++ e).length + 3 ≤ s.grant) :
    exec .enc s = .next { s with
      phase := .idle, done := true, code := T.codeTable, codesValid := true, yiBytes := [],
      yiCount := s.yiCount + BitVec.ofNat 32 s.yiBytes.length, boBits := s.boBits ++ (p ++ e),
      boCount := s.boCount + BitVec.ofNat 32 (p ++ e).length } := by
  rw [List.length_append] at hroom hg
  have bytes := encStep_reaches_between hp ht hT hend (List.append_nil _).symm henc (by omega)
  have endBits := encStep_bits e true
    { encBetween s w T [] s.yiBytes.length p with phase := .busy w (.enc e true) } w rfl (by
      show (s.boBits ++ p).length + e.length ≤ s.depths.bo
      rw [List.length_append]
      omega)
  have run := ((bytes.trans (Reach.one (encStep_between_eod hT heod hend))).trans endBits).trans
    (Reach.one (f := encStep) rfl)
  rw [← List.append_assoc, ← count_append]
  exact exec_of_reach (i := .enc) hp run rfl (by omega)

/-- Settles O42: by the run of ENC over the bytes and END's codeword. -/
theorem encWritesPayload : Obligations.EncWritesPayload := by
  unfold Obligations.EncWritesPayload
  intro s w T p e
  exact exec_enc

/-- Settles O43: after the bytes before it, the byte without a codeword is taken, and its look-up ends the command. -/
theorem encNoCode : Obligations.EncNoCode := by
  unfold Obligations.EncNoCode
  intro s w T p e bs rest x hp ht hT hend hy henc hx hroom hg
  have bytes := encStep_reaches_between hp ht hT hend hy henc hroom
  have run := (bytes.trans (Reach.one (encStep_between_byte x))).trans (Reach.one (encStep_noCode hT hx))
  exact exec_of_reach (i := .enc) hp run rfl (by omega)

/-! ### DEC -/

theorem decStep_of_start {s : State} {w : Word} (hp : s.phase = .busy w .start) (ht : s.treeValid = true) :
    decStep s = decBegin s := by
  simp only [decStep, hp, needTree, ht, if_true]

/-- DEC on the leaf END at ROOT (spec/42_symbol_codec.md R176). -/
theorem exec_dec_endRoot {s : State} {w : Word} {x : Weight} (hp : s.phase = .busy w .start) (hg : 1 ≤ s.grant)
    (ht : s.treeValid = true) (hroot : arenaAt s.arena s.root = .leaf 256#9 x) :
    exec .dec s = .next { s with phase := .idle, done := true, endSeen := true } := by
  refine exec_of_run (m := 1) hp ?_ rfl hg
  calc decStep s = decBegin s := decStep_of_start hp ht
    _ = decEnd s := by simp only [decBegin, hroot, if_true]

/-- DEC on another leaf at ROOT (spec/42_symbol_codec.md R176). -/
theorem exec_dec_badRoot {s : State} {w : Word} {sym : Symbol} {x : Weight} (hp : s.phase = .busy w .start)
    (hg : 1 ≤ s.grant) (ht : s.treeValid = true) (hroot : arenaAt s.arena s.root = .leaf sym x) (hsym : sym ≠ 256#9) :
    exec .dec s = .next { s with phase := .idle, done := true, err := true, errcode := 9, errinfo := sym } := by
  refine exec_of_run (m := 1) hp ?_ rfl hg
  calc decStep s = decBegin s := decStep_of_start hp ht
    _ = raiseError .badRoot sym s := by simp only [decBegin, hroot, if_neg hsym]

/-- Settles O46: DEC looks at ROOT before it reads a bit. -/
theorem decDegenerateRoot : Obligations.DecDegenerateRoot := by
  unfold Obligations.DecDegenerateRoot
  intro s w sym x hp hg ht hroot
  exact ⟨fun h => exec_dec_endRoot hp hg ht (h ▸ hroot), exec_dec_badRoot hp hg ht hroot⟩

/-- From its acceptance DEC takes one engine step to the root, and then those of its walks. -/
theorem exec_dec {s : State} {w : Word} {T : Shape} (hp : s.phase = .busy w .start) (ht : s.treeValid = true)
    (hT : T.heldAt s.arena s.root) (hn : ∀ sym, T ≠ .leaf sym)
    (hstop : (T.decode s.biBits).atEnd = true ∨ s.biEod = true)
    (hroom : s.yoBytes.length + (T.decode s.biBits).bytes.length ≤ s.depths.yo)
    (hg : 2 * (s.biBits.length - (T.decode s.biBits).rest.length) + 3 ≤ s.grant) :
    exec .dec s = .next { s with
      phase := .idle, done := true, endSeen := s.endSeen || (T.decode s.biBits).atEnd, biBits := (T.decode s.biBits).rest,
      biCount := s.biCount + BitVec.ofNat 32 (s.biBits.length - (T.decode s.biBits).rest.length),
      yoBytes := s.yoBytes ++ (T.decode s.biBits).bytes,
      yoCount := s.yoCount + BitVec.ofNat 32 (T.decode s.biBits).bytes.length } := by
  have begins : decStep s = { s with phase := .busy w (.dec s.root) } := by
    cases T with
    | leaf sym => exact absurd rfl (hn sym)
    | node l r =>
      obtain ⟨_, _, _, hroot, -⟩ := hT
      rw [decStep_of_start hp ht, decBegin]
      simp only [hroot, goTo_busy hp]
  have walks := (decStep_walks (T := T) s.biBits.length T s.root { s with phase := .busy w (.dec s.root) } rfl hT hT hn hn
    le_rfl hstop hroom).2
  refine exec_of_reach hp ((Reach.one begins).trans walks) rfl ?_
  unfold Shape.decode at hg
  simp only
  omega

/-- Settles O45: by the run of DEC over the decoder's walks. -/
theorem decWritesDecodedBytes : Obligations.DecWritesDecodedBytes := by
  unfold Obligations.DecWritesDecodedBytes
  intro s w T hp ht hT hn hstop hroom hg
  obtain ⟨hheld, -⟩ := hT
  exact exec_dec hp ht hheld hn hstop hroom hg

/-! ### The round trip -/

/-- A byte with a non-zero FREQ is a symbol of the leaf set (spec/40_tree_build.md R121). -/
theorem symbolOfByte_mem_leafSymbols {f : FreqTable} {b : Byte} (h : freqAt f b ≠ 0) : symbolOfByte b ∈ leafSymbols f := by
  have hfreq : f[b.toNat]?.getD 0 ≠ 0 := by rwa [Vector.getElem?_eq_getElem b.isLt, Option.getD_some]
  refine List.mem_append_left _ (List.mem_map.mpr ⟨b.toNat, ?_, BitVec.ofNat_toNat 9 b⟩)
  exact List.mem_filter.mpr ⟨List.mem_range.mpr b.isLt, bne_iff_ne.mpr hfreq⟩

/-- END is a symbol of the leaf set (spec/40_tree_build.md R122). -/
theorem endSymbol_mem_leafSymbols (f : FreqTable) : 256#9 ∈ leafSymbols f :=
  List.mem_append_right _ (List.mem_singleton_self _)

/-- Bytes that are symbols of the tree of R51, END being one too, have a payload, of at most 256 bits a codeword. -/
theorem exists_payload {s : State} {T : Shape} {bs : List Byte} (hT : s.treeIs T)
    (hbs : ∀ b ∈ bs, symbolOfByte b ∈ T.symbols) (hend : 256#9 ∈ T.symbols) :
    ∃ p e, T.encode bs = some p ∧ T.codeOf 256#9 = some e ∧ (p ++ e).length ≤ 256 * (bs.length + 1) := by
  obtain ⟨p, hp, hplen⟩ := Shape.exists_encode hbs
  obtain ⟨e, he⟩ := Shape.exists_codeOf hend
  refine ⟨p, e, hp, he, ?_⟩
  calc (p ++ e).length = p.length + e.length := List.length_append
    _ ≤ T.depth * bs.length + T.depth := Nat.add_le_add hplen (Shape.codeOf_length_le he)
    _ = T.depth * (bs.length + 1) := (Nat.mul_succ ..).symm
    _ ≤ 256 * (bs.length + 1) := Nat.mul_le_mul_right _ (treeIs_depth_le hT)

/-- DEC on a payload followed by anything, also with the leaf END at ROOT, whose payload is empty. -/
theorem exec_dec_payload {s : State} {w : Word} {T : Shape} {bs : List Byte} {p e z : BitSeq}
    (hp : s.phase = .busy w .start) (ht : s.treeValid = true) (hT : T.heldAt s.arena s.root)
    (henc : T.encode bs = some p) (hend : T.codeOf 256#9 = some e) (hb : s.biBits = p ++ e ++ z)
    (hroom : s.yoBytes.length + bs.length ≤ s.depths.yo) (hg : 2 * (p ++ e).length + 3 ≤ s.grant) :
    exec .dec s = .next { s with
      phase := .idle, done := true, endSeen := true, biBits := z,
      biCount := s.biCount + BitVec.ofNat 32 (p ++ e).length, yoBytes := s.yoBytes ++ bs,
      yoCount := s.yoCount + BitVec.ofNat 32 bs.length } := by
  cases T with
  | leaf x =>
    obtain ⟨rfl, rfl⟩ := Shape.codeOf_leaf hend
    obtain ⟨wt, hroot⟩ := hT
    cases bs with
    | nil =>
      obtain rfl : [] = p := Option.some.inj henc
      obtain rfl : s.biBits = z := hb
      rw [exec_dec_endRoot hp (by omega) ht hroot]
      simp
    | cons b bs =>
      obtain ⟨c, q, hc, -, -⟩ := Shape.encode_cons.mp henc
      exact absurd (Shape.codeOf_leaf hc).1.symm (symbolOfByte_ne_end b)
  | node l r =>
    have hdec : (Shape.node l r).decode s.biBits = { bytes := bs, atEnd := true, rest := z } :=
      hb ▸ decodeUndoesEncode _ bs p e z nofun henc hend
    have hlen : s.biBits.length - z.length = (p ++ e).length := by rw [hb, List.length_append, Nat.add_sub_cancel]
    have run := exec_dec hp ht hT nofun (.inl (by rw [hdec])) (by rwa [hdec]) (by rwa [hdec, hlen])
    rw [run]
    simp only [hdec, hlen, Bool.or_true]

/-- Acceptance keeps the capacities, the steps granted and YO. -/
theorem accept_keeps (v : Word) (s : State) :
    (accept v s).depths = s.depths ∧ (accept v s).grant = s.grant ∧ (accept v s).yoBytes = s.yoBytes := by
  rcases accept_cases v s with ⟨-, e⟩ | ⟨-, e⟩ <;> rw [e] <;> exact ⟨rfl, rfl, rfl⟩

/-- A command accepted and run keeps the capacities and the steps granted, and YO but for DEC. -/
theorem exec_accept_keeps {i : Instr} {s u : State} {d : Depths} {g : Nat} {q : List Byte}
    (h : exec i (accept (encode i) s) = .next u) (hi : i ≠ .dec) (hd : s.depths = d) (hg : s.grant = g)
    (hq : s.yoBytes = q) : u.depths = d ∧ u.grant = g ∧ u.yoBytes = q := by
  obtain ⟨adepths, agrant, ayo⟩ := accept_keeps (encode i) s
  obtain ⟨-, -, -, -, -, -, -, -, kdepths, kturns, kcycle, -⟩ := commandsKeepHostRegisters i _ u h
  obtain ⟨-, -, -, kyo, -⟩ := commandsKeepOtherPorts i _ u h
  exact ⟨(kdepths.trans adepths).trans hd, ((grant_congr kturns kcycle).trans agrant).trans hg,
    ((kyo hi).1.trans ayo).trans hq⟩

/-- The acceptance of a command that does not replace the tree. -/
theorem accept_encode_of_keeps {i : Instr} (hb : i ≠ .build) (hd : i ≠ .deser) (s : State) :
    accept (encode i) s = { acceptFlags s with cmdLast := encode i, phase := .busy (encode i) .start } := by
  refine accept_other (fun h => hb ?_) (fun h => hd ?_) s <;>
    exact Decoded.command.inj ((decode_encode i).symm.trans h)

/-- A BUILD accepted completes with a tree of the leaf set (spec/40_tree_build.md R128). -/
theorem exec_build_accept {s : State} (hg : 1 ≤ s.grant) :
    ∃ (u : State) (T : Shape), exec .build (accept (encode .build) s) = .next u ∧ u.endedWell ∧ u.treeValid = true ∧
      u.treeIs T ∧ T.symbols.Perm (leafSymbols s.freq) := by
  have hp := accept_phase (encode .build) s
  obtain ⟨-, agrant, -⟩ := accept_keeps (encode .build) s
  have hgrant := hg.trans_eq agrant.symm
  have run := exec_build hp hgrant
  obtain ⟨T, hT, hsyms, -⟩ := buildMakesTreeOfLeafSet _ _ _ hp hgrant run
  rw [accept_freq] at hsyms
  refine ⟨_, T, run, ⟨rfl, rfl, ?_⟩, rfl, hT, hsyms⟩
  show (accept (encode .build) s).err = false
  rw [accept_tree (.inl (decode_encode .build))]
  rfl

/-- A SER accepted with BO empty completes with the serialized tree in BO, and keeps the tree. -/
theorem exec_ser_accept {s : State} {T : Shape} (ht : s.treeValid = true) (hT : s.treeIs T) (hbo : s.boBits = [])
    (hroom : T.bits.length ≤ s.depths.bo) (hg : T.bits.length + T.count + 2 ≤ s.grant) :
    ∃ u : State, exec .ser (accept (encode .ser) s) = .next u ∧ u.endedWell ∧ u.treeValid = true ∧ u.treeIs T ∧
      u.boBits = T.bits := by
  obtain ⟨hheld, -⟩ := id hT
  rw [accept_encode_of_keeps (i := .ser) nofun nofun]
  refine ⟨_, exec_ser rfl ht hheld ?_ hg, ⟨rfl, rfl, rfl⟩, ht, hT, ?_⟩
  · show s.boBits.length + T.bits.length ≤ s.depths.bo
    rwa [hbo, List.length_nil, Nat.zero_add]
  · show s.boBits ++ T.bits = T.bits
    rw [hbo, List.nil_append]

/-- An ENC accepted with BO empty and the bytes and the end mark in YI completes with their payload in BO. -/
theorem exec_enc_accept {s : State} {T : Shape} {p e : BitSeq} (ht : s.treeValid = true) (hT : s.treeIs T)
    (hbo : s.boBits = []) (heod : s.yiEod = true) (henc : T.encode s.yiBytes = some p) (hend : T.codeOf 256#9 = some e)
    (hroom : (p ++ e).length ≤ s.depths.bo) (hg : 2 * s.yiBytes.length + (p ++ e).length + 3 ≤ s.grant) :
    ∃ u : State, exec .enc (accept (encode .enc) s) = .next u ∧ u.endedWell ∧ u.boBits = p ++ e := by
  rw [accept_encode_of_keeps (i := .enc) nofun nofun]
  refine ⟨_, exec_enc (T := T) rfl ht hT heod henc hend ?_ hg, ⟨rfl, rfl, rfl⟩, ?_⟩
  · show s.boBits.length + (p ++ e).length ≤ s.depths.bo
    rwa [hbo, List.length_nil, Nat.zero_add]
  · show s.boBits ++ (p ++ e) = p ++ e
    rw [hbo, List.nil_append]

/-- A DEC accepted with a payload in BI completes with its bytes and sees END. -/
theorem exec_dec_accept {s : State} {T : Shape} {bs : List Byte} {p e z : BitSeq} (ht : s.treeValid = true)
    (hT : s.treeIs T) (henc : T.encode bs = some p) (hend : T.codeOf 256#9 = some e) (hb : s.biBits = p ++ e ++ z)
    (hroom : s.yoBytes.length + bs.length ≤ s.depths.yo) (hg : 2 * (p ++ e).length + 3 ≤ s.grant) :
    ∃ u : State, exec .dec (accept (encode .dec) s) = .next u ∧ u.endedWell ∧ u.endSeen = true ∧
      u.yoBytes = s.yoBytes ++ bs ∧ u.biBits = z ∧ u.biCount = BitVec.ofNat 32 (p ++ e).length := by
  obtain ⟨hheld, -⟩ := hT
  rw [accept_encode_of_keeps (i := .dec) nofun nofun]
  exact ⟨_, exec_dec_payload rfl ht hheld henc hend hb hroom hg, ⟨rfl, rfl, rfl⟩, rfl, rfl, rfl, BitVec.zero_add _⟩

/-- Settles O48: the tree that BUILD makes has a codeword for every byte and for END; SER's bits give the tree back, and ENC's
bits over it the bytes. -/
theorem buildEncodeDecodeRoundTrip : Obligations.BuildEncodeDecodeRoundTrip := by
  unfold Obligations.BuildEncodeDecodeRoundTrip
  intro s bs z _ hfreq hser henc hyo hg
  obtain ⟨s1, T, x1, ⟨idle1, -, err1⟩, ht1, hT1, hsyms⟩ := exec_build_accept (s := s) (by omega)
  obtain ⟨d1, g1, y1⟩ := exec_accept_keeps x1 nofun rfl rfl rfl
  obtain ⟨p, e, hp, he, payload⟩ := exists_payload hT1
    (fun b hb => hsyms.mem_iff.mpr (symbolOfByte_mem_leafSymbols (hfreq b hb)))
    (hsyms.mem_iff.mpr (endSymbol_mem_leafSymbols s.freq))
  have hcount := treeIs_count_le hT1
  have hbits : T.bits.length ≤ 2826 := by
    have hleaves := T.count_add_one
    have hlength := T.bits_length_add_one
    omega
  obtain ⟨-, -, -, -, hsym⟩ := id hT1
  obtain ⟨s2, x2, ⟨idle2, -, err2⟩, ht2, hT2, hbo2⟩ := exec_ser_accept (s := { s1 with boBits := [] }) ht1 hT1 rfl
    (hbits.trans (d1 ▸ hser)) (show _ ≤ s1.grant by omega)
  obtain ⟨d2, g2, y2⟩ := exec_accept_keeps x2 nofun d1 g1 y1
  obtain ⟨s3, x3, ⟨idle3, -, err3⟩, hbo3⟩ := exec_enc_accept (s := { s2 with boBits := [], yiBytes := bs, yiEod := true })
    ht2 hT2 rfl rfl hp he (payload.trans (d2 ▸ henc)) (show 2 * bs.length + _ + 3 ≤ s2.grant by omega)
  obtain ⟨d3, g3, y3⟩ := exec_accept_keeps x3 nofun d2 g2 y2
  obtain ⟨s4, x4, idle4, -, err4, ht4, hT4, hbi4, hcount4⟩ := exec_deser_accept
    (s := { s3 with biBits := s2.boBits ++ s3.boBits ++ z }) (T := T) (rest := s3.boBits ++ z)
    (by rw [hbo2]; exact List.append_assoc ..) hcount hsym (show _ ≤ s3.grant by omega)
  obtain ⟨d4, g4, y4⟩ := exec_accept_keeps x4 nofun d3 g3 y3
  obtain ⟨s5, x5, ⟨idle5, -, err5⟩, hend5, hyo5, hbi5, hcount5⟩ := exec_dec_accept ht4 hT4 hp he (hbo3 ▸ hbi4)
    (by rw [y4, d4]; exact hyo) (by omega)
  exact ⟨s1, s2, s3, s4, s5, x1, x2, x3, x4, x5, ⟨idle1, idle2, idle3, idle4, idle5⟩, ⟨err1, err2, err3, err4, err5⟩,
    y4 ▸ hyo5, hend5, hbi5, hbo2 ▸ hcount4, hbo3 ▸ hcount5⟩

end Sys2Proof.Machine

/-! ## NOP, MAGIC_WR, MAGIC_CHK: the family of spec/43_container_control.md -/

namespace Sys2Proof.Machine

/-! ### NOP and MAGIC_WR -/

/-- Settles O21: the one engine step of NOP is the completion. -/
theorem nopCompletes : Obligations.NopCompletes := by
  unfold Obligations.NopCompletes
  intro s w hp hg
  exact exec_of_atStart (f := complete) rfl rfl hp hg

/-- From its acceptance MAGIC_WR takes one engine step to the bits of MAGIC, one for each of them, and one to end. -/
theorem exec_magicWr {s : State} {w : Word} (hp : s.phase = .busy w .start) (hroom : s.boBits.length + 32 ≤ s.depths.bo)
    (hg : 34 ≤ s.grant) :
    exec .magicWr s = .next { s with
      phase := .idle, done := true, boBits := s.boBits ++ bitsMsb s.magic, boCount := s.boCount + 32 } := by
  have begins : magicWrStep s = { s with phase := .busy w (.magicWr (bitsMsb s.magic)) } := by
    simp only [magicWrStep, hp, goTo_busy hp]
  have writes := magicWrStep_bits (bitsMsb s.magic) { s with phase := .busy w (.magicWr (bitsMsb s.magic)) } w rfl
    (by rwa [bitsMsb_length])
  rw [bitsMsb_length] at writes
  have run := ((Reach.one begins).trans ⟨32, le_rfl, writes⟩).trans (Reach.one (f := magicWrStep) rfl)
  exact exec_of_reach hp run rfl hg

/-- Settles O22: the bits that MAGIC_WR writes are those of MAGIC from bit 31 to bit 0. -/
theorem magicWrWritesMagic : Obligations.MagicWrWritesMagic := by
  unfold Obligations.MagicWrWritesMagic
  intro s w hp hroom hg
  rw [exec_magicWr hp hroom hg, bitsMsb_eq_range]

/-! ### MAGIC_CHK -/

/-- From its acceptance MAGIC_CHK takes one engine step to the read of 32 bits, and one for each bit `p` it reads. -/
theorem magicChkStep_reads {s : State} {w : Word} {p rest : BitSeq} {k : Nat} (hp : s.phase = .busy w .start)
    (hb : s.biBits = p ++ rest) (hk : p.length + k = 32) :
    Reach magicChkStep (1 + p.length) s { s with
      phase := .busy w (.magicChk (p.foldl shiftIn 0) k), biBits := rest,
      biCount := s.biCount + BitVec.ofNat 32 p.length } := by
  have begins : magicChkStep s = { s with phase := .busy w (.magicChk 0 32) } := by
    simp only [magicChkStep, hp, goTo_busy hp]
  exact (Reach.one begins).trans
    ⟨p.length, le_rfl, magicChkStep_bits p rest { s with phase := .busy w (.magicChk 0 32) } w 0 k (by rw [hk]) hb⟩

/-- MAGIC_CHK with 32 bits in BI takes them and then compares their value with MAGIC (R194). -/
theorem exec_magicChk_word {s : State} {w : Word} {p rest : BitSeq} (hp : s.phase = .busy w .start)
    (hb : s.biBits = p ++ rest) (hlen : p.length = 32) (hg : 34 ≤ s.grant) :
    exec .magicChk s = .next
      (if p.foldl shiftIn 0 = s.magic then
        { s with phase := .idle, done := true, biBits := rest, biCount := s.biCount + 32 }
      else
        { s with phase := .idle, done := true, biBits := rest, biCount := s.biCount + 32, err := true, errcode := 3,
                 errinfo := 0 }) := by
  have reads := magicChkStep_reads (k := 0) hp hb hlen
  rw [hlen] at reads
  have run := reads.trans (Reach.one (f := magicChkStep) rfl)
  exact exec_of_reach hp run (by split <;> rfl) hg

/-- MAGIC_CHK with fewer than 32 bits before the end mark takes them all and ends in FORMAT (R195). -/
theorem exec_magicChk_short {s : State} {w : Word} (hp : s.phase = .busy w .start) (hlen : s.biBits.length < 32)
    (heod : s.biEod = true) (hg : 34 ≤ s.grant) :
    exec .magicChk s = .next { s with
      phase := .idle, done := true, biBits := [], biCount := s.biCount + BitVec.ofNat 32 s.biBits.length, err := true,
      errcode := 3, errinfo := 0 } := by
  obtain ⟨k, hk⟩ := Nat.exists_eq_add_of_lt hlen
  have reads := magicChkStep_reads (k := k + 1) hp (List.append_nil s.biBits).symm hk.symm
  have ends : ∀ t : State, t.phase = .busy w (.magicChk (s.biBits.foldl shiftIn 0) (k + 1)) → t.biBits = [] →
      t.biEod = true → magicChkStep t = raiseError .format 0 t := fun t ht hb he => by
    simp only [magicChkStep, ht, readBit_eod.mpr ⟨hb, he⟩]
  exact exec_of_reach hp (reads.trans (Reach.one (ends _ rfl rfl heod))) rfl (by omega)

/-- Settles O23: the bits of MAGIC accumulate to MAGIC. -/
theorem magicChkAcceptsMagic : Obligations.MagicChkAcceptsMagic := by
  unfold Obligations.MagicChkAcceptsMagic
  intro s w rest hp hg hb
  rw [← bitsMsb_eq_range s.magic] at hb
  rw [exec_magicChk_word hp hb (bitsMsb_length s.magic) hg, if_pos (foldl_shiftIn_bitsMsb s.magic)]

/-- Settles O24: 32 bits that accumulate to MAGIC are the bits of MAGIC, so any others fail the comparison. -/
theorem magicChkRejectsOtherInput : Obligations.MagicChkRejectsOtherInput := by
  unfold Obligations.MagicChkRejectsOtherInput
  intro s w hp hg
  refine ⟨fun p rest hlen hne hb => ?_, fun hlen heod => exec_magicChk_short hp hlen heod hg⟩
  have differs : p.foldl shiftIn 0 ≠ s.magic := fun h =>
    hne (by rw [← bitsMsb_foldl_shiftIn p hlen 0, h]; exact bitsMsb_eq_range s.magic)
  rw [exec_magicChk_word hp hb hlen hg, if_neg differs]

end Sys2Proof.Machine

/-! ## How commands end: the family of spec/60_exceptions.md -/

namespace Sys2Proof.Machine

/-! ### Commands that need a tree -/

theorem needTree_of_noTree {s : State} (ht : s.treeValid = false) (f : State → State) :
    needTree f s = raiseError .noTree 0 s := by
  simp [needTree, ht]

/-- SER, CODES, ENC and DEC look for the tree before they do anything else. -/
theorem commandStep_of_noTree {i : Instr} {s : State} {w : Word} (hi : i ∈ [Instr.ser, .codes, .enc, .dec])
    (hp : s.phase = .busy w .start) (ht : s.treeValid = false) : commandStep i s = raiseError .noTree 0 s := by
  simp only [List.mem_cons, List.not_mem_nil, or_false] at hi
  rcases hi with rfl | rfl | rfl | rfl
  · simp only [commandStep, serStep, hp, needTree_of_noTree ht]
  · simp only [commandStep, codesStep, atStart_start hp, needTree_of_noTree ht]
  · simp only [commandStep, encStep, hp, needTree_of_noTree ht]
  · simp only [commandStep, decStep, hp, needTree_of_noTree ht]

/-- Settles O32: the first engine step raises NO_TREE, and it ends the command. -/
theorem noTreeIsAnError : Obligations.NoTreeIsAnError := by
  unfold Obligations.NoTreeIsAnError
  intro s w i hi hp hg ht
  exact exec_of_run (m := 1) hp (commandStep_of_noTree hi hp ht) rfl hg

/-! ### The errors a command raises -/

/-- The error registers: ERR, ERRCODE and ERRINFO. -/
def State.errors (s : State) : Bool × BitVec 4 × BitVec 9 := (s.err, s.errcode, s.errinfo)

theorem errors_eq_iff {s t : State} :
    t.errors = s.errors ↔ t.err = s.err ∧ t.errcode = s.errcode ∧ t.errinfo = s.errinfo := by
  simp [State.errors]

/-- From `s` to `t` the error registers stay, or an error is raised that is not ILLEGAL_CMD. -/
def RaisesNoIllegal (s t : State) : Prop := t.errors = s.errors ∨ 2 ≤ t.errcode

theorem Transfer.errors {i : Instr} {s m : State} (h : Transfer i s m) : m.errors = s.errors := by
  obtain ⟨_, _, _, _, _, _, _, _, rfl⟩ := h.ports
  rfl

section
variable {s m : State} {f : State → State}

theorem RaisesNoIllegal.raises {e : ErrCode} {x : BitVec 9} (he : 2 ≤ e.number) :
    RaisesNoIllegal s (raiseError e x m) := .inr he

theorem RaisesNoIllegal.atStart (h : RaisesNoIllegal s (f s)) : RaisesNoIllegal s (atStart f s) := by
  rcases atStart_cases f s with ⟨_, _, e⟩ | e <;> rw [e]
  · exact h
  · exact .inl rfl

theorem RaisesNoIllegal.needTree (h : RaisesNoIllegal s (f s)) : RaisesNoIllegal s (needTree f s) := by
  rcases needTree_cases f s with ⟨_, e⟩ | ⟨_, e⟩ <;> rw [e]
  · exact h
  · exact .raises (by decide)

theorem RaisesNoIllegal.withCodes (h : ∀ c, RaisesNoIllegal s (f { s with code := c, codesValid := true })) :
    RaisesNoIllegal s (withCodes f s) := by
  rcases withCodes_cases f s with ⟨c, _, e⟩ | ⟨_, e⟩ <;> rw [e]
  · exact h c
  · exact .inl rfl

/-- A step that makes a transfer and goes on. -/
theorem RaisesNoIllegal.transfers {i : Instr} {c : Cont} (h : Transfer i s m) : RaisesNoIllegal s (goTo c m) :=
  .inl h.errors

/-- A step that reads a bit and goes on. DEC stands for the commands that read bits. -/
theorem RaisesNoIllegal.readsBit {b : Bool} {c : Cont} (h : readBit s = .item b m) : RaisesNoIllegal s (goTo c m) :=
  .transfers (i := .dec) (.readBit (by decide) h)

/-- A step that writes a bit and goes on, or holds. ENC stands for the commands that write bits. -/
theorem RaisesNoIllegal.writesBit (b : Bool) (c : Cont) (s : State) :
    RaisesNoIllegal s (match writeBit b s with | some m => goTo c m | none => s) := by
  split
  · next h => exact .transfers (i := .enc) (.writeBit (by decide) h)
  · exact .inl rfl

end

theorem serStep_raisesNoIllegal (s : State) : RaisesNoIllegal s (serStep s) := by
  unfold serStep
  split
  · exact .needTree (.inl rfl)
  · exact .writesBit ..
  all_goals exact .inl rfl

theorem deserStep_raisesNoIllegal (s : State) : RaisesNoIllegal s (deserStep s) := by
  unfold deserStep
  split
  · exact .inl rfl
  · unfold deserFlag; split
    · exact .raises (by decide)
    · split
      · next h => exact .readsBit h
      · next h => exact .readsBit h
      · exact .raises (by decide)
      · exact .inl rfl
  · unfold deserLeaf; split
    · exact .raises (by decide)
    · exact .inl rfl
  · unfold deserField; split
    · next h => exact .readsBit h
    · exact .raises (by decide)
    · exact .inl rfl
  · unfold deserReturn; split <;> exact .inl rfl
  · exact .inl rfl

theorem encStep_raisesNoIllegal (s : State) : RaisesNoIllegal s (encStep s) := by
  unfold encStep
  split
  · refine .needTree (.withCodes fun c => ?_)
    unfold encBegin; split
    · exact .inl rfl
    · exact .raises (by decide)
  · exact .writesBit ..
  · unfold encNext; split
    · next h => exact .transfers (.readByte rfl h)
    all_goals exact .inl rfl
  · exact .inl rfl
  · unfold encLookup; split
    · exact .inl rfl
    · exact .raises (by decide)
  · exact .inl rfl

theorem decStep_raisesNoIllegal (s : State) : RaisesNoIllegal s (decStep s) := by
  unfold decStep
  split
  · refine .needTree ?_
    unfold decBegin; split
    · split
      · exact .inl rfl
      · exact .raises (by decide)
    · exact .inl rfl
  · unfold decWalk; split
    · split
      · next h => exact .readsBit h
      · next h => exact .readsBit h
      all_goals exact .inl rfl
    · split
      · exact .inl rfl
      · split
        · next h => exact .transfers (.writeByte rfl h)
        · exact .inl rfl
  · exact .inl rfl

theorem magicWrStep_raisesNoIllegal (s : State) : RaisesNoIllegal s (magicWrStep s) := by
  unfold magicWrStep
  split
  · exact .inl rfl
  · exact .inl rfl
  · exact .writesBit ..
  · exact .inl rfl

theorem magicChkStep_raisesNoIllegal (s : State) : RaisesNoIllegal s (magicChkStep s) := by
  unfold magicChkStep
  split
  · exact .inl rfl
  · split
    · exact .inl rfl
    · exact .raises (by decide)
  · split
    · next h => exact .readsBit h
    · exact .raises (by decide)
    · exact .inl rfl
  · exact .inl rfl

/-- ILLEGAL_CMD is decoding's error; no command raises it (spec/60_exceptions.md R201). -/
theorem commandStep_raisesNoIllegal (i : Instr) (s : State) : RaisesNoIllegal s (commandStep i s) := by
  cases i with
  | nop => exact RaisesNoIllegal.atStart (f := complete) (.inl rfl)
  | clrFreq => exact RaisesNoIllegal.atStart (f := fun s => complete { s with freq := freqZero }) (.inl rfl)
  | build => exact RaisesNoIllegal.atStart (f := fun s => complete (storeTree s)) (.inl rfl)
  | codes => exact .atStart (.needTree (.withCodes fun _ => .inl rfl))
  | ser => exact serStep_raisesNoIllegal s
  | deser => exact deserStep_raisesNoIllegal s
  | enc => exact encStep_raisesNoIllegal s
  | dec => exact decStep_raisesNoIllegal s
  | magicWr => exact magicWrStep_raisesNoIllegal s
  | magicChk => exact magicChkStep_raisesNoIllegal s

/-! ### A command's end -/

/-- Where engine steps of a command with the word `w` can come from `s`, as DONE and the error registers show it
(spec/60_exceptions.md R204, R205): the command still runs, it has completed, or it has ended in an error. -/
inductive ComesTo (s : State) (w : Word) (t : State) : Prop
  | runs {c : Cont} (hp : t.phase = .busy w c) (hd : t.done = s.done) (he : t.errors = s.errors)
  | completes (hp : t.phase = .idle) (hd : t.done = true) (he : t.errors = s.errors)
  | raises (hp : t.phase = .idle) (hd : t.done = true) (he : t.err = true) (h2 : 2 ≤ t.errcode) (h9 : t.errcode ≤ 9)

theorem Prepares.done {i : Instr} {s m : State} (h : Prepares i s m) : m.done = s.done := by
  cases h with
  | transfers h => obtain ⟨_, _, _, _, _, _, _, _, rfl⟩ := h.ports; rfl
  | _ => rfl

theorem Prepares.errors {i : Instr} {s m : State} (h : Prepares i s m) : m.errors = s.errors := by
  cases h with
  | transfers h => exact h.errors
  | _ => rfl

theorem Does.comesTo {i : Instr} {s t : State} {w : Word} {c : Cont} (h : Does i s t) (hr : RaisesNoIllegal s t)
    (hp : s.phase = .busy w c) : ComesTo s w t := by
  obtain ⟨m, hm, hc⟩ := h
  have hmp : m.phase = .busy w c := hm.keepsFlags.phase.trans hp
  cases hc with
  | stays => exact .runs hmp hm.done hm.errors
  | @goesTo c' => exact .runs (congrArg (Phase.moveTo c') hmp) hm.done hm.errors
  | raises e | failsDeser _ e =>
    rcases hr with same | h2
    · exact .completes rfl rfl same
    · exact .raises rfl rfl rfl h2 (number_bounds e).2
  | _ => exact .completes rfl rfl hm.errors

theorem ComesTo.commandStep {s t : State} {w : Word} (i : Instr) (h : ComesTo s w t) : ComesTo s w (commandStep i t) := by
  cases h with
  | runs hp hd he =>
    cases (commandStep_does i t).comesTo (commandStep_raisesNoIllegal i t) hp with
    | runs hp' hd' he' => exact .runs hp' (hd'.trans hd) (he'.trans he)
    | completes hp' hd' he' => exact .completes hp' hd' (he'.trans he)
    | raises hp' hd' he' h2 h9 => exact .raises hp' hd' he' h2 h9
  | completes hp hd he => rw [commandStep_idle hp]; exact .completes hp hd he
  | raises hp hd he h2 h9 => rw [commandStep_idle hp]; exact .raises hp hd he h2 h9

/-- Settles O52: an engine step keeps the registers or ends the command, and after its end none changes anything. -/
theorem commandsEndOnce : Obligations.CommandsEndOnce := by
  unfold Obligations.CommandsEndOnce
  intro i s t w c hp h
  cases exec_keeps (P := ComesTo s w) (fun _ => ComesTo.commandStep i) h (.runs hp rfl rfl) with
  | runs hp hd he => exact .inl ⟨_, hp, hd, errors_eq_iff.mp he⟩
  | completes hp hd he => exact .inr (.inl ⟨hp, hd, errors_eq_iff.mp he⟩)
  | raises hp hd he h2 h9 => exact .inr (.inr ⟨hp, hd, he, h2, h9⟩)

end Sys2Proof.Machine
